-- ==== Sys2Proof/Word.lean ====
section
/-! DEFINITION. The widths of the hardware (spec/00_scope.md R6, R14): 64-bit registers, addresses, counters and
tags; 8-bit bytes; 32-bit instruction words; 5-bit register numbers. -/
namespace Sys2Proof

/-- A 64-bit value: a general register, the pc, an address, an extended immediate, a tag, a timestamp or a counter
(00_scope R6, R14). -/
abbrev Word := BitVec 64

/-- A byte of memory: 8 bits (00_scope R6). -/
abbrev Byte := BitVec 8

/-- An instruction word: 32 bits (30_encoding R110). -/
abbrev InstrWord := BitVec 32

/-- A register number, 0 to 31 (00_scope R14, 30_encoding R111). -/
abbrev Reg := BitVec 5

end Sys2Proof
end

