-- ==== Sys2Proof/Config.lean ====
section
/-! DEFINITION. What is fixed outside the step: the cache configuration the host supplies (00_scope R7, 10_state R35),
the value the model names for the open parameter MEM_CAPACITY at reset, and the free values the spec leaves open.
A free value has no body, so nothing can be proved of it but what its type says. -/
namespace Sys2Proof

/-- The replacement policies (00_scope R6, 10_state R35). -/
inductive Replacement where
  | fifo
  | lru
  | random
deriving DecidableEq, Repr

/-- The write policies (00_scope R6, 10_state R35). -/
inductive WritePolicy where
  | writeBack
  | writeThrough
deriving DecidableEq, Repr

/-- A cache configuration as the host gives it at `CacheEnable` (10_state R35). `associativity = 0` is the shorthand
for fully associative (10_state R36) and is kept as given. -/
structure CacheCfg where
  size          : Nat
  blockSize     : Nat
  associativity : Nat
  replacement   : Replacement
  write         : WritePolicy
deriving DecidableEq, Repr

/-- The value of the open parameter MEM_CAPACITY in `State.reset`: 0x20000, the value of the spec's own test vectors
(00_scope R7, D1). DESIGN CHOICE, log 1: the spec gives no value, so no statement rests on this one. -/
def Config.resetCapacity : Nat := 0x20000

/-- FREE VALUE. The oracle `rand_slot` of RANDOM replacement (00_scope R7, 20_memory R78, D17): the raw draw with the
given number. `Cache.victim` reduces it to `0 .. ways-1`. Log 2. -/
opaque Config.randSlot : Nat → Nat

/-- FREE VALUE. The tag an entry of a newly constructed cache holds while it is invalid (10_state R37, R43, U6): by
draw number, set and slot. Log 3. -/
opaque Config.staleTag : Nat → Nat → Nat → Word

/-- FREE VALUE. The timestamp an entry of a newly constructed cache holds while it is invalid. Log 3. -/
opaque Config.staleTimestamp : Nat → Nat → Nat → Word

/-- FREE VALUE. A byte of the block an entry of a newly constructed cache holds while it is invalid: by draw number,
set, slot and offset. Log 3. -/
opaque Config.staleByte : Nat → Nat → Nat → Nat → Byte

end Sys2Proof
end

