-- ==== Sys2Proof/Syntax.lean ====
section
/-! DEFINITION. The instructions as data: one constructor per row of spec/opcode_table.json (30_encoding R120, R121),
carrying the fields its format has (30_encoding R130). Immediates are kept at the width the format gives them
(log 28): 12 bits for I and S, 13 for B and 21 for J (bit 0 included), the 20-bit field for U, 6 bits for a shift
amount. Operands.lean extends them to 64 bits. -/
namespace Sys2Proof

inductive Instr where
  -- register-register, opcode 0110011 (40_integer_register)
  | add  (rd rs1 rs2 : Reg)
  | sub  (rd rs1 rs2 : Reg)
  | sll  (rd rs1 rs2 : Reg)
  | slt  (rd rs1 rs2 : Reg)
  | sltu (rd rs1 rs2 : Reg)
  | xor  (rd rs1 rs2 : Reg)
  | srl  (rd rs1 rs2 : Reg)
  | sra  (rd rs1 rs2 : Reg)
  | or   (rd rs1 rs2 : Reg)
  | and  (rd rs1 rs2 : Reg)
  -- register-immediate, opcode 0010011 (41_integer_immediate)
  | addi  (rd rs1 : Reg) (imm : BitVec 12)
  | slti  (rd rs1 : Reg) (imm : BitVec 12)
  | sltiu (rd rs1 : Reg) (imm : BitVec 12)
  | xori  (rd rs1 : Reg) (imm : BitVec 12)
  | ori   (rd rs1 : Reg) (imm : BitVec 12)
  | andi  (rd rs1 : Reg) (imm : BitVec 12)
  | slli  (rd rs1 : Reg) (shamt : BitVec 6)
  | srli  (rd rs1 : Reg) (shamt : BitVec 6)
  | srai  (rd rs1 : Reg) (shamt : BitVec 6)
  -- loads, opcode 0000011 (42_loads)
  | lb  (rd rs1 : Reg) (imm : BitVec 12)
  | lh  (rd rs1 : Reg) (imm : BitVec 12)
  | lw  (rd rs1 : Reg) (imm : BitVec 12)
  | ld  (rd rs1 : Reg) (imm : BitVec 12)
  | lbu (rd rs1 : Reg) (imm : BitVec 12)
  | lhu (rd rs1 : Reg) (imm : BitVec 12)
  | lwu (rd rs1 : Reg) (imm : BitVec 12)
  -- stores, opcode 0100011 (43_stores): rs1 is the base, rs2 the data
  | sb (rs1 rs2 : Reg) (imm : BitVec 12)
  | sh (rs1 rs2 : Reg) (imm : BitVec 12)
  | sw (rs1 rs2 : Reg) (imm : BitVec 12)
  | sd (rs1 rs2 : Reg) (imm : BitVec 12)
  -- conditional branches, opcode 1100011 (44_branches)
  | beq  (rs1 rs2 : Reg) (imm : BitVec 13)
  | bne  (rs1 rs2 : Reg) (imm : BitVec 13)
  | blt  (rs1 rs2 : Reg) (imm : BitVec 13)
  | bge  (rs1 rs2 : Reg) (imm : BitVec 13)
  | bltu (rs1 rs2 : Reg) (imm : BitVec 13)
  | bgeu (rs1 rs2 : Reg) (imm : BitVec 13)
  -- upper immediates, opcodes 0110111 and 0010111 (45_upper_immediate)
  | lui   (rd : Reg) (imm20 : BitVec 20)
  | auipc (rd : Reg) (imm20 : BitVec 20)
  -- jumps, opcodes 1101111 and 1100111 (46_jumps)
  | jal  (rd : Reg) (imm : BitVec 21)
  | jalr (rd rs1 : Reg) (imm : BitVec 12)
deriving DecidableEq, Repr

end Sys2Proof
end

