-- ==== Sys2Proof/Machine/State.lean ====
section
/-! DEFINITION. The state of the block as plain data (10_state R20), the events it emits (00_scope R11), and the state
after power-on reset (10_state R43). -/
namespace Sys2Proof.Machine

/-- The run state (10_state R32). -/
inductive RunState where
  | running
  | halted
  | faulted
deriving DecidableEq, Repr

/-- The causes of a fault (10_state R33, 60_exceptions R238). They are names; the spec has no cause codes. -/
inductive FaultCause where
  /-- A fetch from a pc that is not a multiple of 4 (60_exceptions R234, the spec's own fault, D7; log 9). -/
  | misalignedPC
  /-- An access outside MemoryImage, by fetch (60_exceptions R235) or by a load or store (R237). -/
  | memoryFault
  /-- A word that is neither the sentinel nor in the table (60_exceptions R236). -/
  | illegalInstruction
deriving DecidableEq, Repr

/-- The context of a fault: the 32-bit word of an `IllegalInstruction`, or a 64-bit address (10_state R33). -/
inductive FaultInfo where
  | word (bits : InstrWord)
  | address (a : Word)
deriving DecidableEq, Repr

/-- The fault record `{cause, pc, info}` (10_state R33). -/
structure FaultRecord where
  cause : FaultCause
  pc    : Word
  info  : FaultInfo
deriving DecidableEq, Repr

/-- The output events (00_scope R11). -/
inductive Event where
  /-- A step fetched the zero word at this pc (60_exceptions R233). -/
  | halted (pc : Word)
  /-- A step faulted (60_exceptions R239). -/
  | fault (r : FaultRecord)
  /-- A `jal` to this target (46_jumps R215). -/
  | call (target : Word)
  /-- A `jalr` (46_jumps R216). -/
  | ret
  /-- A data access that spans a cache block boundary: its address and width in bytes (20_memory R80). -/
  | spanWarning (a : Word) (n : Nat)
deriving DecidableEq, Repr

/-- MemoryImage (10_state R34): the cells that differ from what an unlisted address reads as, in rising order of
address. `Memory.wf` (Ops.lean) is the canonical form. -/
abbrev Memory := List Host.Cell

/-- A CacheEntry (10_state R37). While `valid` is false the other fields are never read. -/
structure CacheEntry where
  valid     : Bool
  dirty     : Bool
  tag       : Word
  timestamp : Word
  block     : List Byte
deriving DecidableEq, Repr

/-- The cache while it is enabled (10_state R35 to R39). `lines` holds `numLines` sets of `ways` entries each. -/
structure Cache where
  cfg          : CacheCfg
  numLines     : Nat
  ways         : Nat
  lines        : List (List CacheEntry)
  hits         : Word
  misses       : Word
  writebacks   : Word
  logicalClock : Word
deriving DecidableEq, Repr

/-- The complete state of the block (10_state R20) and three fields of the model's own.

* `x` : `x[1..31]`; `x[0]` is a constant and not held (10_state R20, R22).
* `cache` : `cache_enabled` is `cache.isSome`; the rest of the cache state exists only then (10_state R35, 20_memory R76).
* `memCapacity` : the model's own, the open parameter MEM_CAPACITY, never written (00_scope R7, D1; log 1).
* `draws` : the model's own, the number of free values drawn so far (20_memory R78, D17; log 2, log 3).
* `events` : the model's own, the output trace, newest first (00_scope R11; log 4). -/
structure State where
  x           : Vector Word 31
  pc          : Word
  runState    : RunState
  fault       : Option FaultRecord
  mem         : Memory
  cache       : Option Cache
  memCapacity : Nat
  draws       : Nat
  events      : List Event
deriving DecidableEq, Repr

/-- Reasons for which the machine stops with no next state. There are NONE, so the type has no constructor: every
fault of this hardware leaves a state the spec gives (run state Faulted and the fault record, 60_exceptions R239), and
is taken as a next state; a step after it changes nothing (R232). Log 6. Safe: there is nothing the model leaves out
by stopping. -/
inductive Fault where
deriving DecidableEq, Repr

/-- Reasons for which the model refuses an instruction. -/
inductive Refusal where
  /-- An instruction of the opcode table that has no meaning yet, raised by exec's arm alone. Safe. No arm raises it:
  every instruction has its meaning. -/
  | notModelled (mnemonic : String)
deriving DecidableEq, Repr

/-- The state after power-on reset (10_state R43): every register and the pc 0, Running, no fault record, memory zero
everywhere (nothing listed), the cache disabled. The three last fields are the model's own (log 1, 2, 4). -/
def State.reset : State where
  x           := Vector.replicate 31 0
  pc          := 0
  runState    := .running
  fault       := none
  mem         := []
  cache       := none
  memCapacity := Config.resetCapacity
  draws       := 0
  events      := []

end Sys2Proof.Machine
end

