-- ==== Sys2Proof/Machine/Ops.lean ====
section
/-! DEFINITION. The named operations over registers, pc, events and MemoryImage, halting, and taking a fault
(10_state R21 to R25; 20_memory R50 to R55; 60_exceptions R233, R239). There is no return from a fault to stand beside
`raise`: no instruction returns (60_exceptions R241), and the host's Reset and Load, which alone leave Halted and
Faulted, are in Transactions.lean. -/
namespace Sys2Proof.Machine

/-! ## Registers and pc -/

/-- Where register `r`, not x0, stands in `State.x`. -/
theorem regSlot_lt (r : Reg) : r.toNat - 1 < 31 := by
  have := r.isLt
  omega

/-- `x[r]`: x0 reads 0 always (10_state R21). -/
def State.readReg (s : State) (r : Reg) : Word :=
  if r = 0#5 then 0#64 else s.x[r.toNat - 1]'(regSlot_lt r)

/-- `x[r] <- v`: a write to x0 is discarded (10_state R22). -/
def State.writeReg (s : State) (r : Reg) (v : Word) : State :=
  if r = 0#5 then s else { s with x := s.x.set (r.toNat - 1) v (regSlot_lt r) }

/-- `pc <- t` (10_state R25). -/
def State.setPc (s : State) (t : Word) : State := { s with pc := t }

/-- Complete an instruction that falls through: `x[rd] <- v; pc <- pc + 4` (10_state R25). -/
def State.retire (s : State) (rd : Reg) (v : Word) : State := (s.writeReg rd v).setPc (s.pc + 4)

/-- Complete an instruction that falls through and writes no register: `pc <- pc + 4` (10_state R25). -/
def State.advance (s : State) : State := s.setPc (s.pc + 4)

/-- Emit an output event (00_scope R11). -/
def State.emit (s : State) (e : Event) : State := { s with events := e :: s.events }

/-! ## Halting and taking a fault -/

/-- The halting step: the run state becomes Halted and `halted(pc)` is emitted; nothing else changes
(60_exceptions R233, D9). -/
def State.halt (s : State) : State := { s with runState := .halted, events := .halted s.pc :: s.events }

/-- `raise cause(info)`, the one operation that takes a fault: the run state becomes Faulted, the record
`{cause, pc, info}` is written, the event is emitted, and nothing else changes, the pc included (60_exceptions R239,
D10). -/
def State.raise (s : State) (cause : FaultCause) (info : FaultInfo) : State :=
  { s with
    runState := .faulted
    fault := some { cause := cause, pc := s.pc, info := info }
    events := .fault { cause := cause, pc := s.pc, info := info } :: s.events }

/-! ## MemoryImage, one byte -/

/-- What an address that holds no listed cell reads as: 0x00, the reset contents (10_state R43, 70 R261, D21;
log 5). -/
def Memory.unlisted : Byte := 0

/-- The cells from address `lo` on, strictly rising, none equal to what an unlisted address reads as. -/
def Memory.wfFrom (lo : Nat) : Memory → Bool
  | [] => true
  | (a, b) :: m => decide (lo ≤ a) && b != Memory.unlisted && Memory.wfFrom (a + 1) m

/-- The canonical form of MemoryImage: equal contents are equal lists. -/
def Memory.wf (m : Memory) : Bool := Memory.wfFrom 0 m

/-- `mem[a]` (10_state R34). -/
def Memory.read : Memory → Nat → Byte
  | [], _ => Memory.unlisted
  | (k, b) :: m, a => if k = a then b else Memory.read m a

/-- `mem[a] <- v`, in the canonical form. -/
def Memory.write : Memory → Nat → Byte → Memory
  | [], a, v => if v = Memory.unlisted then [] else [(a, v)]
  | (k, b) :: m, a, v =>
    if a < k then (if v = Memory.unlisted then (k, b) :: m else (a, v) :: (k, b) :: m)
    else if a = k then (if v = Memory.unlisted then m else (a, v) :: m)
    else (k, b) :: Memory.write m a v

/-! ## Byte order (20_memory R50) and block copies (R53) -/

/-- `mem[a], mem[a+1], ..., mem[a+n-1]`: the bytes of `RawRead` and of `RawReadBlock` (20_memory R52, R53). -/
def Memory.readBytes (m : Memory) (a n : Nat) : List Byte := (List.range n).map fun j => m.read (a + j)

/-- Store bytes at `a`, `a+1`, ...: the writes of `RawWrite` and of `RawWriteBlock` (20_memory R53). -/
def Memory.writeBytes : Memory → Nat → List Byte → Memory
  | m, _, [] => m
  | m, a, b :: bs => Memory.writeBytes (m.write a b) (a + 1) bs

/-- The value of at most eight bytes, the first its least significant: `{b[n-1], ..., b[1], b[0]}` extended with
zeros to 64 bits (20_memory R50, R52). -/
def leWord : List Byte → Word
  | [] => 0
  | b :: bs => (leWord bs) <<< 8 ||| b.setWidth 64

/-- The low `n` bytes of a value, the least significant first: `v[7:0], v[15:8], ...` (20_memory R53; the bits above
`8n-1` are ignored, D29). -/
def leBytes (n : Nat) (v : Word) : List Byte := (List.range n).map fun j => v.extractLsb' (8 * j) 8

/-- `RawRead(a, n)`: the `8n`-bit value at `a`, extended with zeros to 64 bits (20_memory R52). -/
def Memory.rawRead (m : Memory) (a n : Nat) : Word := leWord (m.readBytes a n)

/-- `RawWrite(a, n, v)` (20_memory R53). -/
def Memory.rawWrite (m : Memory) (a n : Nat) (v : Word) : Memory := m.writeBytes a (leBytes n v)

/-- The range check `u(a) +nat n <= MEM_CAPACITY`, in natural numbers (20_memory R55). -/
def inRange (capacity a n : Nat) : Bool := decide (a + n ≤ capacity)

end Sys2Proof.Machine
end

