-- ==== Sys2Proof/Machine/Operands.lean ====
section
/-! DEFINITION. Every operand form of the 40 instructions: the extension of immediates (30_encoding R113 to R119), the
second operand of the integer instructions, effective addresses (42_loads R180, 43_stores R190), jump targets, and the
extension of loaded values (42_loads R181). -/
namespace Sys2Proof.Machine

/-- I- and S-type immediate: sign-extended from 12 bits (30_encoding R113, R114, R118). -/
def extImm12 (imm : BitVec 12) : Word := imm.signExtend 64

/-- B-type immediate: sign-extended from bit 12 (30_encoding R115). -/
def extImm13 (imm : BitVec 13) : Word := imm.signExtend 64

/-- J-type immediate: sign-extended from bit 20 (30_encoding R117). -/
def extImm21 (imm : BitVec 21) : Word := imm.signExtend 64

/-- U-type immediate: `sext_64({imm20, 0^12})` (30_encoding R116). -/
def extImmU (imm20 : BitVec 20) : Word := (imm20 ++ 0#12).signExtend 64

/-- The shift amount of a register operand: its low 6 bits (40_integer_register R146). -/
def shiftAmount (v : Word) : BitVec 6 := v.extractLsb' 0 6

/-- `x[rs1] + imm`, the address of a load or store and the target of `jalr`, modulo 2^64
(42_loads R180, 43_stores R190, 46_jumps R216). -/
def State.baseDisp (s : State) (rs1 : Reg) (imm : BitVec 12) : Word := s.readReg rs1 + extImm12 imm

/-- `pc + imm`, the target of a branch, modulo 2^64 (44_branches R200). -/
def State.branchTarget (s : State) (imm : BitVec 13) : Word := s.pc + extImm13 imm

/-- `pc + imm`, the target of `jal`, modulo 2^64 (46_jumps R215). -/
def State.jalTarget (s : State) (imm : BitVec 21) : Word := s.pc + extImm21 imm

/-- `sext_64` of the low `bits` bits of a loaded value (42_loads R181). -/
def signExtendFrom (bits : Nat) (v : Word) : Word := (v.setWidth bits).signExtend 64

/-- `zext_64` of the low `bits` bits of a loaded value (42_loads R181). -/
def zeroExtendFrom (bits : Nat) (v : Word) : Word := (v.setWidth bits).setWidth 64

end Sys2Proof.Machine
end

