-- ==== Sys2Proof/Machine/Flags.lean ====
section
/-! DEFINITION. The hardware has no flags (10_state R30): a comparison delivers its result into a general register
(`slt`, `sltu`, `slti`, `sltiu`) or into the pc (branches). This file holds those comparisons. -/
namespace Sys2Proof.Machine

/-- The 64-bit value 1 or 0 of a comparison (40_integer_register R149). -/
def boolWord (b : Bool) : Word := if b then 1 else 0

/-- `a <s b`: `s(a) < s(b)` (00_scope R14). -/
def ltSigned (a b : Word) : Bool := decide (a.toInt < b.toInt)

/-- `a <u b`: `u(a) < u(b)` (00_scope R14). -/
def ltUnsigned (a b : Word) : Bool := decide (a.toNat < b.toNat)

/-- `beq` is taken (44_branches R201). -/
def condEq (a b : Word) : Bool := a == b
/-- `bne` is taken (44_branches R201). -/
def condNe (a b : Word) : Bool := a != b
/-- `blt` is taken (44_branches R201). -/
def condLt (a b : Word) : Bool := ltSigned a b
/-- `bge` is taken (44_branches R201). -/
def condGe (a b : Word) : Bool := !ltSigned a b
/-- `bltu` is taken (44_branches R201). -/
def condLtu (a b : Word) : Bool := ltUnsigned a b
/-- `bgeu` is taken (44_branches R201). -/
def condGeu (a b : Word) : Bool := !ltUnsigned a b

end Sys2Proof.Machine
end

