-- ==== Sys2Proof/Machine/Control.lean ====
section
/-! DEFINITION. Conditional branches, upper immediates and jumps (spec/44_branches.md, 45_upper_immediate.md,
46_jumps.md). No target is checked here: a bad one faults in the next step's fetch (44_branches R200, D7). -/
namespace Sys2Proof.Machine

/-- The common branch: `pc <- pc + imm` when the condition holds, else `pc <- pc + 4` (44_branches R200). -/
def branchOp (cond : Word → Word → Bool) (rs1 rs2 : Reg) (imm : BitVec 13) (s : State) :
    Host.Outcome State Fault Refusal :=
  .next (if cond (s.readReg rs1) (s.readReg rs2) then s.setPc (s.branchTarget imm) else s.advance)

/-- R202. -/
def execBeq (rs1 rs2 : Reg) (imm : BitVec 13) (s : State) : Host.Outcome State Fault Refusal := branchOp condEq rs1 rs2 imm s
/-- R203. -/
def execBne (rs1 rs2 : Reg) (imm : BitVec 13) (s : State) : Host.Outcome State Fault Refusal := branchOp condNe rs1 rs2 imm s
/-- R204. -/
def execBlt (rs1 rs2 : Reg) (imm : BitVec 13) (s : State) : Host.Outcome State Fault Refusal := branchOp condLt rs1 rs2 imm s
/-- R205. -/
def execBge (rs1 rs2 : Reg) (imm : BitVec 13) (s : State) : Host.Outcome State Fault Refusal := branchOp condGe rs1 rs2 imm s
/-- R206. -/
def execBltu (rs1 rs2 : Reg) (imm : BitVec 13) (s : State) : Host.Outcome State Fault Refusal := branchOp condLtu rs1 rs2 imm s
/-- R207. -/
def execBgeu (rs1 rs2 : Reg) (imm : BitVec 13) (s : State) : Host.Outcome State Fault Refusal := branchOp condGeu rs1 rs2 imm s

/-- R210: `x[rd] <- sext_64({imm20, 0^12})`. -/
def execLui (rd : Reg) (imm20 : BitVec 20) (s : State) : Host.Outcome State Fault Refusal :=
  .next (s.retire rd (extImmU imm20))

/-- R211: `x[rd] <- pc + sext_64({imm20, 0^12})`, the pc of the `auipc` itself. -/
def execAuipc (rd : Reg) (imm20 : BitVec 20) (s : State) : Host.Outcome State Fault Refusal :=
  .next (s.retire rd (s.pc + extImmU imm20))

/-- Link and jump: `x[rd] <- pc + 4; pc <- t`, then the event (46_jumps R215, R216). The target is computed before the
link register is written (10_state R23, D8). -/
def linkAndJump (rd : Reg) (t : Word) (e : Event) (s : State) : State :=
  ((s.writeReg rd (s.pc + 4)).setPc t).emit e

/-- R215. -/
def execJal (rd : Reg) (imm : BitVec 21) (s : State) : Host.Outcome State Fault Refusal :=
  .next (linkAndJump rd (s.jalTarget imm) (.call (s.jalTarget imm)) s)

/-- R216: bit 0 of the target is not cleared. -/
def execJalr (rd rs1 : Reg) (imm : BitVec 12) (s : State) : Host.Outcome State Fault Refusal :=
  .next (linkAndJump rd (s.baseDisp rs1 imm) .ret s)

end Sys2Proof.Machine
end

