-- ==== Sys2Proof/Machine/Cache.lean ====
section
/-! DEFINITION. The cache controller (20_memory R70 to R87, R92): geometry, lookup, stamps, victim, fill, the spanning
bypass, reads, writes and invalidation. Addresses are natural numbers here (`u(a)`, 20_memory R70). -/
namespace Sys2Proof.Machine

/-! ## Configuration and construction -/

/-- `num_lines` of a configuration (10_state R36). -/
def cfgNumLines (g : CacheCfg) : Nat := if g.associativity = 0 then 1 else g.size / (g.blockSize * g.associativity)

/-- `ways` of a configuration (10_state R36). -/
def cfgWays (g : CacheCfg) : Nat := if g.associativity = 0 then g.size / g.blockSize else g.associativity

/-- A legal configuration for a memory of this capacity (20_memory R73, D19). -/
def cfgLegal (capacity : Nat) (g : CacheCfg) : Bool :=
  decide (1 ≤ g.size) && decide (1 ≤ g.blockSize) && decide (g.blockSize ∣ capacity) &&
    (if g.associativity = 0 then decide (g.blockSize ∣ g.size)
     else decide (g.blockSize * g.associativity ∣ g.size))

/-- An entry of a newly constructed cache: invalid and clean; the fields nothing reads while it is invalid are free
values (10_state R37, R43, U6; log 3). -/
def freshEntry (blockSize draw set slot : Nat) : CacheEntry where
  valid     := false
  dirty     := false
  tag       := Config.staleTag draw set slot
  timestamp := Config.staleTimestamp draw set slot
  block     := (List.range blockSize).map (Config.staleByte draw set slot)

/-- The cache `CacheEnable` constructs: every entry invalid and clean, every counter 0 (20_memory R75). -/
def Cache.construct (g : CacheCfg) (draw : Nat) : Cache where
  cfg          := g
  numLines     := cfgNumLines g
  ways         := cfgWays g
  lines        := (List.range (cfgNumLines g)).map fun i =>
                    (List.range (cfgWays g)).map fun k => freshEntry g.blockSize draw i k
  hits         := 0
  misses       := 0
  writebacks   := 0
  logicalClock := 0

/-! ## Address decomposition (20_memory R70, R72) -/

/-- `offset = a mod block_size` (20_memory R70). -/
def Cache.offset (c : Cache) (a : Nat) : Nat := a % c.cfg.blockSize

/-- `index = (a / block_size) mod num_lines` (20_memory R70). -/
def Cache.index (c : Cache) (a : Nat) : Nat := (a / c.cfg.blockSize) % c.numLines

/-- `tag = a / (block_size * num_lines)`, a 64-bit value (20_memory R70, 00_scope R14). -/
def Cache.tag (c : Cache) (a : Nat) : Word := BitVec.ofNat 64 (a / (c.cfg.blockSize * c.numLines))

/-- `BlockAddr(t, i) = t * num_lines * block_size + i * block_size` (20_memory R72). -/
def Cache.blockAddr (c : Cache) (t : Word) (i : Nat) : Nat :=
  t.toNat * c.numLines * c.cfg.blockSize + i * c.cfg.blockSize

/-- The access of `n` bytes at `a` spans a block boundary (20_memory R80). -/
def Cache.spans (c : Cache) (a n : Nat) : Bool := decide (c.cfg.blockSize < c.offset a + n)

/-! ## Entries -/

/-- The entries of set `i`. A set that is not there is empty (log 31). -/
def Cache.set (c : Cache) (i : Nat) : List CacheEntry := c.lines.getD i []

/-- What reading a slot that is not there gives; no constructed cache has such a slot (log 31). -/
def absentEntry : CacheEntry := { valid := false, dirty := false, tag := 0, timestamp := 0, block := [] }

/-- `line[i].slot[k]` (10_state R20). -/
def Cache.entry (c : Cache) (i k : Nat) : CacheEntry := (c.set i).getD k absentEntry

/-- Change one entry; the others stay. -/
def Cache.updateEntry (c : Cache) (i k : Nat) (f : CacheEntry → CacheEntry) : Cache :=
  { c with lines := c.lines.modify i fun es => es.modify k f }

/-- `Lookup(i, t)`: the slot of set `i` that is valid and has tag `t`, if any (20_memory R71). -/
def Cache.lookup (c : Cache) (i : Nat) (t : Word) : Option Nat := (c.set i).findIdx? fun e => e.valid && e.tag == t

/-- `Stamp(e)`: the entry takes the clock's value, then the clock advances (20_memory R77). -/
def Cache.stamp (c : Cache) (i k : Nat) : Cache :=
  let stamped := c.updateEntry i k fun e => { e with timestamp := c.logicalClock }
  { stamped with logicalClock := c.logicalClock + 1 }

/-- What a hit does to the time stamps: under LRU it stamps, under FIFO and RANDOM nothing (20_memory R77, D15). -/
def Cache.touch (c : Cache) (i k : Nat) : Cache := if c.cfg.replacement = .lru then c.stamp i k else c

/-- The slot of the smallest timestamp; of several the least slot (20_memory R78; in a constructed cache the valid
timestamps are distinct, R77). -/
def oldestSlot (es : List CacheEntry) : Nat :=
  let stamps := es.map fun e => e.timestamp.toNat
  stamps.idxOf (stamps.foldr min (2 ^ 64))

/-- The least invalid slot of set `i`, if any (20_memory R78 step 1, D16). -/
def Cache.invalidSlot (c : Cache) (i : Nat) : Option Nat := (c.set i).findIdx? fun e => !e.valid

/-- `Victim(i)` with `rand_slot` reduced from the raw draw (20_memory R78, D16, D17). -/
def Cache.victim (c : Cache) (i draw : Nat) : Nat :=
  match c.invalidSlot i with
  | some k => k
  | none =>
    match c.cfg.replacement with
    | .random => draw % c.ways
    | .fifo => oldestSlot (c.set i)
    | .lru => oldestSlot (c.set i)

/-- A victim selection in set `i` takes a draw: RANDOM, with every slot valid (20_memory R78, D17). -/
def Cache.drawsSlot (c : Cache) (i : Nat) : Bool := (c.invalidSlot i).isNone && c.cfg.replacement == .random

/-- `n` bytes of a block from an offset, the least significant first, as a value (20_memory R81). -/
def blockRead (block : List Byte) (off n : Nat) : Word := leWord ((block.drop off).take n)

/-- `block[off+j] <- bytes[j]` (20_memory R85, R86). -/
def blockWrite : List Byte → Nat → List Byte → List Byte
  | block, _, [] => block
  | block, off, b :: bs => blockWrite (block.set off b) (off + 1) bs

/-! ## The controller -/

/-- The memory hierarchy a data access acts on: MemoryImage, the cache, the draw counter and the event trace. -/
structure Hierarchy where
  mem    : Memory
  cache  : Cache
  draws  : Nat
  events : List Event
deriving DecidableEq, Repr

/-- `RawWriteBlock` of a victim that is valid and dirty, counted; nothing for another (20_memory R79). -/
def Hierarchy.writeBackVictim (y : Hierarchy) (i k : Nat) : Hierarchy :=
  let e := y.cache.entry i k
  if e.valid && e.dirty then
    { y with
      mem := y.mem.writeBytes (y.cache.blockAddr e.tag i) e.block
      cache := { y.cache with writebacks := y.cache.writebacks + 1 } }
  else y

/-- Copy the aligned block that contains `a` from MemoryImage into slot `k`, valid, clean and stamped (20_memory R79). -/
def Hierarchy.install (y : Hierarchy) (a k : Nat) : Hierarchy :=
  let c := y.cache
  let filled := c.updateEntry (c.index a) k fun e =>
    { e with
      block := y.mem.readBytes (a - c.offset a) c.cfg.blockSize
      tag := c.tag a
      valid := true
      dirty := false }
  { y with cache := filled.stamp (c.index a) k }

/-- Count the draw a victim selection takes, if it takes one. -/
def Hierarchy.countDraw (y : Hierarchy) (i : Nat) : Hierarchy :=
  if y.cache.drawsSlot i then { y with draws := y.draws + 1 } else y

/-- `Fill(a)`: the slot, and the hierarchy after it (20_memory R79). -/
def Hierarchy.fill (y : Hierarchy) (a : Nat) : Nat × Hierarchy :=
  let i := y.cache.index a
  let k := y.cache.victim i (Config.randSlot y.draws)
  (k, (((y.countDraw i).writeBackVictim i k).install a k))

/-- A counted hit on slot `k` of set `i` (20_memory R81, R85, R86). -/
def Hierarchy.hit (y : Hierarchy) (i k : Nat) : Hierarchy :=
  { y with cache := { y.cache with hits := y.cache.hits + 1 }.touch i k }

/-- A counted miss (20_memory R81, R85, R86). -/
def Hierarchy.miss (y : Hierarchy) : Hierarchy :=
  { y with cache := { y.cache with misses := y.cache.misses + 1 } }

/-- Bring the block of `a` into the cache, counted as a hit or as a miss with a fill: the common part of a read
(20_memory R81) and of a write-back store (R86). -/
def Hierarchy.obtain (y : Hierarchy) (a : Nat) : Nat × Hierarchy :=
  match y.cache.lookup (y.cache.index a) (y.cache.tag a) with
  | some k => (k, y.hit (y.cache.index a) k)
  | none => y.miss.fill a

/-- The bypass event of a spanning access (20_memory R80). -/
def Hierarchy.warnSpan (y : Hierarchy) (a : Word) (n : Nat) : Hierarchy :=
  { y with events := .spanWarning a n :: y.events }

/-- `CacheRead(a, n)`: the value and the hierarchy after it (20_memory R80, R81). -/
def Hierarchy.cacheRead (y : Hierarchy) (a : Word) (n : Nat) : Word × Hierarchy :=
  if y.cache.spans a.toNat n then (y.mem.rawRead a.toNat n, y.warnSpan a n)
  else
    let got := y.obtain a.toNat
    (blockRead (got.2.cache.entry (y.cache.index a.toNat) got.1).block (y.cache.offset a.toNat) n, got.2)

/-- `WriteThrough(a, n, v)`: MemoryImage always; the cached copy on a hit; no allocation (20_memory R85). -/
def Hierarchy.writeThrough (y : Hierarchy) (a n : Nat) (v : Word) : Hierarchy :=
  let c := y.cache
  let stored := { y with mem := y.mem.rawWrite a n v }
  match c.lookup (c.index a) (c.tag a) with
  | some k =>
    let copied := { stored with
      cache := c.updateEntry (c.index a) k fun e =>
        { e with block := blockWrite e.block (c.offset a) (leBytes n v) } }
    copied.hit (c.index a) k
  | none => stored.miss

/-- `WriteBack(a, n, v)`: fill on a miss, then write the entry and mark it dirty; MemoryImage is not written
(20_memory R86). -/
def Hierarchy.writeBack (y : Hierarchy) (a n : Nat) (v : Word) : Hierarchy :=
  let got := y.obtain a
  { got.2 with
    cache := got.2.cache.updateEntry (y.cache.index a) got.1 fun e =>
      { e with block := blockWrite e.block (y.cache.offset a) (leBytes n v), dirty := true } }

/-- `CacheWrite(a, n, v)` (20_memory R80, R84). -/
def Hierarchy.cacheWrite (y : Hierarchy) (a : Word) (n : Nat) (v : Word) : Hierarchy :=
  if y.cache.spans a.toNat n then { y with mem := y.mem.rawWrite a.toNat n v }.warnSpan a n
  else
    match y.cache.cfg.write with
    | .writeThrough => y.writeThrough a.toNat n v
    | .writeBack => y.writeBack a.toNat n v

/-! ## Invalidation (20_memory R92) -/

/-- Flush the valid dirty entries of set `i` to MemoryImage, counting them. -/
def flushSet (c : Cache) (i : Nat) : List CacheEntry → Memory × Word → Memory × Word
  | [], acc => acc
  | e :: es, acc =>
    flushSet c i es
      (if e.valid && e.dirty then (acc.1.writeBytes (c.blockAddr e.tag i) e.block, acc.2 + 1) else acc)

/-- Flush the sets from number `i` on. -/
def flushSets (c : Cache) : Nat → List (List CacheEntry) → Memory × Word → Memory × Word
  | _, [], acc => acc
  | i, es :: rest, acc => flushSets c (i + 1) rest (flushSet c i es acc)

/-- An entry after `Invalidate`: not valid, not dirty (20_memory R92, D18). -/
def clearEntry (e : CacheEntry) : CacheEntry := { e with valid := false, dirty := false }

/-- `Invalidate`: flush every valid dirty block, counted, then clear every entry (20_memory R92). -/
def Hierarchy.invalidate (y : Hierarchy) : Hierarchy :=
  let flushed := flushSets y.cache 0 y.cache.lines (y.mem, y.cache.writebacks)
  { y with
    mem := flushed.1
    cache := { y.cache with
      lines := y.cache.lines.map fun es => es.map clearEntry
      writebacks := flushed.2 } }

end Sys2Proof.Machine
end

