-- ==== Sys2Proof/Machine/Arbiter.lean ====
section
/-! DEFINITION. The memory arbiter: the one place that sends a load or a store through the cache or straight to
MemoryImage (20_memory R55, R57, R58). -/
namespace Sys2Proof.Machine

/-- The hierarchy of a state whose cache is `c`. -/
def State.hierarchy (s : State) (c : Cache) : Hierarchy :=
  { mem := s.mem, cache := c, draws := s.draws, events := s.events }

/-- The state with the hierarchy a data access leaves. -/
def State.withHierarchy (s : State) (y : Hierarchy) : State :=
  { s with mem := y.mem, cache := some y.cache, draws := y.draws, events := y.events }

/-- `MemRead(a, n)`: the value, extended with zeros to 64 bits, and the state after it; none when the access is out of
range and nothing happens (20_memory R55, R57). -/
def State.memRead (s : State) (a : Word) (n : Nat) : Option (Word × State) :=
  if inRange s.memCapacity a.toNat n then
    match s.cache with
    | some c =>
      let got := (s.hierarchy c).cacheRead a n
      some (got.1, s.withHierarchy got.2)
    | none => some (s.mem.rawRead a.toNat n, s)
  else none

/-- `MemWrite(a, n, v)`: the state after it; none when the access is out of range and nothing happens
(20_memory R55, R58). -/
def State.memWrite (s : State) (a : Word) (n : Nat) (v : Word) : Option State :=
  if inRange s.memCapacity a.toNat n then
    match s.cache with
    | some c => some (s.withHierarchy ((s.hierarchy c).cacheWrite a n v))
    | none => some { s with mem := s.mem.rawWrite a.toNat n v }
  else none

end Sys2Proof.Machine
end

