-- ==== Sys2Proof/Machine/LoadStore.lean ====
section
/-! DEFINITION. The load and store instructions (spec/42_loads.md, spec/43_stores.md). -/
namespace Sys2Proof.Machine

/-- The common load: `a <- x[rs1] + imm; v <- MemRead(a, n); x[rd] <- ext(v); pc <- pc + 4`, or `MemoryFault(a)`
with no other effect (42_loads R180, 60_exceptions R237). -/
def loadOp (n : Nat) (ext : Word → Word) (rd rs1 : Reg) (imm : BitVec 12) (s : State) :
    Host.Outcome State Fault Refusal :=
  match s.memRead (s.baseDisp rs1 imm) n with
  | some (v, t) => .next (t.retire rd (ext v))
  | none => .next (s.raise .memoryFault (.address (s.baseDisp rs1 imm)))

/-- The common store: `a <- x[rs1] + imm; MemWrite(a, n, x[rs2]); pc <- pc + 4`, or `MemoryFault(a)` with no other
effect (43_stores R190, 60_exceptions R237). -/
def storeOp (n : Nat) (rs1 rs2 : Reg) (imm : BitVec 12) (s : State) : Host.Outcome State Fault Refusal :=
  match s.memWrite (s.baseDisp rs1 imm) n (s.readReg rs2) with
  | some t => .next t.advance
  | none => .next (s.raise .memoryFault (.address (s.baseDisp rs1 imm)))

/-- R182. -/
def execLb (rd rs1 : Reg) (imm : BitVec 12) (s : State) : Host.Outcome State Fault Refusal :=
  loadOp 1 (signExtendFrom 8) rd rs1 imm s
/-- R183. -/
def execLh (rd rs1 : Reg) (imm : BitVec 12) (s : State) : Host.Outcome State Fault Refusal :=
  loadOp 2 (signExtendFrom 16) rd rs1 imm s
/-- R184. -/
def execLw (rd rs1 : Reg) (imm : BitVec 12) (s : State) : Host.Outcome State Fault Refusal :=
  loadOp 4 (signExtendFrom 32) rd rs1 imm s
/-- R185: a plain 64-bit load. -/
def execLd (rd rs1 : Reg) (imm : BitVec 12) (s : State) : Host.Outcome State Fault Refusal :=
  loadOp 8 (fun v => v) rd rs1 imm s
/-- R186. -/
def execLbu (rd rs1 : Reg) (imm : BitVec 12) (s : State) : Host.Outcome State Fault Refusal :=
  loadOp 1 (zeroExtendFrom 8) rd rs1 imm s
/-- R187. -/
def execLhu (rd rs1 : Reg) (imm : BitVec 12) (s : State) : Host.Outcome State Fault Refusal :=
  loadOp 2 (zeroExtendFrom 16) rd rs1 imm s
/-- R188. -/
def execLwu (rd rs1 : Reg) (imm : BitVec 12) (s : State) : Host.Outcome State Fault Refusal :=
  loadOp 4 (zeroExtendFrom 32) rd rs1 imm s

/-- R192. -/
def execSb (rs1 rs2 : Reg) (imm : BitVec 12) (s : State) : Host.Outcome State Fault Refusal := storeOp 1 rs1 rs2 imm s
/-- R193. -/
def execSh (rs1 rs2 : Reg) (imm : BitVec 12) (s : State) : Host.Outcome State Fault Refusal := storeOp 2 rs1 rs2 imm s
/-- R194. -/
def execSw (rs1 rs2 : Reg) (imm : BitVec 12) (s : State) : Host.Outcome State Fault Refusal := storeOp 4 rs1 rs2 imm s
/-- R195. -/
def execSd (rs1 rs2 : Reg) (imm : BitVec 12) (s : State) : Host.Outcome State Fault Refusal := storeOp 8 rs1 rs2 imm s

end Sys2Proof.Machine
end

