-- ==== Sys2Proof/Machine/RegImm.lean ====
section
/-! DEFINITION. The register-immediate integer instructions (spec/41_integer_immediate.md). -/
namespace Sys2Proof.Machine

/-- The common template with the sign-extended immediate as second operand (R160). -/
def regImm (f : Word → Word → Word) (rd rs1 : Reg) (imm : BitVec 12) (s : State) : Host.Outcome State Fault Refusal :=
  .next (s.retire rd (f (s.readReg rs1) (extImm12 imm)))

/-- The common template of the shifts by `shamt = bits[25:20]` (R160). -/
def immShift (f : Word → Nat → Word) (rd rs1 : Reg) (shamt : BitVec 6) (s : State) :
    Host.Outcome State Fault Refusal :=
  .next (s.retire rd (f (s.readReg rs1) shamt.toNat))

/-- R161. -/
def execAddi (rd rs1 : Reg) (imm : BitVec 12) (s : State) : Host.Outcome State Fault Refusal :=
  regImm (fun a b => a + b) rd rs1 imm s
/-- R168. -/
def execSlti (rd rs1 : Reg) (imm : BitVec 12) (s : State) : Host.Outcome State Fault Refusal :=
  regImm (fun a b => boolWord (ltSigned a b)) rd rs1 imm s
/-- R169: the immediate is sign-extended, then both operands are read as unsigned. -/
def execSltiu (rd rs1 : Reg) (imm : BitVec 12) (s : State) : Host.Outcome State Fault Refusal :=
  regImm (fun a b => boolWord (ltUnsigned a b)) rd rs1 imm s
/-- R162. -/
def execXori (rd rs1 : Reg) (imm : BitVec 12) (s : State) : Host.Outcome State Fault Refusal :=
  regImm (fun a b => a ^^^ b) rd rs1 imm s
/-- R163. -/
def execOri (rd rs1 : Reg) (imm : BitVec 12) (s : State) : Host.Outcome State Fault Refusal :=
  regImm (fun a b => a ||| b) rd rs1 imm s
/-- R164. -/
def execAndi (rd rs1 : Reg) (imm : BitVec 12) (s : State) : Host.Outcome State Fault Refusal :=
  regImm (fun a b => a &&& b) rd rs1 imm s
/-- R165. -/
def execSlli (rd rs1 : Reg) (shamt : BitVec 6) (s : State) : Host.Outcome State Fault Refusal :=
  immShift (fun a k => a <<< k) rd rs1 shamt s
/-- R166. -/
def execSrli (rd rs1 : Reg) (shamt : BitVec 6) (s : State) : Host.Outcome State Fault Refusal :=
  immShift (fun a k => a >>> k) rd rs1 shamt s
/-- R167. -/
def execSrai (rd rs1 : Reg) (shamt : BitVec 6) (s : State) : Host.Outcome State Fault Refusal :=
  immShift (fun a k => a.sshiftRight k) rd rs1 shamt s

end Sys2Proof.Machine
end

