-- ==== Sys2Proof/Machine/RegReg.lean ====
section
/-! DEFINITION. The register-register integer instructions (spec/40_integer_register.md). -/
namespace Sys2Proof.Machine

/-- The common template: read `x[rs1]` and `x[rs2]`, compute, `x[rd] <- r; pc <- pc + 4` (R140). -/
def regReg (f : Word → Word → Word) (rd rs1 rs2 : Reg) (s : State) : Host.Outcome State Fault Refusal :=
  .next (s.retire rd (f (s.readReg rs1) (s.readReg rs2)))

/-- The common shift: by the low 6 bits of the second operand (R146). -/
def regShift (f : Word → Nat → Word) (rd rs1 rs2 : Reg) (s : State) : Host.Outcome State Fault Refusal :=
  regReg (fun a b => f a (shiftAmount b).toNat) rd rs1 rs2 s

/-- R141. -/
def execAdd (rd rs1 rs2 : Reg) (s : State) : Host.Outcome State Fault Refusal := regReg (fun a b => a + b) rd rs1 rs2 s
/-- R142: `rs1` is the minuend. -/
def execSub (rd rs1 rs2 : Reg) (s : State) : Host.Outcome State Fault Refusal := regReg (fun a b => a - b) rd rs1 rs2 s
/-- R146. -/
def execSll (rd rs1 rs2 : Reg) (s : State) : Host.Outcome State Fault Refusal := regShift (fun a k => a <<< k) rd rs1 rs2 s
/-- R149. -/
def execSlt (rd rs1 rs2 : Reg) (s : State) : Host.Outcome State Fault Refusal :=
  regReg (fun a b => boolWord (ltSigned a b)) rd rs1 rs2 s
/-- R150. -/
def execSltu (rd rs1 rs2 : Reg) (s : State) : Host.Outcome State Fault Refusal :=
  regReg (fun a b => boolWord (ltUnsigned a b)) rd rs1 rs2 s
/-- R143. -/
def execXor (rd rs1 rs2 : Reg) (s : State) : Host.Outcome State Fault Refusal := regReg (fun a b => a ^^^ b) rd rs1 rs2 s
/-- R147: logical right shift. -/
def execSrl (rd rs1 rs2 : Reg) (s : State) : Host.Outcome State Fault Refusal := regShift (fun a k => a >>> k) rd rs1 rs2 s
/-- R148: arithmetic right shift. -/
def execSra (rd rs1 rs2 : Reg) (s : State) : Host.Outcome State Fault Refusal :=
  regShift (fun a k => a.sshiftRight k) rd rs1 rs2 s
/-- R144. -/
def execOr (rd rs1 rs2 : Reg) (s : State) : Host.Outcome State Fault Refusal := regReg (fun a b => a ||| b) rd rs1 rs2 s
/-- R145. -/
def execAnd (rd rs1 rs2 : Reg) (s : State) : Host.Outcome State Fault Refusal := regReg (fun a b => a &&& b) rd rs1 rs2 s

end Sys2Proof.Machine
end

