-- ==== Sys2Proof/WellFormed.lean ====
section
/-! DEFINITION. Which instruction terms an encoding exists for. The types bound every field; what they do not say is
that bit 0 of a branch or `jal` offset is 0 (30_encoding R115, R117: "bit 0 of the encoded immediate is implicit 0",
44_branches R200). -/
namespace Sys2Proof

/-- A branch offset is even (30_encoding R115). -/
def evenOffset13 (imm : BitVec 13) : Bool := !imm.getLsbD 0

/-- A `jal` offset is even (30_encoding R117). -/
def evenOffset21 (imm : BitVec 21) : Bool := !imm.getLsbD 0

/-- The instruction has an encoding (30_encoding R111 to R121). -/
def Instr.wellFormed : Instr → Bool
  | .add _ _ _ | .sub _ _ _ | .sll _ _ _ | .slt _ _ _ | .sltu _ _ _ => true
  | .xor _ _ _ | .srl _ _ _ | .sra _ _ _ | .or _ _ _ | .and _ _ _ => true
  | .addi _ _ _ | .slti _ _ _ | .sltiu _ _ _ | .xori _ _ _ | .ori _ _ _ | .andi _ _ _ => true
  | .slli _ _ _ | .srli _ _ _ | .srai _ _ _ => true
  | .lb _ _ _ | .lh _ _ _ | .lw _ _ _ | .ld _ _ _ | .lbu _ _ _ | .lhu _ _ _ | .lwu _ _ _ => true
  | .sb _ _ _ | .sh _ _ _ | .sw _ _ _ | .sd _ _ _ => true
  | .beq _ _ imm => evenOffset13 imm
  | .bne _ _ imm => evenOffset13 imm
  | .blt _ _ imm => evenOffset13 imm
  | .bge _ _ imm => evenOffset13 imm
  | .bltu _ _ imm => evenOffset13 imm
  | .bgeu _ _ imm => evenOffset13 imm
  | .lui _ _ | .auipc _ _ => true
  | .jal _ imm => evenOffset21 imm
  | .jalr _ _ _ => true

end Sys2Proof
end

