-- ==== Sys2Proof/Decode.lean ====
section
/-! DEFINITION. The decoder, from the mask and match table of 30_encoding R121 and the field layouts of R111 to R119;
after it the encoder, written from the same layouts. The decoder is total on any bytes and rejects by name
(30_encoding R124). -/
namespace Sys2Proof

/-! ## Fields (30_encoding R111, R113 to R119) -/

def fieldOpcode (w : InstrWord) : BitVec 7 := w.extractLsb' 0 7
def fieldRd     (w : InstrWord) : Reg      := w.extractLsb' 7 5
def fieldFunct3 (w : InstrWord) : BitVec 3 := w.extractLsb' 12 3
def fieldRs1    (w : InstrWord) : Reg      := w.extractLsb' 15 5
def fieldRs2    (w : InstrWord) : Reg      := w.extractLsb' 20 5

/-- I-type immediate: `bits[31:20]` (30_encoding R113). -/
def fieldImmI (w : InstrWord) : BitVec 12 := w.extractLsb' 20 12

/-- S-type immediate: `{bits[31:25], bits[11:7]}` (30_encoding R114). -/
def fieldImmS (w : InstrWord) : BitVec 12 := w.extractLsb' 25 7 ++ w.extractLsb' 7 5

/-- B-type immediate: `{bits[31], bits[7], bits[30:25], bits[11:8], 0}` (30_encoding R115). -/
def fieldImmB (w : InstrWord) : BitVec 13 :=
  w.extractLsb' 31 1 ++ w.extractLsb' 7 1 ++ w.extractLsb' 25 6 ++ w.extractLsb' 8 4 ++ 0#1

/-- U-type immediate field: `bits[31:12]` (30_encoding R116). -/
def fieldImmU (w : InstrWord) : BitVec 20 := w.extractLsb' 12 20

/-- J-type immediate: `{bits[31], bits[19:12], bits[20], bits[30:21], 0}` (30_encoding R117). -/
def fieldImmJ (w : InstrWord) : BitVec 21 :=
  w.extractLsb' 31 1 ++ w.extractLsb' 12 8 ++ w.extractLsb' 20 1 ++ w.extractLsb' 21 10 ++ 0#1

/-- Shift amount of the I shift form: `bits[25:20]` (30_encoding R119). -/
def fieldShamt (w : InstrWord) : BitVec 6 := w.extractLsb' 20 6

/-! ## Operand forms, one per format -/

def buildR (op : Reg → Reg → Reg → Instr) (w : InstrWord) : Instr := op (fieldRd w) (fieldRs1 w) (fieldRs2 w)
def buildI (op : Reg → Reg → BitVec 12 → Instr) (w : InstrWord) : Instr := op (fieldRd w) (fieldRs1 w) (fieldImmI w)
def buildShift (op : Reg → Reg → BitVec 6 → Instr) (w : InstrWord) : Instr :=
  op (fieldRd w) (fieldRs1 w) (fieldShamt w)
def buildS (op : Reg → Reg → BitVec 12 → Instr) (w : InstrWord) : Instr := op (fieldRs1 w) (fieldRs2 w) (fieldImmS w)
def buildB (op : Reg → Reg → BitVec 13 → Instr) (w : InstrWord) : Instr := op (fieldRs1 w) (fieldRs2 w) (fieldImmB w)
def buildU (op : Reg → BitVec 20 → Instr) (w : InstrWord) : Instr := op (fieldRd w) (fieldImmU w)
def buildJ (op : Reg → BitVec 21 → Instr) (w : InstrWord) : Instr := op (fieldRd w) (fieldImmJ w)

/-! ## The table (30_encoding R121) -/

/-- A row: a word `w` selects it when `w & mask = pattern`, and then stands for `build w`. -/
structure Row where
  mask    : InstrWord
  pattern : InstrWord
  build   : InstrWord → Instr

/-- The masks of 30_encoding R121: all of funct7, funct3 and opcode; bits 31:26, funct3 and opcode; funct3 and
opcode; opcode alone. -/
def maskR : InstrWord := 0xFE00707F
def maskShift : InstrWord := 0xFC00707F
def maskFunct3 : InstrWord := 0x0000707F
def maskOpcode : InstrWord := 0x0000007F

def rowsRegReg : List Row := [
  ⟨maskR, 0x00000033, buildR .add⟩, ⟨maskR, 0x40000033, buildR .sub⟩, ⟨maskR, 0x00001033, buildR .sll⟩,
  ⟨maskR, 0x00002033, buildR .slt⟩, ⟨maskR, 0x00003033, buildR .sltu⟩, ⟨maskR, 0x00004033, buildR .xor⟩,
  ⟨maskR, 0x00005033, buildR .srl⟩, ⟨maskR, 0x40005033, buildR .sra⟩, ⟨maskR, 0x00006033, buildR .or⟩,
  ⟨maskR, 0x00007033, buildR .and⟩]

def rowsRegImm : List Row := [
  ⟨maskFunct3, 0x00000013, buildI .addi⟩, ⟨maskShift, 0x00001013, buildShift .slli⟩,
  ⟨maskFunct3, 0x00002013, buildI .slti⟩, ⟨maskFunct3, 0x00003013, buildI .sltiu⟩,
  ⟨maskFunct3, 0x00004013, buildI .xori⟩, ⟨maskShift, 0x00005013, buildShift .srli⟩,
  ⟨maskShift, 0x40005013, buildShift .srai⟩, ⟨maskFunct3, 0x00006013, buildI .ori⟩,
  ⟨maskFunct3, 0x00007013, buildI .andi⟩]

def rowsLoad : List Row := [
  ⟨maskFunct3, 0x00000003, buildI .lb⟩, ⟨maskFunct3, 0x00001003, buildI .lh⟩, ⟨maskFunct3, 0x00002003, buildI .lw⟩,
  ⟨maskFunct3, 0x00003003, buildI .ld⟩, ⟨maskFunct3, 0x00004003, buildI .lbu⟩, ⟨maskFunct3, 0x00005003, buildI .lhu⟩,
  ⟨maskFunct3, 0x00006003, buildI .lwu⟩]

def rowsStore : List Row := [
  ⟨maskFunct3, 0x00000023, buildS .sb⟩, ⟨maskFunct3, 0x00001023, buildS .sh⟩, ⟨maskFunct3, 0x00002023, buildS .sw⟩,
  ⟨maskFunct3, 0x00003023, buildS .sd⟩]

def rowsBranch : List Row := [
  ⟨maskFunct3, 0x00000063, buildB .beq⟩, ⟨maskFunct3, 0x00001063, buildB .bne⟩, ⟨maskFunct3, 0x00004063, buildB .blt⟩,
  ⟨maskFunct3, 0x00005063, buildB .bge⟩, ⟨maskFunct3, 0x00006063, buildB .bltu⟩, ⟨maskFunct3, 0x00007063, buildB .bgeu⟩]

def rowsUpperJump : List Row := [
  ⟨maskOpcode, 0x00000037, buildU .lui⟩, ⟨maskOpcode, 0x00000017, buildU .auipc⟩, ⟨maskOpcode, 0x0000006F, buildJ .jal⟩,
  ⟨maskFunct3, 0x00000067, buildI .jalr⟩]

/-- The 40 rows. They are pairwise disjoint (30_encoding R121; Laws/Decode.lean proves it), so their order does not
matter. -/
def rows : List Row := rowsRegReg ++ rowsRegImm ++ rowsLoad ++ rowsStore ++ rowsBranch ++ rowsUpperJump

/-- The word selects the row (30_encoding R121). -/
def Row.selects (r : Row) (w : InstrWord) : Bool := w &&& r.mask == r.pattern

/-! ## Rejection by name (30_encoding R124) -/

/-- Why bytes are no instruction: the classes of 30_encoding R124, and fewer than four bytes. -/
inductive Reject where
  | unlistedOpcode | opcode33Selector | opcode13Selector | loadFunct3 | storeFunct3 | branchFunct3 | jalrFunct3
  | truncated
deriving DecidableEq, Repr

/-- The class of a word that selects no row, by its opcode (30_encoding R124). -/
def illegalClass (w : InstrWord) : Reject :=
  if fieldOpcode w = 0x33 then .opcode33Selector
  else if fieldOpcode w = 0x13 then .opcode13Selector
  else if fieldOpcode w = 0x03 then .loadFunct3
  else if fieldOpcode w = 0x23 then .storeFunct3
  else if fieldOpcode w = 0x63 then .branchFunct3
  else if fieldOpcode w = 0x67 then .jalrFunct3
  else .unlistedOpcode

/-- Decoding is pure and total, a function of the word alone (30_encoding R121). `.error` is the spec's `Invalid`.
The all-zero word is one of the rejected words here; the step tests for it before it decodes (30_encoding R123). -/
def decode (w : InstrWord) : Except Reject Instr :=
  match rows.find? (·.selects w) with
  | some r => .ok (r.build w)
  | none => .error (illegalClass w)

/-- The instruction word of four bytes, the first its least significant (20_memory R50, 30_encoding R110). -/
def wordOfBytes (b0 b1 b2 b3 : Byte) : InstrWord := b3 ++ b2 ++ b1 ++ b0

/-- Decode the first instruction of a list of bytes and return the bytes after it: every instruction is one 32-bit
word (30_encoding R110). -/
def decodeBytes : List Byte → Except Reject (Instr × List Byte)
  | b0 :: b1 :: b2 :: b3 :: rest =>
    match decode (wordOfBytes b0 b1 b2 b3) with
    | .ok i => .ok (i, rest)
    | .error e => .error e
  | _ => .error .truncated

/-- The four bytes of an instruction word as the hardware stores them (20_memory R50, 30_encoding R110). -/
def bytesOfWord (w : InstrWord) : List Byte :=
  [w.extractLsb' 0 8, w.extractLsb' 8 8, w.extractLsb' 16 8, w.extractLsb' 24 8]

/-- The instruction word a row of the opcode table stands for: its `nbits` low bits, zero above them. -/
def tableWord (nbits w : Nat) : InstrWord := BitVec.ofNat 32 (w % 2 ^ nbits)

/-- The instruction the decoder reads from a table word's bytes. -/
def decodeTableWord (nbits w : Nat) : Option Instr :=
  match decodeBytes (bytesOfWord (tableWord nbits w)) with
  | .ok (i, _) => some i
  | .error _ => none

/-! ## The encoder (30_encoding R111 to R119, R121) -/

/-- R format: funct7, rs2, rs1, funct3, rd, opcode. -/
def encodeR (funct7 : BitVec 7) (funct3 : BitVec 3) (rd rs1 rs2 : Reg) : InstrWord :=
  funct7 ++ rs2 ++ rs1 ++ funct3 ++ rd ++ 0x33#7

/-- I format: imm[11:0], rs1, funct3, rd, opcode. -/
def encodeI (opcode : BitVec 7) (funct3 : BitVec 3) (rd rs1 : Reg) (imm : BitVec 12) : InstrWord :=
  imm ++ rs1 ++ funct3 ++ rd ++ opcode

/-- I shift form: the selector bits[31:26], the amount, rs1, funct3, rd, opcode. -/
def encodeShift (selector : BitVec 6) (funct3 : BitVec 3) (rd rs1 : Reg) (shamt : BitVec 6) : InstrWord :=
  selector ++ shamt ++ rs1 ++ funct3 ++ rd ++ 0x13#7

/-- S format: imm[11:5], rs2, rs1, funct3, imm[4:0], opcode. -/
def encodeS (funct3 : BitVec 3) (rs1 rs2 : Reg) (imm : BitVec 12) : InstrWord :=
  imm.extractLsb' 5 7 ++ rs2 ++ rs1 ++ funct3 ++ imm.extractLsb' 0 5 ++ 0x23#7

/-- B format: imm[12], imm[10:5], rs2, rs1, funct3, imm[4:1], imm[11], opcode. -/
def encodeB (funct3 : BitVec 3) (rs1 rs2 : Reg) (imm : BitVec 13) : InstrWord :=
  imm.extractLsb' 12 1 ++ imm.extractLsb' 5 6 ++ rs2 ++ rs1 ++ funct3 ++ imm.extractLsb' 1 4 ++ imm.extractLsb' 11 1
    ++ 0x63#7

/-- U format: imm[31:12], rd, opcode. -/
def encodeU (opcode : BitVec 7) (rd : Reg) (imm20 : BitVec 20) : InstrWord := imm20 ++ rd ++ opcode

/-- J format: imm[20], imm[10:1], imm[11], imm[19:12], rd, opcode. -/
def encodeJ (rd : Reg) (imm : BitVec 21) : InstrWord :=
  imm.extractLsb' 20 1 ++ imm.extractLsb' 1 10 ++ imm.extractLsb' 11 1 ++ imm.extractLsb' 12 8 ++ rd ++ 0x6F#7

/-- The word of a well-formed instruction. Of an ill-formed one (an odd branch or `jal` offset) it drops bit 0, which
the format has no place for. -/
def encode : Instr → InstrWord
  | .add rd rs1 rs2 => encodeR 0x00 0 rd rs1 rs2
  | .sub rd rs1 rs2 => encodeR 0x20 0 rd rs1 rs2
  | .sll rd rs1 rs2 => encodeR 0x00 1 rd rs1 rs2
  | .slt rd rs1 rs2 => encodeR 0x00 2 rd rs1 rs2
  | .sltu rd rs1 rs2 => encodeR 0x00 3 rd rs1 rs2
  | .xor rd rs1 rs2 => encodeR 0x00 4 rd rs1 rs2
  | .srl rd rs1 rs2 => encodeR 0x00 5 rd rs1 rs2
  | .sra rd rs1 rs2 => encodeR 0x20 5 rd rs1 rs2
  | .or rd rs1 rs2 => encodeR 0x00 6 rd rs1 rs2
  | .and rd rs1 rs2 => encodeR 0x00 7 rd rs1 rs2
  | .addi rd rs1 imm => encodeI 0x13 0 rd rs1 imm
  | .slti rd rs1 imm => encodeI 0x13 2 rd rs1 imm
  | .sltiu rd rs1 imm => encodeI 0x13 3 rd rs1 imm
  | .xori rd rs1 imm => encodeI 0x13 4 rd rs1 imm
  | .ori rd rs1 imm => encodeI 0x13 6 rd rs1 imm
  | .andi rd rs1 imm => encodeI 0x13 7 rd rs1 imm
  | .slli rd rs1 shamt => encodeShift 0b000000 1 rd rs1 shamt
  | .srli rd rs1 shamt => encodeShift 0b000000 5 rd rs1 shamt
  | .srai rd rs1 shamt => encodeShift 0b010000 5 rd rs1 shamt
  | .lb rd rs1 imm => encodeI 0x03 0 rd rs1 imm
  | .lh rd rs1 imm => encodeI 0x03 1 rd rs1 imm
  | .lw rd rs1 imm => encodeI 0x03 2 rd rs1 imm
  | .ld rd rs1 imm => encodeI 0x03 3 rd rs1 imm
  | .lbu rd rs1 imm => encodeI 0x03 4 rd rs1 imm
  | .lhu rd rs1 imm => encodeI 0x03 5 rd rs1 imm
  | .lwu rd rs1 imm => encodeI 0x03 6 rd rs1 imm
  | .sb rs1 rs2 imm => encodeS 0 rs1 rs2 imm
  | .sh rs1 rs2 imm => encodeS 1 rs1 rs2 imm
  | .sw rs1 rs2 imm => encodeS 2 rs1 rs2 imm
  | .sd rs1 rs2 imm => encodeS 3 rs1 rs2 imm
  | .beq rs1 rs2 imm => encodeB 0 rs1 rs2 imm
  | .bne rs1 rs2 imm => encodeB 1 rs1 rs2 imm
  | .blt rs1 rs2 imm => encodeB 4 rs1 rs2 imm
  | .bge rs1 rs2 imm => encodeB 5 rs1 rs2 imm
  | .bltu rs1 rs2 imm => encodeB 6 rs1 rs2 imm
  | .bgeu rs1 rs2 imm => encodeB 7 rs1 rs2 imm
  | .lui rd imm20 => encodeU 0x37 rd imm20
  | .auipc rd imm20 => encodeU 0x17 rd imm20
  | .jal rd imm => encodeJ rd imm
  | .jalr rd rs1 imm => encodeI 0x67 0 rd rs1 imm

end Sys2Proof
end

