-- ==== Sys2Proof/Machine/Fetch.lean ====
section
/-! DEFINITION. Everything of a step that comes before an instruction's own rule: the run state, the checks of the pc,
the fetch, the sentinel and the decoder, in the order of 60_exceptions R230 and R240. -/
namespace Sys2Proof.Machine

/-- The outcome of the fetch and decode phases: the step is over in this state, or this instruction runs. -/
inductive Fetched where
  | done (t : State)
  | run (i : Instr)
deriving DecidableEq, Repr

/-- The pc is a multiple of 4: `pc[1:0] = 00` (60_exceptions R234). -/
def pcAligned (pc : Word) : Bool := pc.extractLsb' 0 2 == 0

/-- The instruction word at the pc: `RawRead(pc, 4)`, from MemoryImage and never through the cache (20_memory R60,
D12). -/
def State.fetchWord (s : State) : InstrWord := (s.mem.rawRead s.pc.toNat 4).setWidth 32

/-- The sentinel test, then the decoder (30_encoding R123, R124; 60_exceptions R233, R236). -/
def State.decodeStage (s : State) (bits : InstrWord) : Fetched :=
  if bits = 0 then .done s.halt
  else
    match decode bits with
    | .ok i => .run i
    | .error _ => .done (s.raise .illegalInstruction (.word bits))

/-- The phases before execute, in order (60_exceptions R230, R240): a state that is not Running is left as it is
(R231, R232); then alignment of the pc (R234), range of the fetch (R235), sentinel, decoder. -/
def State.fetchStage (s : State) : Fetched :=
  match s.runState with
  | .halted => .done s
  | .faulted => .done s
  | .running =>
    if !pcAligned s.pc then .done (s.raise .misalignedPC (.address s.pc))
    else if !inRange s.memCapacity s.pc.toNat 4 then .done (s.raise .memoryFault (.address s.pc))
    else s.decodeStage s.fetchWord

/-- Store an instruction word where the next fetch reads, by the host path, and make the block ready to fetch it:
Running, with no fault record (log 29). A word that does not fit at the pc is not stored. -/
def State.placeWord (s : State) (w : InstrWord) : State :=
  { s with
    runState := .running
    fault := none
    mem := if inRange s.memCapacity s.pc.toNat 4 then s.mem.writeBytes s.pc.toNat (bytesOfWord w) else s.mem }

end Sys2Proof.Machine
end

