-- ==== Sys2Proof/Machine/Step.lean ====
section
/-! DEFINITION. One step of the engine (60_exceptions R230). -/
namespace Sys2Proof.Machine

/-- `Step`: fetch, decode, execute. `x[0]` needs no reset at the end: it is a constant (10_state R22). -/
def step (s : State) : Host.Outcome State Fault Refusal :=
  match s.fetchStage with
  | .done t => .next t
  | .run i => exec i s

/-- The state with a table word stored where the next step fetches, ready to run it (log 29). -/
def State.withFetchWord (s : State) (nbits w : Nat) : State := s.placeWord (tableWord nbits w)

end Sys2Proof.Machine
end

