-- ==== Sys2Proof/Machine/Debug.lean ====
section
/-! DEFINITION. The DebugController as an observer of the block (60_exceptions R245 to R247). It is software outside
the block (00_scope R5): its state is a record of its own, no rule of the block reads it, and nothing here changes
registers, pc, memory or the cache but the block's own `step`. Logs 27, 33 and 34 say what its corner cases
rest on. -/
namespace Sys2Proof.Machine

/-- A call stack frame `{label, line}`; the line is absent until a step records one (60_exceptions R246, N22;
log 27). -/
structure Frame where
  label : String
  line  : Option Nat
deriving DecidableEq, Repr

/-- The observer's state: breakpoints as source lines, the call stack in two parts, and the loader's metadata, addresses
to symbols and addresses to source lines (60_exceptions R245, R246; 70 R266).

* `pushed` : the frames that `jal` pushed and no `jalr` has popped, the top first.
* `root` : the implicit root frame, under all of them, while it has not been popped.
* `labels`, `lines` : the metadata as pairs, an address first. DESIGN CHOICE, log 34: the spec gives the tables no format
  (N21; 60_exceptions R245), and of several pairs for one address the first listed is the one taken. -/
structure DebugController where
  breakpoints : List Nat
  pushed      : List Frame
  root        : Option Frame
  labels      : List (Nat × String)
  lines       : List (Nat × Nat)
deriving DecidableEq, Repr

/-- The call stack, the top frame first (60_exceptions R246). -/
def DebugController.callStack (d : DebugController) : List Frame := d.pushed ++ d.root.toList

/-- The implicit root frame at program start (60_exceptions R246). DESIGN CHOICE, log 33: the spec gives it no label; the
model gives it the empty one, whatever symbol stands at address 0. -/
def rootFrame : Frame := { label := "", line := none }

/-- At program start, and again on every reload: no breakpoints, and the implicit root frame alone (60_exceptions R246;
10_state R44; 70 R263). The root frame's label is the model's choice (log 33). -/
def DebugController.start (labels : List (Nat × String)) (lines : List (Nat × Nat)) : DebugController :=
  { breakpoints := [], pushed := [], root := some rootFrame, labels := labels, lines := lines }

/-- `break <line>` (60_exceptions R245): a set, so a second one of the same line changes nothing. -/
def DebugController.addBreakpoint (d : DebugController) (line : Nat) : DebugController :=
  if line ∈ d.breakpoints then d else { d with breakpoints := line :: d.breakpoints }

/-- `del break <line>`: the controller, and whether the line was there; when absent it is a no-op that reports
`BreakpointNotFound` (60_exceptions R245). -/
def DebugController.removeBreakpoint (d : DebugController) (line : Nat) : DebugController × Bool :=
  ({ d with breakpoints := d.breakpoints.filter (· != line) }, decide (line ∈ d.breakpoints))

/-- The symbol at an address, by the loader's label table (46_jumps R215; 60_exceptions R246; 70 R266). DESIGN CHOICE,
log 34: of several labels at one address, on which the spec has no word, the first listed is taken. -/
def DebugController.labelAt (d : DebugController) (target : Word) : Option String := d.labels.lookup target.toNat

/-- The source line of an address, by the loader's metadata (60_exceptions R245). DESIGN CHOICE, log 34: of several lines
for one address, on which the spec has no word, the first listed is taken. -/
def DebugController.lineAt (d : DebugController) (pc : Word) : Option Nat := d.lines.lookup pc.toNat

/-- Push a frame (60_exceptions R246). -/
def DebugController.push (d : DebugController) (f : Frame) : DebugController := { d with pushed := f :: d.pushed }

/-- Pop the top frame: the last one pushed, or the root when it is the only one; an empty stack stays empty
(60_exceptions R246, D26). -/
def DebugController.pop (d : DebugController) : DebugController :=
  match d.pushed with
  | _ :: fs => { d with pushed := fs }
  | [] => { d with root := none }

/-- Pop the implicit root frame, from under the others where there are others (60_exceptions R247; log 33). -/
def DebugController.popRoot (d : DebugController) : DebugController := { d with root := none }

/-- What an event does to the call stack: `call(t)` pushes a frame labeled with the symbol at `t`, empty if unknown;
`ret` pops the top frame; `halted` pops the root frame, and no other (46_jumps R215, R216; 60_exceptions R246, R247, D26;
70 R266; log 27, log 33). DESIGN CHOICE: where several symbols stand at `t` the label is the first one the table lists
(`labelAt`; N21; log 34), and the new frame has no line (N22; log 27). -/
def DebugController.observe (d : DebugController) (e : Event) : DebugController :=
  match e with
  | .call t => d.push { label := (d.labelAt t).getD "", line := none }
  | .ret => d.pop
  | .halted _ => d.popRoot
  | .fault _ => d
  | .spanWarning _ _ => d

/-- The events a step added to the trace, oldest first. -/
def newEvents (before after : State) : List Event := (after.events.take (after.events.length - before.events.length)).reverse

/-- Record the source line of the executed instruction in the top frame (60_exceptions R247; log 27). -/
def DebugController.recordLine (d : DebugController) (line : Option Nat) : DebugController :=
  match d.pushed with
  | f :: fs => { d with pushed := { f with line := line } :: fs }
  | [] => { d with root := d.root.map fun f => { f with line := line } }

/-- What `show_stack()` prints (60_exceptions R247). -/
inductive StackView where
  /-- The frames, top to bottom. -/
  | frames (topToBottom : List Frame)
  /-- The "execution complete" message. -/
  | executionComplete
deriving DecidableEq, Repr

/-- `show_stack()`: the frames top to bottom, or the message if there are none (60_exceptions R247). -/
def DebugController.showStack (d : DebugController) : StackView :=
  match d.callStack with
  | [] => .executionComplete
  | f :: fs => .frames (f :: fs)

/-- The source line `step()` prints, that of the instruction it executes (60_exceptions R247). -/
def DebugController.printedLine (d : DebugController) (s : State) : Option Nat := d.lineAt s.pc

/-- The controller's `step()`: exactly one step of the engine, the executed line recorded, the events observed
(60_exceptions R247). -/
def DebugController.step (d : DebugController) (s : State) : Host.Outcome (DebugController × State) Fault Refusal :=
  match Sys2Proof.Machine.step s with
  | .next t => .next ((newEvents s t).foldl DebugController.observe (d.recordLine (d.printedLine s)), t)
  | .fault r => .fault r
  | .refused r => .refused r

/-- Why `run()` stopped (60_exceptions R245). -/
inductive RunReport where
  | ended (final : RunState)
  | breakpoint (line : Nat)
deriving DecidableEq, Repr

/-- Which of the two occurred in the state `run()` stopped in; none where neither has (60_exceptions R244, R245). -/
def DebugController.runReport (d : DebugController) (s : State) : Option RunReport :=
  if s.runState ≠ .running then some (.ended s.runState)
  else (d.lineAt s.pc).bind fun l => if l ∈ d.breakpoints then some (.breakpoint l) else none

/-- The controller's `run()` under fuel: steps until the run state is not Running or the current instruction's line is
a breakpoint (60_exceptions R244, R245). -/
def DebugController.run : Nat → DebugController → State → Host.Outcome (DebugController × State) Fault Refusal
  | 0, d, s => .next (d, s)
  | fuel + 1, d, s =>
    match d.runReport s with
    | some _ => .next (d, s)
    | none =>
      match d.step s with
      | .next (d', t) => DebugController.run fuel d' t
      | .fault r => .fault r
      | .refused r => .refused r

end Sys2Proof.Machine
end

