-- ==== Sys2Proof/Machine/Transactions.lean ====
section
/-! DEFINITION. The transactions of the host port (00_scope R9): Reset and Load (70 R260 to R266), Step and Run
(60_exceptions R230, R244), the cache operations (20_memory R75, R76, R92 to R95) and the read-only reports (10_state
R27, 20_memory R99). Each is atomic and happens between steps (00_scope R8; log 30). -/
namespace Sys2Proof.Machine

/-! ## Cache operations -/

/-- `CacheEnable(cfg)`: a legal configuration constructs an empty cache, an illegal one leaves the cache disabled;
either way the old cache is dropped without write-back (20_memory R75, D19, D20). -/
def State.cacheEnable (s : State) (g : CacheCfg) : State :=
  if cfgLegal s.memCapacity g then { s with cache := some (Cache.construct g s.draws), draws := s.draws + 1 }
  else { s with cache := none }

/-- `CacheDisable`: the cache is dropped without write-back (20_memory R76, D20). -/
def State.cacheDisable (s : State) : State := { s with cache := none }

/-- `CacheInvalidate`; with the cache disabled it does nothing (20_memory R92). -/
def State.cacheInvalidate (s : State) : State :=
  match s.cache with
  | some c => s.withHierarchy (s.hierarchy c).invalidate
  | none => s

/-! ## Reset and load -/

/-- A block in its reset state with the cache disabled (10_state R43). The parameter, the draw counter and the event
trace, the model's own fields, stay. -/
def State.clearedCore (s : State) : State :=
  { s with
    x := Vector.replicate 31 0
    pc := 0
    runState := .running
    fault := none
    mem := []
    cache := none }

/-- `Reset`: the reset values; a cache that is enabled is reconstructed with its configuration, its dirty blocks
dropped (70 R261, D21). -/
def State.resetTransaction (s : State) : State :=
  match s.cache with
  | some c => s.clearedCore.cacheEnable c.cfg
  | none => s.clearedCore

/-- Every address of the image exists (70 R262). -/
def imageFits (capacity : Nat) (image : List Host.Cell) : Bool := image.all fun cell => decide (cell.1 < capacity)

/-- Write an image's bytes into MemoryImage by the host path (70 R262). Of two bytes for one address the later in the
list stays (log 21). -/
def writeImage : Memory → List Host.Cell → Memory
  | m, [] => m
  | m, (a, b) :: rest => writeImage (m.write a b) rest

/-- `Load(image)`: Reset, then the image; an image that does not fit leaves the Reset state (70 R262, D21). -/
def State.load (s : State) (image : List Host.Cell) : State :=
  let r := s.resetTransaction
  if imageFits r.memCapacity image then { r with mem := writeImage r.mem image } else r

/-- The text segment of a program image: instruction `k` is the little-endian word at `4k` (70 R266). -/
def textImage : Nat → List InstrWord → List Host.Cell
  | _, [] => []
  | a, w :: ws =>
    [(a, w.extractLsb' 0 8), (a + 1, w.extractLsb' 8 8), (a + 2, w.extractLsb' 16 8), (a + 3, w.extractLsb' 24 8)]
      ++ textImage (a + 4) ws

/-! ## Run -/

/-- `Run` under fuel: `Step` while the run state is Running (60_exceptions R244, 70 R274). -/
def runFuel : Nat → State → Host.Outcome State Fault Refusal
  | 0, s => .next s
  | fuel + 1, s =>
    if s.runState = .running then
      match step s with
      | .next t => runFuel fuel t
      | .fault r => .fault r
      | .refused r => .refused r
    else .next s

/-! ## Reports -/

/-- `ReadRegs`: the 32 values `x[0..31]` (10_state R27). -/
def State.readRegs (s : State) : List Word := (List.range 32).map fun i => s.readReg (BitVec.ofNat 5 i)

/-- `ReadMem(addr, count)`: `count` bytes of MemoryImage by the host path, not through the cache; none when they do
not all exist (20_memory R99, D22; log 22). -/
def State.readMem (s : State) (a count : Nat) : Option (List Byte) :=
  if inRange s.memCapacity a count then some (s.mem.readBytes a count) else none

/-- What `CacheStatus` reports of an enabled cache: the configuration as given, and the ways constructed (20_memory
R95, 10_state R36). -/
structure StatusReport where
  cfg  : CacheCfg
  ways : Nat
deriving DecidableEq, Repr

/-- `CacheStatus`: none when the cache is disabled (20_memory R95). -/
def State.cacheStatus (s : State) : Option StatusReport := s.cache.map fun c => { cfg := c.cfg, ways := c.ways }

/-- What `CacheStats` reports: the accesses and the three counters (20_memory R93; 10_state R38 and 60_exceptions R248
for `writebacks`; log 27). The quotient `hit_rate` is left to the host (D28). -/
structure StatsReport where
  accesses   : Word
  hits       : Word
  misses     : Word
  writebacks : Word
deriving DecidableEq, Repr

/-- `CacheStats`: none when the cache is disabled (20_memory R93, 10_state R38; log 27). -/
def State.cacheStats (s : State) : Option StatsReport :=
  s.cache.map fun c => { accesses := c.hits + c.misses, hits := c.hits, misses := c.misses, writebacks := c.writebacks }

/-- A line of the dump: `{index, tag, dirty}` of a valid entry (20_memory R94). -/
structure DumpLine where
  index : Nat
  tag   : Word
  dirty : Bool
deriving DecidableEq, Repr

/-- The dump lines of set `i`, slots ascending. -/
def dumpSet (i : Nat) (es : List CacheEntry) : List DumpLine :=
  (es.filter (·.valid)).map fun e => { index := i, tag := e.tag, dirty := e.dirty }

/-- The dump lines of the sets from number `i` on, ascending. -/
def dumpSets : Nat → List (List CacheEntry) → List DumpLine
  | _, [] => []
  | i, es :: rest => dumpSet i es ++ dumpSets (i + 1) rest

/-- `CacheDump`: every valid entry, sets ascending, slots ascending (20_memory R94, D16). -/
def State.cacheDump (s : State) : List DumpLine :=
  match s.cache with
  | some c => dumpSets 0 c.lines
  | none => []

/-- A number in hexadecimal. The case of the digits is the model's (log 27). -/
def hexDigits (n : Nat) : String := String.ofList (Nat.toDigits 16 n)

/-- The text of a dump line: `Set: 0x<index hex>, Tag: 0x<tag hex>, <Dirty|Clean>` (20_memory R94). -/
def DumpLine.text (l : DumpLine) : String :=
  "Set: 0x" ++ hexDigits l.index ++ ", Tag: 0x" ++ hexDigits l.tag.toNat ++ ", " ++ (if l.dirty then "Dirty" else "Clean")

/-! ## The port -/

/-- The transactions (00_scope R9). -/
inductive Transaction where
  | reset
  | load (image : List Host.Cell)
  | step
  | run (fuel : Nat)
  | readRegs
  | readMem (a count : Nat)
  | cacheEnable (g : CacheCfg)
  | cacheDisable
  | cacheStatus
  | cacheInvalidate
  | cacheDump
  | cacheStats
deriving DecidableEq, Repr

/-- The state a transaction leaves (00_scope R9). The reports change nothing. -/
def transact (t : Transaction) (s : State) : Host.Outcome State Fault Refusal :=
  match t with
  | .reset => .next s.resetTransaction
  | .load image => .next (s.load image)
  | .step => Sys2Proof.Machine.step s
  | .run fuel => runFuel fuel s
  | .readRegs => .next s
  | .readMem _ _ => .next s
  | .cacheEnable g => .next (s.cacheEnable g)
  | .cacheDisable => .next s.cacheDisable
  | .cacheStatus => .next s
  | .cacheInvalidate => .next s.cacheInvalidate
  | .cacheDump => .next s
  | .cacheStats => .next s

/-- What a transaction returns to the host. -/
inductive Response where
  | nothing
  | loaded (fits : Bool)
  | regs (values : List Word) (pc : Word)
  | bytes (values : Option (List Byte))
  | status (report : Option StatusReport)
  | dump (lines : List DumpLine)
  | stats (report : Option StatsReport)
deriving DecidableEq, Repr

/-- The response to a transaction requested in this state (00_scope R9). -/
def respond (t : Transaction) (s : State) : Response :=
  match t with
  | .reset => .nothing
  | .load image => .loaded (imageFits s.memCapacity image)
  | .step => .nothing
  | .run _ => .nothing
  | .readRegs => .regs s.readRegs s.pc
  | .readMem a count => .bytes (s.readMem a count)
  | .cacheEnable _ => .nothing
  | .cacheDisable => .nothing
  | .cacheStatus => .status s.cacheStatus
  | .cacheInvalidate => .nothing
  | .cacheDump => .dump s.cacheDump
  | .cacheStats => .stats s.cacheStats

end Sys2Proof.Machine
end

