-- ==== Sys2Proof/Safety.lean ====
section
/-! DEFINITION. The terms claims are stated in: the shape of an instruction, the data view of memory (20_memory R100),
the end of a run (60_exceptions R255), the invariant of the block's state, and what one step leaves alone. -/
namespace Sys2Proof

/-! ## The shape of an instruction (30_encoding R110 to R121) -/

/-- The formats, the I shift form apart (30_encoding R111). -/
inductive Format where
  | r
  | i
  | shift
  | s
  | b
  | u
  | j
deriving DecidableEq, Repr

/-- The format of an instruction (30_encoding R121). -/
def Instr.format : Instr → Format
  | .add _ _ _ | .sub _ _ _ | .sll _ _ _ | .slt _ _ _ | .sltu _ _ _ => .r
  | .xor _ _ _ | .srl _ _ _ | .sra _ _ _ | .or _ _ _ | .and _ _ _ => .r
  | .addi _ _ _ | .slti _ _ _ | .sltiu _ _ _ | .xori _ _ _ | .ori _ _ _ | .andi _ _ _ => .i
  | .slli _ _ _ | .srli _ _ _ | .srai _ _ _ => .shift
  | .lb _ _ _ | .lh _ _ _ | .lw _ _ _ | .ld _ _ _ | .lbu _ _ _ | .lhu _ _ _ | .lwu _ _ _ => .i
  | .sb _ _ _ | .sh _ _ _ | .sw _ _ _ | .sd _ _ _ => .s
  | .beq _ _ _ | .bne _ _ _ | .blt _ _ _ | .bge _ _ _ | .bltu _ _ _ | .bgeu _ _ _ => .b
  | .lui _ _ | .auipc _ _ => .u
  | .jal _ _ => .j
  | .jalr _ _ _ => .i

/-- The final 64-bit immediate of an instruction, if its format has one (30_encoding R112 to R118). -/
def Instr.immediate : Instr → Option Word
  | .add _ _ _ | .sub _ _ _ | .sll _ _ _ | .slt _ _ _ | .sltu _ _ _ => none
  | .xor _ _ _ | .srl _ _ _ | .sra _ _ _ | .or _ _ _ | .and _ _ _ => none
  | .addi _ _ imm | .slti _ _ imm | .sltiu _ _ imm | .xori _ _ imm | .ori _ _ imm | .andi _ _ imm =>
    some (Machine.extImm12 imm)
  | .slli _ _ _ | .srli _ _ _ | .srai _ _ _ => none
  | .lb _ _ imm | .lh _ _ imm | .lw _ _ imm | .ld _ _ imm | .lbu _ _ imm | .lhu _ _ imm | .lwu _ _ imm =>
    some (Machine.extImm12 imm)
  | .sb _ _ imm | .sh _ _ imm | .sw _ _ imm | .sd _ _ imm => some (Machine.extImm12 imm)
  | .beq _ _ imm | .bne _ _ imm | .blt _ _ imm | .bge _ _ imm | .bltu _ _ imm | .bgeu _ _ imm =>
    some (Machine.extImm13 imm)
  | .lui _ imm | .auipc _ imm => some (Machine.extImmU imm)
  | .jal _ imm => some (Machine.extImm21 imm)
  | .jalr _ _ imm => some (Machine.extImm12 imm)

/-- The destination register of an instruction, if its format has one (30_encoding R111). -/
def Instr.dest : Instr → Option Reg
  | .add rd _ _ | .sub rd _ _ | .sll rd _ _ | .slt rd _ _ | .sltu rd _ _ => some rd
  | .xor rd _ _ | .srl rd _ _ | .sra rd _ _ | .or rd _ _ | .and rd _ _ => some rd
  | .addi rd _ _ | .slti rd _ _ | .sltiu rd _ _ | .xori rd _ _ | .ori rd _ _ | .andi rd _ _ => some rd
  | .slli rd _ _ | .srli rd _ _ | .srai rd _ _ => some rd
  | .lb rd _ _ | .lh rd _ _ | .lw rd _ _ | .ld rd _ _ | .lbu rd _ _ | .lhu rd _ _ | .lwu rd _ _ => some rd
  | .sb _ _ _ | .sh _ _ _ | .sw _ _ _ | .sd _ _ _ => none
  | .beq _ _ _ | .bne _ _ _ | .blt _ _ _ | .bge _ _ _ | .bltu _ _ _ | .bgeu _ _ _ => none
  | .lui rd _ | .auipc rd _ => some rd
  | .jal rd _ => some rd
  | .jalr rd _ _ => some rd

/-- The data access of an instruction, if it makes one: base register, displacement, width in bytes
(20_memory R56, R59). -/
def Instr.dataAccess : Instr → Option (Reg × BitVec 12 × Nat)
  | .add _ _ _ | .sub _ _ _ | .sll _ _ _ | .slt _ _ _ | .sltu _ _ _ => none
  | .xor _ _ _ | .srl _ _ _ | .sra _ _ _ | .or _ _ _ | .and _ _ _ => none
  | .addi _ _ _ | .slti _ _ _ | .sltiu _ _ _ | .xori _ _ _ | .ori _ _ _ | .andi _ _ _ => none
  | .slli _ _ _ | .srli _ _ _ | .srai _ _ _ => none
  | .lb _ rs1 imm | .lbu _ rs1 imm | .sb rs1 _ imm => some (rs1, imm, 1)
  | .lh _ rs1 imm | .lhu _ rs1 imm | .sh rs1 _ imm => some (rs1, imm, 2)
  | .lw _ rs1 imm | .lwu _ rs1 imm | .sw rs1 _ imm => some (rs1, imm, 4)
  | .ld _ rs1 imm | .sd rs1 _ imm => some (rs1, imm, 8)
  | .beq _ _ _ | .bne _ _ _ | .blt _ _ _ | .bge _ _ _ | .bltu _ _ _ | .bgeu _ _ _ => none
  | .lui _ _ | .auipc _ _ => none
  | .jal _ _ => none
  | .jalr _ _ _ => none

/-- The seven loads with one set of operands: the instruction, its width in bytes, and whether it extends the sign
(42_loads R181; a sign extension of all 64 bits changes nothing, so `ld` stands as signed). -/
def loadForms (rd rs1 : Reg) (imm : BitVec 12) : List (Instr × Nat × Bool) :=
  [(.lb rd rs1 imm, 1, true), (.lh rd rs1 imm, 2, true), (.lw rd rs1 imm, 4, true), (.ld rd rs1 imm, 8, true),
    (.lbu rd rs1 imm, 1, false), (.lhu rd rs1 imm, 2, false), (.lwu rd rs1 imm, 4, false)]

/-- The four stores with one set of operands, and their widths in bytes (43_stores R191). -/
def storeForms (rs1 rs2 : Reg) (imm : BitVec 12) : List (Instr × Nat) :=
  [(.sb rs1 rs2 imm, 1), (.sh rs1 rs2 imm, 2), (.sw rs1 rs2 imm, 4), (.sd rs1 rs2 imm, 8)]

/-- The number that bytes denote, the first least significant (20_memory R50). -/
def leNat : List Byte → Nat
  | [] => 0
  | b :: bs => b.toNat + 256 * leNat bs

/-- The value a load puts into its destination from the bytes it read (42_loads R180, R181). -/
def loadedValue (signed : Bool) (bytes : List Byte) : Word :=
  if signed && decide (2 ^ (8 * bytes.length - 1) ≤ leNat bytes) then
    BitVec.ofInt 64 ((leNat bytes : Int) - 2 ^ (8 * bytes.length))
  else BitVec.ofNat 64 (leNat bytes)

/-- The illegal words, class by class, as 30_encoding R124 lists them. -/
abbrev illegalWord (w : InstrWord) : Prop :=
  w ≠ 0#32 ∧
    ((w.extractLsb' 0 7 ≠ 0x33#7 ∧ w.extractLsb' 0 7 ≠ 0x13#7 ∧ w.extractLsb' 0 7 ≠ 0x03#7 ∧
        w.extractLsb' 0 7 ≠ 0x23#7 ∧ w.extractLsb' 0 7 ≠ 0x63#7 ∧ w.extractLsb' 0 7 ≠ 0x37#7 ∧
        w.extractLsb' 0 7 ≠ 0x17#7 ∧ w.extractLsb' 0 7 ≠ 0x6F#7 ∧ w.extractLsb' 0 7 ≠ 0x67#7) ∨
      (w.extractLsb' 0 7 = 0x33#7 ∧
        ¬(w.extractLsb' 25 7 = 0x00#7 ∨
          w.extractLsb' 25 7 = 0x20#7 ∧ (w.extractLsb' 12 3 = 0#3 ∨ w.extractLsb' 12 3 = 5#3))) ∨
      (w.extractLsb' 0 7 = 0x13#7 ∧
        (w.extractLsb' 12 3 = 1#3 ∧ w.extractLsb' 26 6 ≠ 0b000000#6 ∨
          w.extractLsb' 12 3 = 5#3 ∧ w.extractLsb' 26 6 ≠ 0b000000#6 ∧ w.extractLsb' 26 6 ≠ 0b010000#6)) ∨
      (w.extractLsb' 0 7 = 0x03#7 ∧ w.extractLsb' 12 3 = 7#3) ∨
      (w.extractLsb' 0 7 = 0x23#7 ∧ 4 ≤ (w.extractLsb' 12 3).toNat) ∨
      (w.extractLsb' 0 7 = 0x63#7 ∧ (w.extractLsb' 12 3 = 2#3 ∨ w.extractLsb' 12 3 = 3#3)) ∨
      (w.extractLsb' 0 7 = 0x67#7 ∧ w.extractLsb' 12 3 ≠ 0#3))

end Sys2Proof

namespace Sys2Proof.Machine

/-! ## The data view (20_memory R100) -/

/-- The valid entry that holds the block of address `a`, if any (20_memory R71, R100). -/
def Cache.holding (c : Cache) (a : Nat) : Option CacheEntry :=
  (c.lookup (c.index a) (c.tag a)).map fun k => c.entry (c.index a) k

/-- `DV(a)` of a cache and a MemoryImage: the cached byte if a valid entry holds the address, else `mem[a]`
(20_memory R100). -/
def cachedView (c : Cache) (m : Memory) (a : Nat) : Byte :=
  match c.holding a with
  | some e => e.block.getD (c.offset a) 0
  | none => m.read a

/-- `DV(a)` (20_memory R100). -/
def State.dataView (s : State) (a : Nat) : Byte :=
  match s.cache with
  | some c => cachedView c s.mem a
  | none => s.mem.read a

/-- The data access of `n` bytes at `a` goes around the cache (20_memory R80). -/
def State.bypasses (s : State) (a : Word) (n : Nat) : Bool :=
  match s.cache with
  | some c => c.spans a.toNat n
  | none => false

/-- The bytes a data access of `n` bytes at `a` reads: MemoryImage's when it goes around the cache, else the data
view's (20_memory R80, R100). -/
def State.accessBytes (s : State) (a : Word) (n : Nat) : List Byte :=
  if s.bypasses a n then s.mem.readBytes a.toNat n else (List.range n).map fun j => s.dataView (a.toNat + j)

/-! ## The end of a run (60_exceptions R255) -/

/-- The run has ended normally. -/
abbrev State.endedNormally (s : State) : Prop := s.runState = .halted

/-- The run has ended abnormally. -/
abbrev State.endedAbnormally (s : State) : Prop := s.runState = .faulted

/-! ## The invariant -/

/-- The constraints on MEM_CAPACITY (00_scope R7, D1). -/
abbrev capacityLegal (capacity : Nat) : Prop := 8 ≤ capacity ∧ capacity < 2 ^ 63 ∧ 8 ∣ capacity

/-- MemoryImage is in canonical form and holds no cell outside the memory (10_state R34, R41). -/
abbrev memoryLegal (capacity : Nat) (m : Memory) : Prop := m.wf = true ∧ ∀ cell ∈ m, cell.1 < capacity

/-- The shape of an enabled cache: a legal configuration, `num_lines` and `ways` as constructed, `num_lines` sets of
`ways` entries of `block_size` bytes (10_state R36, R37; 20_memory R73). -/
abbrev Cache.shaped (c : Cache) (capacity : Nat) : Prop :=
  cfgLegal capacity c.cfg = true ∧ c.numLines = cfgNumLines c.cfg ∧ c.ways = cfgWays c.cfg ∧
    c.lines.length = c.numLines ∧
    (∀ es ∈ c.lines, es.length = c.ways) ∧
    (∀ es ∈ c.lines, ∀ e ∈ es, e.block.length = c.cfg.blockSize)

/-- Two valid entries of one set never have the same tag (10_state R37). -/
abbrev Cache.tagsDistinct (c : Cache) : Prop :=
  ∀ es ∈ c.lines, es.Pairwise fun e f => e.valid = true → f.valid = true → e.tag ≠ f.tag

/-- Under WRITE_THROUGH no entry is ever dirty (10_state R37). -/
abbrev Cache.cleanIfThrough (c : Cache) : Prop :=
  c.cfg.write = .writeThrough → ∀ es ∈ c.lines, ∀ e ∈ es, e.dirty = false

/-- The block of every valid entry lies wholly in memory, so fill and write-back never leave MemoryImage
(20_memory R73). -/
abbrev Cache.blocksInRange (c : Cache) (capacity : Nat) : Prop :=
  ∀ i < c.numLines, ∀ e ∈ c.set i, e.valid = true → c.blockAddr e.tag i + c.cfg.blockSize ≤ capacity

/-- The invariants of the cache (10_state R36, R37; 20_memory R73). -/
abbrev Cache.legal (c : Cache) (capacity : Nat) : Prop :=
  c.shaped capacity ∧ c.tagsDistinct ∧ c.cleanIfThrough ∧ c.blocksInRange capacity

/-- Every valid clean entry holds the bytes of MemoryImage at its block address: true of every cache until a spanning
store has written bytes an entry holds (10_state R37, 20_memory R100, R103). -/
abbrev Cache.coherent (c : Cache) (m : Memory) : Prop :=
  ∀ i < c.numLines, ∀ e ∈ c.set i, e.valid = true → e.dirty = false →
    ∀ j < c.cfg.blockSize, e.block.getD j 0 = m.read (c.blockAddr e.tag i + j)

/-- The cache, if there is one, is legal. -/
abbrev cacheLegal (capacity : Nat) (o : Option Cache) : Prop := ∀ c ∈ o, c.legal capacity

/-- There is a fault record exactly when the run state is Faulted, and it names the instruction the pc still points
at (10_state R33, 60_exceptions R239). -/
abbrev faultLegal (s : State) : Prop :=
  (s.fault.isSome = true ↔ s.runState = .faulted) ∧ ∀ r ∈ s.fault, r.pc = s.pc

/-- The invariant of the block: it holds after reset, and every step and every transaction keeps it. -/
structure State.Inv (s : State) : Prop where
  capacity : capacityLegal s.memCapacity
  memory   : memoryLegal s.memCapacity s.mem
  cached   : cacheLegal s.memCapacity s.cache
  faulted  : faultLegal s

/-! ## What an instruction changes (10_state R25, R30; 60_exceptions R239) -/

/-- The next pc of an instruction that completes (10_state R25). -/
def nextPc (i : Instr) (s : State) : Word :=
  match i with
  | .add _ _ _ | .sub _ _ _ | .sll _ _ _ | .slt _ _ _ | .sltu _ _ _ => s.pc + 4
  | .xor _ _ _ | .srl _ _ _ | .sra _ _ _ | .or _ _ _ | .and _ _ _ => s.pc + 4
  | .addi _ _ _ | .slti _ _ _ | .sltiu _ _ _ | .xori _ _ _ | .ori _ _ _ | .andi _ _ _ => s.pc + 4
  | .slli _ _ _ | .srli _ _ _ | .srai _ _ _ => s.pc + 4
  | .lb _ _ _ | .lh _ _ _ | .lw _ _ _ | .ld _ _ _ | .lbu _ _ _ | .lhu _ _ _ | .lwu _ _ _ => s.pc + 4
  | .sb _ _ _ | .sh _ _ _ | .sw _ _ _ | .sd _ _ _ => s.pc + 4
  | .beq rs1 rs2 imm => if s.readReg rs1 = s.readReg rs2 then s.pc + extImm13 imm else s.pc + 4
  | .bne rs1 rs2 imm => if s.readReg rs1 ≠ s.readReg rs2 then s.pc + extImm13 imm else s.pc + 4
  | .blt rs1 rs2 imm => if (s.readReg rs1).toInt < (s.readReg rs2).toInt then s.pc + extImm13 imm else s.pc + 4
  | .bge rs1 rs2 imm => if (s.readReg rs2).toInt ≤ (s.readReg rs1).toInt then s.pc + extImm13 imm else s.pc + 4
  | .bltu rs1 rs2 imm => if (s.readReg rs1).toNat < (s.readReg rs2).toNat then s.pc + extImm13 imm else s.pc + 4
  | .bgeu rs1 rs2 imm => if (s.readReg rs2).toNat ≤ (s.readReg rs1).toNat then s.pc + extImm13 imm else s.pc + 4
  | .lui _ _ | .auipc _ _ => s.pc + 4
  | .jal _ imm => s.pc + extImm21 imm
  | .jalr _ rs1 imm => s.readReg rs1 + extImm12 imm

/-- MemoryImage byte by byte, the cache and the draw counter are as before. -/
structure KeepsMemory (s t : State) : Prop where
  bytes : ∀ a, t.mem.read a = s.mem.read a
  cache : t.cache = s.cache
  draws : t.draws = s.draws

/-- `v` is in the destination, or nowhere when the destination is x0 (10_state R22); every other register, the run
state, the fault record and the capacity are as before. -/
structure WritesOnly (s t : State) (rd : Reg) (v : Word) : Prop where
  dest        : t.readReg rd = if rd = 0#5 then 0#64 else v
  others      : ∀ r, r ≠ rd → t.readReg r = s.readReg r
  runState    : t.runState = s.runState
  fault       : t.fault = s.fault
  memCapacity : t.memCapacity = s.memCapacity

/-- Every register, the run state, the fault record and the capacity are as before. -/
structure WritesNone (s t : State) : Prop where
  regs        : ∀ r, t.readReg r = s.readReg r
  runState    : t.runState = s.runState
  fault       : t.fault = s.fault
  memCapacity : t.memCapacity = s.memCapacity

/-- The whole effect of an instruction that only computes: `x[rd] <- v; pc <- pc + 4` (40_integer_register R140,
41_integer_immediate R160). -/
structure Computes (s t : State) (rd : Reg) (v : Word) : Prop where
  writes : WritesOnly s t rd v
  pc     : t.pc = s.pc + 4
  memory : KeepsMemory s t
  events : t.events = s.events

/-- The whole effect of `raise cause(info)` (60_exceptions R239). -/
structure Raised (s t : State) (cause : FaultCause) (info : FaultInfo) : Prop where
  runState    : t.runState = .faulted
  fault       : t.fault = some { cause := cause, pc := s.pc, info := info }
  events      : t.events = .fault { cause := cause, pc := s.pc, info := info } :: s.events
  regs        : ∀ r, t.readReg r = s.readReg r
  pc          : t.pc = s.pc
  memory      : KeepsMemory s t
  memCapacity : t.memCapacity = s.memCapacity

/-- The byte at `b` after the low `n` bytes of `v` are stored at `a` over the bytes `f` (20_memory R53). -/
def storedByte (f : Nat → Byte) (a n : Nat) (v : Word) (b : Nat) : Byte :=
  if a ≤ b ∧ b < a + n then v.extractLsb' (8 * (b - a)) 8 else f b

/-- The cache of a state, if it has one, is coherent. -/
abbrev State.coherent (s : State) : Prop := ∀ c ∈ s.cache, c.coherent s.mem

/-- `u` is `s` without its cache: the same registers, pc, run state, fault record, capacity and events, the cache
disabled, and in MemoryImage what `s` has in its data view (20_memory R100, R101). -/
structure Uncached (s u : State) : Prop where
  regs        : ∀ r, u.readReg r = s.readReg r
  pc          : u.pc = s.pc
  runState    : u.runState = s.runState
  fault       : u.fault = s.fault
  memCapacity : u.memCapacity = s.memCapacity
  events      : u.events = s.events
  disabled    : u.cache = none
  bytes       : ∀ a < s.memCapacity, u.mem.read a = s.dataView a

end Sys2Proof.Machine
end

