-- ==== Sys2Proof/Certificates/Slice0/Obligations.lean ====
section
/-! DEFINITION. The statements for the provers. Each docstring names the rules of spec/ it rests on; a docstring that
names a log entry rests on a choice recorded there. -/

section Statements

open Sys2Proof Sys2Proof.Machine

/-! ## Encoding (30_encoding.md) -/

/-- Words written out from the spec's encodings decode to the instructions they stand for: the spec's own examples in
40_integer_register R141, 41_integer_immediate R167, 42_loads R182, 43_stores R194, 44_branches R202 and R208,
45_upper_immediate R210 and R211, 46_jumps R215 and R216. -/
def Obligations.DecodesExampleWords : Prop :=
  decode 0x003100B3 = .ok (.add 1 2 3) ∧ decode 0x40215093 = .ok (.srai 1 2 2) ∧
  decode 0xFFF00093 = .ok (.addi 1 0 0xFFF) ∧ decode 0x00828383 = .ok (.lb 7 5 8) ∧
  decode 0xFE62AE23 = .ok (.sw 5 6 0xFFC) ∧ decode 0x00208463 = .ok (.beq 1 2 8) ∧
  decode 0x80000063 = .ok (.beq 0 0 0x1000) ∧ decode 0x000102B7 = .ok (.lui 5 0x10) ∧
  decode 0x00001297 = .ok (.auipc 5 1) ∧ decode 0xFFDFF06F = .ok (.jal 0 0x1FFFFC) ∧
  decode 0x000080E7 = .ok (.jalr 1 1 0)

/-- Decode and encode agree: every well-formed instruction, with every operand at every value its encoding admits, is
what its word decodes to (30_encoding R111 to R121, 46_jumps R218). -/
def Obligations.DecodeOfEncode : Prop :=
  ∀ i : Instr, i.wellFormed = true → decode (encode i) = .ok i

/-- The other direction: a word that decodes has one instruction, a well-formed one, and is its encoding. That no bit of
the word is dropped is a choice, not the source's word: it is the strict selectors, which the spec takes from general
knowledge (30_encoding R111 to R122; D5, D6; log 10, PRESUMED). -/
def Obligations.EncodeOfDecode : Prop :=
  ∀ (w : InstrWord) (i : Instr), decode w = .ok i → i.wellFormed = true ∧ encode i = w

/-- The illegal words are exactly those of the table of 30_encoding R124, written in `illegalWord`: apart from the
sentinel, a word fails to decode exactly when it is one of them. That a non-zero funct7 of `xor or and sll slt sltu`,
non-zero bits 31:26 of `slli` and a non-zero funct3 of `jalr` are illegal is a choice, which the spec takes from general
knowledge (30_encoding R122, R124; D4 to D6; log 10, PRESUMED); that the zero word alone is not one is D30, log 25. -/
def Obligations.IllegalWordsExactly : Prop :=
  ∀ w : InstrWord, illegalWord w ↔ w ≠ 0 ∧ ∃ e, decode w = .error e

/-- 30_encoding R113: every word that decodes to an I-type instruction gives it `imm = sext_64(bits[31:20])`, between
-2048 and 2047; the I-type instructions are the arithmetic-immediate ones that do not shift, the loads and `jalr`. -/
def Obligations.ImmediateOfIType : Prop :=
  ∀ (w : InstrWord) (i : Instr), decode w = .ok i →
    (i.format = .i ↔ (w.extractLsb' 0 7 = 0x13#7 ∧ w.extractLsb' 12 3 ≠ 1#3 ∧ w.extractLsb' 12 3 ≠ 5#3) ∨
      w.extractLsb' 0 7 = 0x03#7 ∨ w.extractLsb' 0 7 = 0x67#7) ∧
    (i.format = .i → ∃ imm, i.immediate = some imm ∧
      (∀ b < 64, imm.getLsbD b = if b < 12 then w.getLsbD (20 + b) else w.getLsbD 31) ∧
      -2048 ≤ imm.toInt ∧ imm.toInt ≤ 2047)

/-- 30_encoding R114: every word that decodes to an S-type instruction gives it
`imm = sext_64({bits[31:25], bits[11:7]})`, between -2048 and 2047. -/
def Obligations.ImmediateOfSType : Prop :=
  ∀ (w : InstrWord) (i : Instr), decode w = .ok i → i.format = .s → ∃ imm, i.immediate = some imm ∧
    (∀ b < 64, imm.getLsbD b =
      if b < 5 then w.getLsbD (7 + b) else if b < 12 then w.getLsbD (25 + (b - 5)) else w.getLsbD 31) ∧
    -2048 ≤ imm.toInt ∧ imm.toInt ≤ 2047

/-- 30_encoding R115: every word that decodes to a B-type instruction gives it
`imm = sext_64({bits[31], bits[7], bits[30:25], bits[11:8], 0})`, even, between -4096 and 4094, and not shifted a second
time: the branch to a label 8 bytes ahead, 0x00208463, has `imm = 8`. -/
def Obligations.ImmediateOfBType : Prop :=
  (∀ (w : InstrWord) (i : Instr), decode w = .ok i → i.format = .b → ∃ imm, i.immediate = some imm ∧
    (∀ b < 64, imm.getLsbD b =
      if b = 0 then false else if b < 5 then w.getLsbD (8 + (b - 1)) else if b < 11 then w.getLsbD (25 + (b - 5))
      else if b = 11 then w.getLsbD 7 else w.getLsbD 31) ∧
    -4096 ≤ imm.toInt ∧ imm.toInt ≤ 4094 ∧ imm.toInt % 2 = 0) ∧
  ∃ i, decode 0x00208463 = .ok i ∧ i.format = .b ∧ i.immediate = some 8

/-- 30_encoding R116: every word that decodes to a U-type instruction gives it
`imm = sext_64({bits[31:12], 0^12})`, between -2^31 and 2^31 - 4096 in steps of 4096. -/
def Obligations.ImmediateOfUType : Prop :=
  ∀ (w : InstrWord) (i : Instr), decode w = .ok i →
    (i.format = .u ↔ (∃ rd imm20, i = .lui rd imm20) ∨ ∃ rd imm20, i = .auipc rd imm20) ∧
    (i.format = .u → ∃ imm, i.immediate = some imm ∧
      (∀ b < 64, imm.getLsbD b = if b < 12 then false else if b < 32 then w.getLsbD b else w.getLsbD 31) ∧
      -2 ^ 31 ≤ imm.toInt ∧ imm.toInt ≤ 2 ^ 31 - 4096 ∧ imm.toInt % 4096 = 0)

/-- 30_encoding R117: every word that decodes to a J-type instruction gives it
`imm = sext_64({bits[31], bits[19:12], bits[20], bits[30:21], 0})`, even, between -2^20 and 2^20 - 2. -/
def Obligations.ImmediateOfJType : Prop :=
  ∀ (w : InstrWord) (i : Instr), decode w = .ok i → i.format = .j → ∃ imm, i.immediate = some imm ∧
    (∀ b < 64, imm.getLsbD b =
      if b = 0 then false else if b < 11 then w.getLsbD (21 + (b - 1)) else if b = 11 then w.getLsbD 20
      else if b < 20 then w.getLsbD b else w.getLsbD 31) ∧
    -2 ^ 20 ≤ imm.toInt ∧ imm.toInt ≤ 2 ^ 20 - 2 ∧ imm.toInt % 2 = 0

/-- 30_encoding R119: the shift amount of `slli`, `srli` and `srai` is `bits[25:20]`, and bits 31:26 select and are no
part of it: 000000 for `srli`, 010000 (bit 30 alone) for `srai`. -/
def Obligations.ShiftAmountOfShiftForm : Prop :=
  ∀ (w : InstrWord) (rd rs1 : Reg) (shamt : BitVec 6),
    (decode w = .ok (.slli rd rs1 shamt) → ∀ b < 6, shamt.getLsbD b = w.getLsbD (20 + b)) ∧
    (decode w = .ok (.srli rd rs1 shamt) →
      (∀ b < 6, shamt.getLsbD b = w.getLsbD (20 + b)) ∧ ∀ b, 26 ≤ b → b < 32 → w.getLsbD b = false) ∧
    (decode w = .ok (.srai rd rs1 shamt) →
      (∀ b < 6, shamt.getLsbD b = w.getLsbD (20 + b)) ∧ ∀ b, 26 ≤ b → b < 32 → w.getLsbD b = decide (b = 30))

/-! ## The step (60_exceptions.md) -/

/-- A step runs the decoded instruction: in state Running, with the pc a multiple of 4 and its four bytes in memory, when
these bytes decode to an instruction, `step` is `exec` of it at this state and nothing around it (60_exceptions
R230). That the bytes are MemoryImage's, whatever the cache holds, is the spec's own choice (20_memory R60; D12, log 13),
and so is the order of the checks before it (60_exceptions R240; D25, log 24). -/
def Obligations.StepRunsDecoded : Prop :=
  ∀ (s : State) (i : Instr) (rest : List Byte), s.runState = .running → s.pc.toNat % 4 = 0 →
    s.pc.toNat + 4 ≤ s.memCapacity → decodeBytes (s.mem.readBytes s.pc.toNat 4) = .ok (i, rest) → step s = exec i s

/-- The fetched word is little-endian: `bits[7:0]` is the byte at the pc, `bits[31:24]` the byte at pc + 3 (20_memory R50;
30_encoding R110). That it comes from MemoryImage whatever the cache holds is a choice, for the source's files disagree:
the spec's decision D12 (20_memory R60; 90_conflicts C1; log 13, UNVERIFIED, unsafe). -/
def Obligations.FetchReadsMemoryImage : Prop :=
  ∀ (s : State) (o : Option Cache) (b : Nat), b < 32 →
    ({ s with cache := o } : State).fetchWord.getLsbD b = (s.mem.read (s.pc.toNat + b / 8)).getLsbD (b % 8)

/-- The zero word halts: the run state becomes Halted, `halted(pc)` is emitted, and nothing else changes, the fault
record and the pc included (30_encoding R123; 60_exceptions R233). That nothing else changes is the spec's own choice (D9,
log 11), and so are that only the word 0 is the sentinel (D30, log 25), that it is looked for in MemoryImage (20_memory
R60; D12, log 13), and that this is after the checks of the pc (60_exceptions R240; D25, log 24). -/
def Obligations.ZeroWordHalts : Prop :=
  ∀ s : State, s.runState = .running → s.pc.toNat % 4 = 0 → s.pc.toNat + 4 ≤ s.memCapacity →
    (∀ j < 4, s.mem.read (s.pc.toNat + j) = 0) →
    ∃ t, step s = .next t ∧ t.runState = .halted ∧ t.events = .halted s.pc :: s.events ∧ t.fault = s.fault ∧
      t.pc = s.pc ∧ (∀ r, t.readReg r = s.readReg r) ∧ KeepsMemory s t ∧ t.memCapacity = s.memCapacity

/-- Halted and Faulted are absorbing: a step there changes nothing, and only there does a step change nothing but by an
instruction's own rule: a step in state Running that ends Running has run an instruction (60_exceptions R231, R232). That
a step after the end is a no-op is the spec's own choice (D9, log 11), and so is that the instruction is MemoryImage's
(20_memory R60; D12, log 13). -/
def Obligations.HaltedAndFaultedAbsorb : Prop :=
  (∀ s : State, s.runState ≠ .running → step s = .next s) ∧
  ∀ s t : State, s.runState = .running → step s = .next t → t.runState = .running →
    ∃ i, decode s.fetchWord = .ok i ∧ exec i s = .next t

/-- A bad pc faults at its fetch: one that is not a multiple of 4 with the spec's own `MisalignedPC`, also where it lies
outside memory; an aligned one outside memory, that is not below the capacity, with `MemoryFault(pc)`
(60_exceptions R234, R235, R240; 10_state R26; D7, D25; log 9, log 24). That the fault changes nothing but the run state,
the record and the events is the spec's own choice too (60_exceptions R239; D10, log 11). -/
def Obligations.BadPcFaults : Prop :=
  ∀ s : State, s.runState = .running →
    (s.pc.toNat % 4 ≠ 0 → ∃ t, step s = .next t ∧ Raised s t .misalignedPC (.address s.pc)) ∧
    (capacityLegal s.memCapacity → s.pc.toNat % 4 = 0 → s.memCapacity ≤ s.pc.toNat →
      ∃ t, step s = .next t ∧ Raised s t .memoryFault (.address s.pc))

/-- A fetched word faults with `IllegalInstruction(bits)` exactly when it is one of 30_encoding R124's illegal words; the
sentinel is not one of them (60_exceptions R236, R239). Which words these are rests on a choice, the strict selectors
(30_encoding R122; D4 to D6; log 10, PRESUMED), and on D30, log 25; that the fault changes nothing else is D10, log 11;
that the word is MemoryImage's is D12, log 13 (20_memory R60). -/
def Obligations.IllegalWordFaults : Prop :=
  ∀ s : State, s.runState = .running → s.pc.toNat % 4 = 0 → s.pc.toNat + 4 ≤ s.memCapacity →
    (illegalWord s.fetchWord → ∃ t, step s = .next t ∧ Raised s t .illegalInstruction (.word s.fetchWord)) ∧
    ∀ t r, step s = .next t → t.fault = some r → s.fault = none → r.cause = .illegalInstruction →
      illegalWord s.fetchWord

/-- Every step answers a next state, never a fault or a refusal of the model's, and adds at most one event to the trace
(60_exceptions R230, R239, R240; 00_scope R11). That faults are next states and that the events are kept in a trace are
the model's DESIGN CHOICE (log 6, log 4); that a step after the end emits nothing, and what a spanning access emits, are
the spec's own (D9, log 11; D24, log 23). -/
def Obligations.StepAnswersAndReportsOnce : Prop :=
  ∀ s : State, ∃ t, step s = .next t ∧ (t.events = s.events ∨ ∃ e, t.events = e :: s.events)

/-- A step that completes without fault and without halting ends with exactly one pc update, to `pc + 4` unless the
instruction is a taken branch, `jal` or `jalr` (10_state R25). When each branch is taken is a choice, which the spec takes
from general knowledge (44_branches R201; log 26, PRESUMED); so is that `jalr` jumps to the old `x[rs1]` also when
`rd = rs1` (10_state R23; D8, log 8, PRESUMED); sums are modulo 2^64 (10_state R29; D3, log 7, PRESUMED); no target is
checked (D7, log 9); the instruction is MemoryImage's (20_memory R60; D12, log 13); and a step that halts or faults leaves
the pc by the spec's own choice (60_exceptions R233, R239; D9, D10, log 11). -/
def Obligations.OnePcUpdatePerStep : Prop :=
  ∀ s t : State, s.runState = .running → step s = .next t →
    (t.runState = .running → ∃ i, decode s.fetchWord = .ok i ∧ t.pc = nextPc i s) ∧
    (t.runState ≠ .running → t.pc = s.pc)

/-- Faults are precise: a step in state Running that ends Faulted has changed nothing but the run state, the fault
record, which names its pc, and the events (60_exceptions R239). That it has not moved the pc, and that it is precise, is
the spec's own choice (D10, log 11), which rests on the range check of the whole access (D11, log 12). -/
def Obligations.FaultsArePrecise : Prop :=
  ∀ s t : State, s.runState = .running → step s = .next t → t.runState = .faulted →
    ∃ cause info, Raised s t cause info

/-! ## Registers and operands (10_state.md) -/

/-- The frame of every instruction: no register but its destination changes, and x0 never; without a data access
MemoryImage, the cache and the draw counter are as before; the capacity never changes (10_state R22, R24, R30). That this
holds of an access that faults as well, its destination kept, is the spec's own choice (60_exceptions R239; D10,
log 11). -/
def Obligations.OnlyDestinationChanges : Prop :=
  ∀ (i : Instr) (s t : State), exec i s = .next t →
    (∀ r, i.dest ≠ some r → t.readReg r = s.readReg r) ∧ t.readReg 0 = 0 ∧
    (i.dataAccess = none → KeepsMemory s t ∧ t.runState = s.runState ∧ t.fault = s.fault) ∧
    t.memCapacity = s.memCapacity

/-- Effective addresses and jump targets are sums modulo 2^64 of the base and the sign-extended displacement
(10_state R29, D3, log 7; 42_loads R180, R189; 44_branches R200; 46_jumps R215, R216). -/
def Obligations.AddressesWrap : Prop :=
  (∀ (s : State) (rs1 : Reg) (imm : BitVec 12),
    ((s.baseDisp rs1 imm).toNat : Int) = ((s.readReg rs1).toNat + imm.toInt) % 2 ^ 64) ∧
  (∀ (s : State) (imm : BitVec 13), ((s.branchTarget imm).toNat : Int) = (s.pc.toNat + imm.toInt) % 2 ^ 64) ∧
  ∀ (s : State) (imm : BitVec 21), ((s.jalTarget imm).toNat : Int) = (s.pc.toNat + imm.toInt) % 2 ^ 64

/-! ## Integer instructions (40_integer_register.md, 41_integer_immediate.md) -/

/-- `add`, `sub` and `addi` complete in every state with the sum or difference modulo 2^64, whatever registers coincide,
and change nothing else but the pc (40_integer_register R140 to R142; 41_integer_immediate R160, R161). These are choices,
which the spec takes from general knowledge: the operations (log 26, PRESUMED), sums modulo 2^64 (10_state R29; D3, log 7,
PRESUMED), and operands read first where registers coincide (10_state R23; D8, log 8, PRESUMED). -/
def Obligations.AddSubResults : Prop :=
  ∀ (s : State) (rd rs1 rs2 : Reg) (imm : BitVec 12),
    (∃ t v, exec (.add rd rs1 rs2) s = .next t ∧ Computes s t rd v ∧
      v.toNat = ((s.readReg rs1).toNat + (s.readReg rs2).toNat) % 2 ^ 64) ∧
    (∃ t v, exec (.sub rd rs1 rs2) s = .next t ∧ Computes s t rd v ∧
      (v.toNat : Int) = ((s.readReg rs1).toNat - (s.readReg rs2).toNat : Int) % 2 ^ 64) ∧
    ∃ t v, exec (.addi rd rs1 imm) s = .next t ∧ Computes s t rd v ∧
      (v.toNat : Int) = ((s.readReg rs1).toNat + imm.toInt) % 2 ^ 64

/-- `xor`, `or`, `and` and their immediate forms complete in every state with the bitwise result of all 64 bits, the
immediate's bits 63 to 12 copies of its bit 11, and change nothing else but the pc (40_integer_register R143 to R145;
41_integer_immediate R162 to R164). The operations, and that operands are read first where registers coincide, are choices,
which the spec takes from general knowledge (log 26, PRESUMED; 10_state R23; D8, log 8, PRESUMED). -/
def Obligations.LogicResults : Prop :=
  ∀ (s : State) (rd rs1 rs2 : Reg) (imm : BitVec 12),
    (∃ t v, exec (.xor rd rs1 rs2) s = .next t ∧ Computes s t rd v ∧
      ∀ b < 64, v.getLsbD b = ((s.readReg rs1).getLsbD b ^^ (s.readReg rs2).getLsbD b)) ∧
    (∃ t v, exec (.or rd rs1 rs2) s = .next t ∧ Computes s t rd v ∧
      ∀ b < 64, v.getLsbD b = ((s.readReg rs1).getLsbD b || (s.readReg rs2).getLsbD b)) ∧
    (∃ t v, exec (.and rd rs1 rs2) s = .next t ∧ Computes s t rd v ∧
      ∀ b < 64, v.getLsbD b = ((s.readReg rs1).getLsbD b && (s.readReg rs2).getLsbD b)) ∧
    (∃ t v, exec (.xori rd rs1 imm) s = .next t ∧ Computes s t rd v ∧
      ∀ b < 64, v.getLsbD b = ((s.readReg rs1).getLsbD b ^^ imm.getLsbD (min b 11))) ∧
    (∃ t v, exec (.ori rd rs1 imm) s = .next t ∧ Computes s t rd v ∧
      ∀ b < 64, v.getLsbD b = ((s.readReg rs1).getLsbD b || imm.getLsbD (min b 11))) ∧
    ∃ t v, exec (.andi rd rs1 imm) s = .next t ∧ Computes s t rd v ∧
      ∀ b < 64, v.getLsbD b = ((s.readReg rs1).getLsbD b && imm.getLsbD (min b 11))

/-- `sll`, `srl`, `slli` and `srli` complete in every state with the logical shift by the low 6 bits of the second
operand, zeros entering, and change nothing else but the pc (40_integer_register R146, R147; 41_integer_immediate R165,
R166). The operations, and that operands are read first where registers coincide, are choices, which the spec takes from
general knowledge (log 26, PRESUMED; 10_state R23; D8, log 8, PRESUMED). -/
def Obligations.LogicalShiftResults : Prop :=
  ∀ (s : State) (rd rs1 rs2 : Reg) (shamt : BitVec 6),
    (∃ t v, exec (.sll rd rs1 rs2) s = .next t ∧ Computes s t rd v ∧
      v.toNat = (s.readReg rs1).toNat * 2 ^ ((s.readReg rs2).toNat % 64) % 2 ^ 64) ∧
    (∃ t v, exec (.srl rd rs1 rs2) s = .next t ∧ Computes s t rd v ∧
      v.toNat = (s.readReg rs1).toNat / 2 ^ ((s.readReg rs2).toNat % 64)) ∧
    (∃ t v, exec (.slli rd rs1 shamt) s = .next t ∧ Computes s t rd v ∧
      v.toNat = (s.readReg rs1).toNat * 2 ^ shamt.toNat % 2 ^ 64) ∧
    ∃ t v, exec (.srli rd rs1 shamt) s = .next t ∧ Computes s t rd v ∧
      v.toNat = (s.readReg rs1).toNat / 2 ^ shamt.toNat

/-- `sra` and `srai` complete in every state with the arithmetic shift of the signed value by the low 6 bits of the
second operand, the quotient rounded down, and change nothing else but the pc (40_integer_register R148;
41_integer_immediate R167). The operations, and that operands are read first where registers coincide, are choices, which
the spec takes from general knowledge (log 26, PRESUMED; 10_state R23; D8, log 8, PRESUMED). -/
def Obligations.ArithmeticShiftResults : Prop :=
  ∀ (s : State) (rd rs1 rs2 : Reg) (shamt : BitVec 6),
    (∃ t v, exec (.sra rd rs1 rs2) s = .next t ∧ Computes s t rd v ∧
      v.toInt = (s.readReg rs1).toInt / 2 ^ ((s.readReg rs2).toNat % 64)) ∧
    ∃ t v, exec (.srai rd rs1 shamt) s = .next t ∧ Computes s t rd v ∧
      v.toInt = (s.readReg rs1).toInt / 2 ^ shamt.toNat

/-- `slt`, `sltu`, `slti` and `sltiu` complete in every state with 1 or 0, the immediate of `sltiu` sign-extended before
it is read as unsigned, and change nothing else but the pc (40_integer_register R149, R150; 41_integer_immediate R168,
R169). The operations, and that operands are read first where registers coincide, are choices, which the spec takes from
general knowledge (log 26, PRESUMED; 10_state R23; D8, log 8, PRESUMED). -/
def Obligations.ComparisonResults : Prop :=
  ∀ (s : State) (rd rs1 rs2 : Reg) (imm : BitVec 12),
    (∃ t v, exec (.slt rd rs1 rs2) s = .next t ∧ Computes s t rd v ∧
      v.toNat = if (s.readReg rs1).toInt < (s.readReg rs2).toInt then 1 else 0) ∧
    (∃ t v, exec (.sltu rd rs1 rs2) s = .next t ∧ Computes s t rd v ∧
      v.toNat = if (s.readReg rs1).toNat < (s.readReg rs2).toNat then 1 else 0) ∧
    (∃ t v, exec (.slti rd rs1 imm) s = .next t ∧ Computes s t rd v ∧
      v.toNat = if (s.readReg rs1).toInt < imm.toInt then 1 else 0) ∧
    ∃ t v, exec (.sltiu rd rs1 imm) s = .next t ∧ Computes s t rd v ∧
      v.toNat = if ((s.readReg rs1).toNat : Int) < imm.toInt % 2 ^ 64 then 1 else 0

/-! ## Upper immediates, branches and jumps (45_upper_immediate.md, 44_branches.md, 46_jumps.md) -/

/-- 45_upper_immediate R210: every word with opcode 0110111 is a `lui`, and it completes in every state with
`x[rd] <- sext_64({bits[31:12], 0^12})`: bits 11 to 0 of the result are 0 and bits 63 to 32 are copies of bit 31 of the
instruction; nothing else changes but the pc. -/
def Obligations.LuiResult : Prop :=
  ∀ (s : State) (w : InstrWord), w &&& 0x0000007F = 0x00000037 →
    ∃ (rd : Reg) (imm20 : BitVec 20) (t : State) (v : Word), decode w = .ok (.lui rd imm20) ∧
      rd = w.extractLsb' 7 5 ∧ exec (.lui rd imm20) s = .next t ∧ Computes s t rd v ∧
      ∀ b < 64, v.getLsbD b = if b < 12 then false else if b < 32 then w.getLsbD b else w.getLsbD 31

/-- Every word with opcode 0010111 is an `auipc`, and it completes in every state with
`x[rd] <- pc + sext_64({bits[31:12], 0^12})`, the pc being its own; nothing else changes but the pc (45_upper_immediate
R211). That the sum is modulo 2^64 is a choice (10_state R29; D3, log 7, PRESUMED). -/
def Obligations.AuipcResult : Prop :=
  ∀ (s : State) (w : InstrWord), w &&& 0x0000007F = 0x00000017 →
    ∃ (rd : Reg) (imm20 : BitVec 20) (t : State) (v : Word), decode w = .ok (.auipc rd imm20) ∧
      rd = w.extractLsb' 7 5 ∧ exec (.auipc rd imm20) s = .next t ∧ Computes s t rd v ∧
      (v.toNat : Int) = (s.pc.toNat + ((w.extractLsb' 12 20).toInt * 4096)) % 2 ^ 64

/-- The six branches complete in every state, write no register, touch no memory, emit no event, and set the pc to
`pc + imm` exactly when their condition holds, else to `pc + 4`; no target is checked (44_branches R200 to R207; D7,
log 9). The conditions, and sums modulo 2^64, are choices, which the spec takes from general knowledge (log 26, PRESUMED;
10_state R29; D3, log 7, PRESUMED). -/
def Obligations.BranchResults : Prop :=
  ∀ (s : State) (rs1 rs2 : Reg) (imm : BitVec 13),
    ∀ f ∈ [((.beq rs1 rs2 imm : Instr), decide (s.readReg rs1 = s.readReg rs2)),
        (.bne rs1 rs2 imm, decide (s.readReg rs1 ≠ s.readReg rs2)),
        (.blt rs1 rs2 imm, decide ((s.readReg rs1).toInt < (s.readReg rs2).toInt)),
        (.bge rs1 rs2 imm, decide ((s.readReg rs2).toInt ≤ (s.readReg rs1).toInt)),
        (.bltu rs1 rs2 imm, decide ((s.readReg rs1).toNat < (s.readReg rs2).toNat)),
        (.bgeu rs1 rs2 imm, decide ((s.readReg rs2).toNat ≤ (s.readReg rs1).toNat))],
      ∃ t, exec f.1 s = .next t ∧ t.pc = (if f.2 then s.branchTarget imm else s.pc + 4) ∧ WritesNone s t ∧
        KeepsMemory s t ∧ t.events = s.events

/-- `jal` completes in every state: the link register takes `pc + 4`, the pc takes `pc + imm`, and `call` is emitted
with the target, whatever `rd` is (46_jumps R215; 60_exceptions R246, D26, log 27). That no target is checked is the
spec's own choice (D7, log 9); sums modulo 2^64 are one it takes from general knowledge (10_state R29; D3, log 7,
PRESUMED). -/
def Obligations.JalResult : Prop :=
  ∀ (s : State) (rd : Reg) (imm : BitVec 21),
    ∃ t, exec (.jal rd imm) s = .next t ∧ WritesOnly s t rd (s.pc + 4) ∧ t.pc = s.jalTarget imm ∧
      KeepsMemory s t ∧ t.events = .call (s.jalTarget imm) :: s.events

/-- `jalr` completes in every state: the pc takes `x[rs1] + imm` with bit 0 kept and with the old `x[rs1]` also when
`rd = rs1`, the link register takes `pc + 4`, and `ret` is emitted, whatever the registers (46_jumps R216; 60_exceptions
R246, D26, log 27). That no target is checked is the spec's own choice (D7, log 9); the old `x[rs1]`, and sums modulo 2^64,
are ones it takes from general knowledge (10_state R23, R29; D8, log 8, PRESUMED; D3, log 7, PRESUMED). -/
def Obligations.JalrResult : Prop :=
  ∀ (s : State) (rd rs1 : Reg) (imm : BitVec 12),
    ∃ t, exec (.jalr rd rs1 imm) s = .next t ∧ WritesOnly s t rd (s.pc + 4) ∧ t.pc = s.baseDisp rs1 imm ∧
      KeepsMemory s t ∧ t.events = .ret :: s.events

/-! ## Loads and stores (42_loads.md, 43_stores.md, 20_memory.md) -/

/-- A load or store of `n` bytes at `a = x[rs1] + imm` faults with `MemoryFault(a)` exactly when `u(a) + n` exceeds the
capacity, whatever the cache, and otherwise completes (42_loads R180, 43_stores R190, 60_exceptions R237). That the check
is of the whole access in natural numbers is the spec's own choice (20_memory R55, 60_exceptions R238; D11, log 12), as
are that the fault changes nothing else (60_exceptions R239; D10, log 11), that `a` is modulo 2^64 (10_state R29; D3,
log 7, PRESUMED) and that no alignment is asked (20_memory R54; D13, log 14). -/
def Obligations.DataFaultExactlyOutOfRange : Prop :=
  ∀ (i : Instr) (s : State) (rs1 : Reg) (imm : BitVec 12) (n : Nat), i.dataAccess = some (rs1, imm, n) →
    (s.memCapacity < (s.baseDisp rs1 imm).toNat + n →
      ∃ t, exec i s = .next t ∧ Raised s t .memoryFault (.address (s.baseDisp rs1 imm))) ∧
    ((s.baseDisp rs1 imm).toNat + n ≤ s.memCapacity →
      ∃ t, exec i s = .next t ∧ t.runState = s.runState ∧ t.fault = s.fault ∧ t.pc = s.pc + 4)

/-- With the cache disabled the seven loads complete at every in-range address, aligned or not, with the little-endian
value of their bytes, sign- or zero-extended, and change nothing else but the pc (42_loads R180 to R188; 20_memory R52,
R54, R57). Legal at every alignment, and in range as a whole access, are the spec's decisions (D13, log 14; D11, log 12);
sums modulo 2^64, and the base read first where `rd = rs1`, are ones it takes from general knowledge (10_state R29, R23;
D3, log 7, PRESUMED; D8, log 8, PRESUMED). -/
def Obligations.LoadResultsUncached : Prop :=
  ∀ (s : State) (rd rs1 : Reg) (imm : BitVec 12), s.cache = none →
    ∀ f ∈ loadForms rd rs1 imm, (s.baseDisp rs1 imm).toNat + f.2.1 ≤ s.memCapacity →
      ∃ t, exec f.1 s = .next t ∧
        Computes s t rd (loadedValue f.2.2 (s.mem.readBytes (s.baseDisp rs1 imm).toNat f.2.1))

/-- With a legal cache enabled the seven loads complete at every in-range address with the value of the data view, or of
MemoryImage when the access spans a block boundary; registers but `rd`, the run state and the fault record stay
(42_loads R180, R181; 20_memory R80, R81, R100, R104). Legal at every alignment, and in range as a whole access, are the
spec's decisions (D13, log 14; D11, log 12); sums modulo 2^64, and the base read first where `rd = rs1`, are ones it takes
from general knowledge (10_state R29, R23; D3, log 7, PRESUMED; D8, log 8, PRESUMED). -/
def Obligations.LoadResultsCached : Prop :=
  ∀ (s : State) (rd rs1 : Reg) (imm : BitVec 12), s.Inv → s.cache.isSome = true →
    ∀ f ∈ loadForms rd rs1 imm, (s.baseDisp rs1 imm).toNat + f.2.1 ≤ s.memCapacity →
      ∃ t, exec f.1 s = .next t ∧ t.pc = s.pc + 4 ∧
        WritesOnly s t rd (loadedValue f.2.2 (s.accessBytes (s.baseDisp rs1 imm) f.2.1))

/-- A cached load that does not span changes no byte of the data view and emits nothing; a byte of MemoryImage it
changes takes the data view's value, by the write-back of a dirty victim (20_memory R79, R81, R100). It holds at every
alignment (D13, log 14) and whichever block the victim rule names (D16, log 17; D17, log 2). -/
def Obligations.CachedLoadKeepsDataView : Prop :=
  ∀ (s t : State) (rd rs1 : Reg) (imm : BitVec 12), s.Inv → s.coherent →
    ∀ f ∈ loadForms rd rs1 imm, s.bypasses (s.baseDisp rs1 imm) f.2.1 = false →
      (s.baseDisp rs1 imm).toNat + f.2.1 ≤ s.memCapacity → exec f.1 s = .next t →
      t.coherent ∧ t.events = s.events ∧
      ∀ a < s.memCapacity, t.dataView a = s.dataView a ∧
        (t.mem.read a = s.mem.read a ∨ t.mem.read a = s.dataView a)

/-- With the cache disabled the four stores complete at every in-range address, store the low bytes of `x[rs2]`
little-endian there, and change no other byte of MemoryImage and nothing else but the pc (43_stores R190 to R195;
20_memory R53, R54, R58; D29, log 25). Legal at every alignment, and in range as a whole access, are the spec's decisions
(D13, log 14; D11, log 12); sums modulo 2^64 are one it takes from general knowledge (10_state R29; D3, log 7,
PRESUMED). -/
def Obligations.StoreResultsUncached : Prop :=
  ∀ (s : State) (rs1 rs2 : Reg) (imm : BitVec 12), s.cache = none → s.mem.wf = true →
    ∀ f ∈ storeForms rs1 rs2 imm, (s.baseDisp rs1 imm).toNat + f.2 ≤ s.memCapacity →
      ∃ t, exec f.1 s = .next t ∧ t.pc = s.pc + 4 ∧ WritesNone s t ∧ t.cache = none ∧ t.draws = s.draws ∧
        t.events = s.events ∧
        (∀ j < f.2, t.mem.read ((s.baseDisp rs1 imm).toNat + j) = (s.readReg rs2).extractLsb' (8 * j) 8) ∧
        ∀ a, a < (s.baseDisp rs1 imm).toNat ∨ (s.baseDisp rs1 imm).toNat + f.2 ≤ a → t.mem.read a = s.mem.read a

/-- With a legal, coherent cache enabled a store that does not span stores its bytes in the data view and changes no
other byte of it, under both write policies; no register changes and no event is emitted (43_stores R190; 20_memory R84
to R86, R100; D29, log 25). Legal at every alignment, and in range as a whole access, are the spec's decisions (D13,
log 14; D11, log 12); sums modulo 2^64 are one it takes from general knowledge (10_state R29; D3, log 7, PRESUMED). -/
def Obligations.StoreResultsCached : Prop :=
  ∀ (s : State) (rs1 rs2 : Reg) (imm : BitVec 12), s.Inv → s.cache.isSome = true → s.coherent →
    ∀ f ∈ storeForms rs1 rs2 imm, s.bypasses (s.baseDisp rs1 imm) f.2 = false →
      (s.baseDisp rs1 imm).toNat + f.2 ≤ s.memCapacity →
      ∃ t, exec f.1 s = .next t ∧ t.pc = s.pc + 4 ∧ WritesNone s t ∧ t.cache.isSome = true ∧ t.coherent ∧
        t.events = s.events ∧
        ∀ a < s.memCapacity,
          t.dataView a = storedByte s.dataView (s.baseDisp rs1 imm).toNat f.2 (s.readReg rs2) a

/-- Where a cached store that does not span leaves MemoryImage: under WRITE_THROUGH it holds the stored bytes at once and
every other byte as before; under WRITE_BACK no stored byte reaches it: a byte it changes takes the data view's value
from before the store, by a victim's write-back, and none changes when the block was held (20_memory R85, R86, R101; D29,
log 25; D13, log 14; D3, log 7, PRESUMED). -/
def Obligations.CachedStoreAndMemoryImage : Prop :=
  ∀ (s t : State) (c : Cache) (rs1 rs2 : Reg) (imm : BitVec 12), s.Inv → s.cache = some c → s.coherent →
    ∀ f ∈ storeForms rs1 rs2 imm, s.bypasses (s.baseDisp rs1 imm) f.2 = false →
      (s.baseDisp rs1 imm).toNat + f.2 ≤ s.memCapacity → exec f.1 s = .next t →
      (c.cfg.write = .writeThrough → ∀ a,
        t.mem.read a = storedByte s.mem.read (s.baseDisp rs1 imm).toNat f.2 (s.readReg rs2) a) ∧
      (c.cfg.write = .writeBack → ∀ a < s.memCapacity,
        (t.mem.read a = s.mem.read a ∨ t.mem.read a = s.dataView a) ∧
        ((c.holding (s.baseDisp rs1 imm).toNat).isSome = true → t.mem.read a = s.mem.read a))

/-- A spanning access goes around the cache: a load reads MemoryImage and a store writes it, the cache is left exactly as
it was, stale copies included, so every byte a valid entry holds keeps its data view; the one event is
`span_warning(a, n)` (20_memory R80, R103, R104; D29, log 25). That the warning is an event, and that a spanning access
counts neither a hit nor a miss, are the spec's own choices (D24, log 23; D14, log 15), as are that it is legal and its
range check (D13, log 14; D11, log 12); sums modulo 2^64 are one it takes from general knowledge (10_state R29; D3, log 7,
PRESUMED). -/
def Obligations.SpanningAccessBypassesCache : Prop :=
  ∀ (s : State) (c : Cache) (rd rs1 rs2 : Reg) (imm : BitVec 12), s.mem.wf = true → s.cache = some c →
    (∀ f ∈ loadForms rd rs1 imm, s.bypasses (s.baseDisp rs1 imm) f.2.1 = true →
      (s.baseDisp rs1 imm).toNat + f.2.1 ≤ s.memCapacity →
      ∃ t, exec f.1 s = .next t ∧ t.pc = s.pc + 4 ∧ KeepsMemory s t ∧
        WritesOnly s t rd (loadedValue f.2.2 (s.mem.readBytes (s.baseDisp rs1 imm).toNat f.2.1)) ∧
        t.events = .spanWarning (s.baseDisp rs1 imm) f.2.1 :: s.events) ∧
    ∀ f ∈ storeForms rs1 rs2 imm, s.bypasses (s.baseDisp rs1 imm) f.2 = true →
      (s.baseDisp rs1 imm).toNat + f.2 ≤ s.memCapacity →
      ∃ t, exec f.1 s = .next t ∧ t.pc = s.pc + 4 ∧ WritesNone s t ∧ t.cache = some c ∧ t.draws = s.draws ∧
        t.events = .spanWarning (s.baseDisp rs1 imm) f.2 :: s.events ∧
        (∀ a, t.mem.read a = storedByte s.mem.read (s.baseDisp rs1 imm).toNat f.2 (s.readReg rs2) a) ∧
        ∀ a, (c.holding a).isSome = true → t.dataView a = s.dataView a

/-- A load after a store of the same width to the same place gives the stored low bytes back, with the cache disabled,
enabled or bypassed (20_memory R51, R100, R101; D29, log 25; D13, log 14; D3, log 7, PRESUMED). -/
def Obligations.LoadAfterStore : Prop :=
  ∀ (s t u : State) (rd rs1 rs2 : Reg) (imm : BitVec 12), s.Inv → s.coherent → rd ≠ 0#5 →
    (∀ n, (n = 1 ∧ exec (.sb rs1 rs2 imm) s = .next t ∧ exec (.lbu rd rs1 imm) t = .next u) ∨
        (n = 2 ∧ exec (.sh rs1 rs2 imm) s = .next t ∧ exec (.lhu rd rs1 imm) t = .next u) ∨
        (n = 4 ∧ exec (.sw rs1 rs2 imm) s = .next t ∧ exec (.lwu rd rs1 imm) t = .next u) ∨
        (n = 8 ∧ exec (.sd rs1 rs2 imm) s = .next t ∧ exec (.ld rd rs1 imm) t = .next u) →
      (s.baseDisp rs1 imm).toNat + n ≤ s.memCapacity →
      (u.readReg rd).toNat = (s.readReg rs2).toNat % 2 ^ (8 * n))

/-! ## The cache controller (20_memory.md) -/

/-- An address and its `(offset, index, tag)` determine each other: in a legal cache the block address of its tag and
index is the address less its offset, and every address of that block splits to the same tag and index
(20_memory R70, R72). -/
def Obligations.AddressSplitRoundTrip : Prop :=
  ∀ (c : Cache) (capacity : Nat), c.legal capacity →
    (∀ a < 2 ^ 64, c.offset a < c.cfg.blockSize ∧ c.index a < c.numLines ∧
      c.blockAddr (c.tag a) (c.index a) = a - c.offset a) ∧
    ∀ (t : Word) (i j : Nat), i < c.numLines → j < c.cfg.blockSize →
      c.offset (c.blockAddr t i + j) = j ∧ c.index (c.blockAddr t i + j) = i ∧ c.tag (c.blockAddr t i + j) = t

/-- 20_memory R71: `Lookup(i, t)` finds the slot that is valid and has the tag, or none, and at most one slot can match:
whichever matching slot is named, it is the one found. -/
def Obligations.LookupFindsTheOneMatch : Prop :=
  ∀ (c : Cache) (capacity i k : Nat) (t : Word), c.legal capacity → i < c.numLines →
    (c.lookup i t = some k ↔ k < c.ways ∧ (c.entry i k).valid = true ∧ (c.entry i k).tag = t)

/-- The victim: the least invalid slot if one is invalid; else under FIFO and LRU a slot of smallest timestamp, and under
RANDOM whichever slot the draw names, every slot being possible (20_memory R78; D16, log 17; D17, log 2). -/
def Obligations.VictimRule : Prop :=
  ∀ (c : Cache) (capacity i : Nat), c.legal capacity → i < c.numLines →
    (∀ draw, c.victim i draw < c.ways) ∧
    (∀ k < c.ways, (c.entry i k).valid = false → (∀ l < k, (c.entry i l).valid = true) →
      ∀ draw, c.victim i draw = k) ∧
    ((∀ k < c.ways, (c.entry i k).valid = true) →
      (c.cfg.replacement ≠ .random → ∀ draw, ∀ k < c.ways,
        (c.entry i (c.victim i draw)).timestamp.toNat ≤ (c.entry i k).timestamp.toNat) ∧
      (c.cfg.replacement = .random → ∀ k < c.ways, ∃ draw, c.victim i draw = k))

/-- A fill writes the victim's block back to its reconstructed address and counts it if the victim is valid and dirty, then
copies the aligned block that contains the address from MemoryImage into it, valid, clean, with the address's tag and the
clock's stamp; every other entry and every other byte is as before (20_memory R78, R79). Choices in it: the least invalid
slot is preferred (D16, log 17); write-backs are what fills and `CacheInvalidate` write (D14, log 15); the raw draw the
victim rule is given, `Config.randSlot` of the draw counter, is the model's form of the oracle (D17, log 2, DESIGN
CHOICE), and the stamp is the clock's value before its increment, under every policy (20_memory R77; D15, log 16). -/
def Obligations.FillEffect : Prop :=
  ∀ (y : Hierarchy) (capacity a : Nat), capacityLegal capacity → memoryLegal capacity y.mem →
    y.cache.legal capacity → a < capacity → y.cache.lookup (y.cache.index a) (y.cache.tag a) = none →
    let i := y.cache.index a
    let k := (y.fill a).1
    let z := (y.fill a).2
    let v := y.cache.entry i k
    k = y.cache.victim i (Config.randSlot y.draws) ∧
    (if v.valid = true ∧ v.dirty = true then
      z.cache.writebacks = y.cache.writebacks + 1 ∧
      ∀ b, z.mem.read b =
        if y.cache.blockAddr v.tag i ≤ b ∧ b < y.cache.blockAddr v.tag i + y.cache.cfg.blockSize then
          v.block.getD (b - y.cache.blockAddr v.tag i) 0
        else y.mem.read b
     else z.cache.writebacks = y.cache.writebacks ∧ ∀ b, z.mem.read b = y.mem.read b) ∧
    (z.cache.entry i k).valid = true ∧ (z.cache.entry i k).dirty = false ∧
    (z.cache.entry i k).tag = y.cache.tag a ∧ (z.cache.entry i k).timestamp = y.cache.logicalClock ∧
    (z.cache.entry i k).block = z.mem.readBytes (a - y.cache.offset a) y.cache.cfg.blockSize ∧
    z.cache.logicalClock = y.cache.logicalClock + 1 ∧
    ∀ j l, ¬(j = i ∧ l = k) → z.cache.entry j l = y.cache.entry j l

/-- What the counters count: a cached access that does not span adds one to exactly one of hits and misses, to hits
when a valid entry holds the address; a spanning one adds to neither; after a load that does not span the block is held,
so the same load again hits (20_memory R80, R81, R85 to R87; D14, log 15). -/
def Obligations.CountersCountAccesses : Prop :=
  ∀ (i : Instr) (s t : State) (c : Cache) (rs1 : Reg) (imm : BitVec 12) (n : Nat), s.Inv →
    i.dataAccess = some (rs1, imm, n) → s.cache = some c → (s.baseDisp rs1 imm).toNat + n ≤ s.memCapacity →
    exec i s = .next t →
    ∃ d, t.cache = some d ∧ d.cfg = c.cfg ∧
      (if s.bypasses (s.baseDisp rs1 imm) n = true then d.hits = c.hits ∧ d.misses = c.misses
       else if (c.holding (s.baseDisp rs1 imm).toNat).isSome = true then d.hits = c.hits + 1 ∧ d.misses = c.misses
       else d.hits = c.hits ∧ d.misses = c.misses + 1) ∧
      (s.bypasses (s.baseDisp rs1 imm) n = false → i.dest.isSome = true →
        (d.holding (s.baseDisp rs1 imm).toNat).isSome = true)

/-- A hit stamps the entry it finds under LRU and nothing under FIFO and RANDOM; it changes no other entry, and it counts
one hit (20_memory R77, R87; D15, log 16; D14, log 15). -/
def Obligations.HitStampsUnderLruOnly : Prop :=
  ∀ (y : Hierarchy) (capacity i k : Nat), y.cache.legal capacity → i < y.cache.numLines → k < y.cache.ways →
    let d := (y.hit i k).cache
    d.hits = y.cache.hits + 1 ∧ d.misses = y.cache.misses ∧ d.writebacks = y.cache.writebacks ∧
    (∀ j l, ¬(j = i ∧ l = k) → d.entry j l = y.cache.entry j l) ∧
    (y.cache.cfg.replacement = .lru →
      d.entry i k = { y.cache.entry i k with timestamp := y.cache.logicalClock } ∧
      d.logicalClock = y.cache.logicalClock + 1) ∧
    (y.cache.cfg.replacement ≠ .lru →
      d.entry i k = y.cache.entry i k ∧ d.logicalClock = y.cache.logicalClock)

/-- `CacheInvalidate` of a legal, coherent cache makes MemoryImage the data view everywhere, leaves every entry invalid
and clean, counts one write-back for each valid dirty entry, and keeps the data view, the hit and miss counters, the
clock and the configuration; with the cache disabled it does nothing (20_memory R92, R100, R107; D18, log 18). -/
def Obligations.InvalidateWritesBackEverything : Prop :=
  (∀ s : State, s.cache = none → s.cacheInvalidate = s) ∧
  ∀ (s : State) (c : Cache), s.Inv → s.cache = some c → s.coherent →
    ∃ d, s.cacheInvalidate.cache = some d ∧ d.cfg = c.cfg ∧ d.hits = c.hits ∧ d.misses = c.misses ∧
      d.logicalClock = c.logicalClock ∧
      d.writebacks = c.writebacks + BitVec.ofNat 64 (c.lines.flatten.countP fun e => e.valid && e.dirty) ∧
      (∀ i k, (d.entry i k).valid = false) ∧ (∀ i < c.numLines, ∀ k < c.ways, (d.entry i k).dirty = false) ∧
      (∀ a < s.memCapacity, s.cacheInvalidate.mem.read a = s.dataView a ∧
        s.cacheInvalidate.dataView a = s.dataView a) ∧
      (∀ r, s.cacheInvalidate.readReg r = s.readReg r) ∧ s.cacheInvalidate.pc = s.pc

/-- `CacheDump` lists exactly the valid entries, each with its set, tag and dirty bit (20_memory R94), sets ascending, the
spec's own choice (D16, log 17). That it answers the empty list when the cache is disabled is DEDUCED: there is no valid
entry then (log 27). -/
def Obligations.DumpListsValidEntries : Prop :=
  (∀ s : State, s.cache = none → s.cacheDump = []) ∧
  ∀ (s : State) (c : Cache), s.Inv → s.cache = some c →
    (∀ l, l ∈ s.cacheDump ↔ ∃ i < c.numLines, ∃ k < c.ways, (c.entry i k).valid = true ∧
      l = { index := i, tag := (c.entry i k).tag, dirty := (c.entry i k).dirty }) ∧
    s.cacheDump.Pairwise fun l m => l.index ≤ m.index

/-- `CacheEnable` with a legal configuration leaves an empty cache with zero counters that keeps
`num_lines * ways * block_size = size`; with an illegal one it leaves the cache disabled; neither it nor `CacheDisable`
writes a byte of MemoryImage, so dirty data is dropped (10_state R36; 20_memory R73, R75, R76; D19, log 19; D20,
log 20). -/
def Obligations.EnableAndDisable : Prop :=
  (∀ (s : State) (g : CacheCfg), cfgLegal s.memCapacity g = true →
    ∃ c, (s.cacheEnable g).cache = some c ∧ c.cfg = g ∧ c.numLines * c.ways * g.blockSize = g.size ∧
      c.hits = 0 ∧ c.misses = 0 ∧ c.writebacks = 0 ∧ c.logicalClock = 0 ∧ c.legal s.memCapacity ∧
      (∀ i < c.numLines, ∀ k < c.ways, (c.entry i k).valid = false ∧ (c.entry i k).dirty = false) ∧
      (s.cacheEnable g).mem = s.mem ∧ (∀ a, (s.cacheEnable g).dataView a = s.mem.read a)) ∧
  (∀ (s : State) (g : CacheCfg), cfgLegal s.memCapacity g = false →
    (s.cacheEnable g).cache = none ∧ (s.cacheEnable g).mem = s.mem) ∧
  ∀ s : State, s.cacheDisable.cache = none ∧ s.cacheDisable.mem = s.mem ∧
    ∀ a, s.cacheDisable.dataView a = s.mem.read a

/-- Under WRITE_THROUGH MemoryImage always holds the latest store to every byte: in a legal, coherent cache it is the
data view, and it stays so after every instruction whose data access does not span (20_memory R101). -/
def Obligations.WriteThroughMemoryIsCurrent : Prop :=
  ∀ (s : State) (c : Cache), s.Inv → s.coherent → s.cache = some c → c.cfg.write = .writeThrough →
    (∀ a < s.memCapacity, s.mem.read a = s.dataView a) ∧
    ∀ (i : Instr) (t : State),
      (∀ rs1 imm n, i.dataAccess = some (rs1, imm, n) → s.bypasses (s.baseDisp rs1 imm) n = false) →
      exec i s = .next t → ∀ a < s.memCapacity, t.mem.read a = t.dataView a

/-- With the cache enabled and no spanning access the cache is transparent: the instruction leaves the same registers,
pc, run state, fault record and events as on the same block with the cache disabled, and the same data view
(20_memory R100, R101), a fault being precise and its range check before the cache (D10, log 11; D11, log 12). -/
def Obligations.CacheIsTransparent : Prop :=
  ∀ (i : Instr) (s u : State), s.Inv → u.Inv → s.coherent → Uncached s u →
    (∀ rs1 imm n, i.dataAccess = some (rs1, imm, n) → s.bypasses (s.baseDisp rs1 imm) n = false) →
    ∃ s' u', exec i s = .next s' ∧ exec i u = .next u' ∧ s'.coherent ∧ Uncached s' u'

/-! ## Reset, load, run, and the invariant (10_state.md, 70_reset_and_hazards.md) -/

/-- `Reset` of any block: every register and the pc 0, Running, no fault record, every byte 0; an enabled cache stays
enabled with its configuration, empty and with zero counters, and a disabled one stays disabled (10_state R43; 70 R261,
R263). That the bytes are 0, and what becomes of the cache, are the spec's own choice (D21, log 21, log 5). -/
def Obligations.ResetRestoresResetValues : Prop :=
  ∀ s : State, (∀ r, s.resetTransaction.readReg r = 0) ∧ s.resetTransaction.pc = 0 ∧
    s.resetTransaction.runState = .running ∧ s.resetTransaction.fault = none ∧
    (∀ a, s.resetTransaction.mem.read a = 0) ∧ s.resetTransaction.memCapacity = s.memCapacity ∧
    (s.cache = none → s.resetTransaction.cache = none) ∧
    (s.Inv → ∀ c, s.cache = some c → ∃ d, s.resetTransaction.cache = some d ∧ d.cfg = c.cfg ∧ d.hits = 0 ∧
      d.misses = 0 ∧ d.writebacks = 0 ∧ d.logicalClock = 0 ∧
      ∀ i < d.numLines, ∀ k < d.ways, (d.entry i k).valid = false ∧ (d.entry i k).dirty = false)

/-- `Load(image)` of an image that fits, no address twice: MemoryImage holds exactly the image's bytes and zeros
elsewhere, and the rest is the Reset state; one that does not fit leaves the Reset state (70 R262). What Load does is the
spec's own choice, the zeros included (D21, log 21, log 5). -/
def Obligations.LoadWritesExactlyTheImage : Prop :=
  ∀ (s : State) (image : List Host.Cell), (image.map fun cell => cell.1).Nodup →
    ((∀ cell ∈ image, cell.1 < s.memCapacity) →
      (∀ cell ∈ image, (s.load image).mem.read cell.1 = cell.2) ∧
      (∀ a, (∀ cell ∈ image, cell.1 ≠ a) → (s.load image).mem.read a = 0)) ∧
    ((∃ cell ∈ image, s.memCapacity ≤ cell.1) → s.load image = s.resetTransaction) ∧
    (s.load image).pc = 0 ∧ (s.load image).runState = .running ∧ (s.load image).fault = none ∧
    (∀ r, (s.load image).readReg r = 0) ∧ (s.load image).cache = s.resetTransaction.cache

/-- The entry point: after `Load` of a text segment the first step runs its first word, fetched at address 0; after
`Load` of an empty image the first step halts (70 R264, R266). That unwritten bytes are 0 is the spec's own choice (D21,
log 5), and so is that the fetch reads MemoryImage (20_memory R60; D12, log 13). -/
def Obligations.FirstStepFetchesAtZero : Prop :=
  (∀ (s : State) (w : InstrWord) (ws : List InstrWord) (i : Instr), 4 + 4 * ws.length ≤ s.memCapacity →
    decode w = .ok i → step (s.load (textImage 0 (w :: ws))) = exec i (s.load (textImage 0 (w :: ws)))) ∧
  ∀ s : State, 4 ≤ s.memCapacity → ∃ t, step (s.load []) = .next t ∧ t.runState = .halted ∧ t.pc = 0

/-- `Run` under fuel repeats `Step` while Running: fuel adds up, and once the run has ended more fuel changes nothing
(60_exceptions R231, R232, R244; 70 R274). Fuel is the model's DESIGN CHOICE (log 32); that a step after the end is a no-op
is the spec's own (D9, log 11). -/
def Obligations.RunRepeatsStep : Prop :=
  (∀ (m n : Nat) (s t : State), runFuel m s = .next t → runFuel (m + n) s = runFuel n t) ∧
  (∀ (n : Nat) (s : State), s.runState = .running → ∃ t, step s = .next t ∧ runFuel (n + 1) s = runFuel n t) ∧
  ∀ (m n : Nat) (s t : State), runFuel m s = .next t → t.runState ≠ .running → runFuel (m + n) s = .next t

/-- The DebugController only observes: its step is the block's own step and keeps its breakpoints and metadata; a `call`
puts one frame, without a line, on the stack, a `ret` pops one, `halted` takes the root frame off and no other, a step
without an event leaves the depth, and `show_stack` answers the frames top to bottom, or the message exactly when there
are none (60_exceptions R246, R247). Not the rules' word are: that a new frame has no line, the model's DESIGN CHOICE
(N22; log 27); that every `call` pushes and every `ret` pops, whatever the registers, and that a pop of an empty stack does
nothing, the spec's own choice (D26, log 27); that a `ret` with nothing pushed pops the root frame, and that `halted` takes
the root frame from under others, both DEDUCED (log 33). -/
def Obligations.ObserverFollowsStep : Prop :=
  ∀ (d : DebugController) (s t : State), step s = .next t →
    ∃ d', d.step s = .next (d', t) ∧
      (d'.breakpoints = d.breakpoints ∧ d'.labels = d.labels ∧ d'.lines = d.lines) ∧
      (∀ a, t.events = .call a :: s.events →
        d'.callStack.length = d.callStack.length + 1 ∧ d'.root.isSome = d.root.isSome ∧
        ∃ f, d'.callStack.head? = some f ∧ f.line = none) ∧
      (t.events = .ret :: s.events → d'.callStack.length = d.callStack.length - 1) ∧
      (∀ a, t.events = .halted a :: s.events → d'.root = none ∧ d'.pushed.length = d.pushed.length) ∧
      (t.events = s.events → d'.callStack.length = d.callStack.length) ∧
      ((d'.showStack = .executionComplete ↔ d'.callStack = []) ∧
        ∀ fs, d'.showStack = .frames fs → fs = d'.callStack)

/-- The invariant holds at reset, for every legal capacity: it rests on no one capacity (10_state R43; 00_scope R7).
That memory is zero then is the spec's own choice (D21, log 5), and so is which capacities are legal (D1, log 1). -/
def Obligations.ResetMeetsInvariant : Prop :=
  ∀ capacity, capacityLegal capacity → ({ State.reset with memCapacity := capacity } : State).Inv

/-- The invariant is kept by every step, from every state that meets it: the capacity stays legal, MemoryImage keeps its
canonical form and its range, the cache its geometry, its distinct tags, its clean entries under WRITE_THROUGH and its
blocks in memory, and there is a fault record, with the pc's own address, exactly in state Faulted (10_state R33, R34,
R36, R37; 20_memory R73; 60_exceptions R239). Which capacities and configurations are legal is the spec's own choice (D1,
log 1; D19, log 19), and so is that a fault leaves the pc (D10, log 11). -/
def Obligations.StepKeepsInvariant : Prop :=
  ∀ s t : State, s.Inv → step s = .next t → t.Inv

/-- Every transaction of the host port keeps the invariant, the configurations and images it brings being arbitrary
(00_scope R9; 20_memory R75, R76, R92; 70 R261, R262). What they do to the cache and to memory is in part the spec's own
choice (D18 to D21; logs 18 to 21); that they are functions beside the step is the model's (log 30). -/
def Obligations.TransactionsKeepInvariant : Prop :=
  ∀ (x : Transaction) (s t : State), s.Inv → transact x s = .next t → t.Inv

end Statements
end

