-- ==== Sys2Proof/Laws/Memory.lean ====
section
/-! SUPPORT. MemoryImage: every operation keeps the canonical form, a written byte reads back, other bytes stay, and
the little-endian assembly of bytes (20_memory R50 to R53). -/
namespace Sys2Proof.Machine

/-! ## The canonical form -/

theorem wfFrom_cons {lo a : Nat} {b : Byte} {m : Memory} :
    Memory.wfFrom lo ((a, b) :: m) = true ↔ lo ≤ a ∧ b ≠ Memory.unlisted ∧ Memory.wfFrom (a + 1) m = true := by
  simp [Memory.wfFrom, and_assoc]

/-- A canonical memory from `lo` on is canonical from anything lower. -/
theorem wfFrom_mono {lo lo' : Nat} (h : lo' ≤ lo) {m : Memory} (hm : Memory.wfFrom lo m = true) :
    Memory.wfFrom lo' m = true := by
  cases m with
  | nil => rfl
  | cons c m =>
    obtain ⟨h1, h2⟩ := wfFrom_cons.1 hm
    exact wfFrom_cons.2 ⟨by omega, h2⟩

/-- Below its first address a canonical memory lists nothing. -/
theorem read_below {lo a : Nat} (h : a < lo) {m : Memory} (hm : Memory.wfFrom lo m = true) :
    m.read a = Memory.unlisted := by
  induction m generalizing lo with
  | nil => rfl
  | cons c m ih =>
    obtain ⟨h1, -, h3⟩ := wfFrom_cons.1 hm
    simp only [Memory.read]
    rw [if_neg (by omega)]
    exact ih (by omega) h3

theorem wfFrom_write {lo a : Nat} (h : lo ≤ a) (v : Byte) {m : Memory} (hm : Memory.wfFrom lo m = true) :
    Memory.wfFrom lo (m.write a v) = true := by
  induction m generalizing lo with
  | nil =>
    unfold Memory.write
    split
    · rfl
    · exact wfFrom_cons.2 ⟨h, ‹_›, rfl⟩
  | cons c m ih =>
    obtain ⟨h1, h2, h3⟩ := wfFrom_cons.1 hm
    unfold Memory.write
    split
    · split
      · exact hm
      · exact wfFrom_cons.2 ⟨h, ‹_›, wfFrom_cons.2 ⟨by omega, h2, h3⟩⟩
    · split
      · split
        · exact wfFrom_mono (by omega) h3
        · subst a
          exact wfFrom_cons.2 ⟨h, ‹_›, h3⟩
      · exact wfFrom_cons.2 ⟨h1, h2, ih (by omega) h3⟩

/-- A byte write keeps the canonical form. -/
theorem wf_write (a : Nat) (v : Byte) {m : Memory} (hm : m.wf = true) : (m.write a v).wf = true :=
  wfFrom_write (Nat.zero_le a) v hm

/-- A block write keeps the canonical form. -/
theorem wf_writeBytes (bs : List Byte) (a : Nat) {m : Memory} (hm : m.wf = true) : (m.writeBytes a bs).wf = true := by
  induction bs generalizing a m with
  | nil => exact hm
  | cons b bs ih => exact ih (a + 1) (wf_write a b hm)

/-- `RawWrite` keeps the canonical form. -/
theorem wf_rawWrite (a n : Nat) (v : Word) {m : Memory} (hm : m.wf = true) : (m.rawWrite a n v).wf = true :=
  wf_writeBytes _ a hm

/-! ## Read after write -/

theorem read_write_other (m : Memory) {a a' : Nat} (h : a' ≠ a) (v : Byte) : (m.write a v).read a' = m.read a' := by
  induction m with
  | nil =>
    unfold Memory.write
    split
    · rfl
    · simp [Memory.read, Ne.symm h]
  | cons c m ih =>
    unfold Memory.write
    split
    · split
      · rfl
      · simp [Memory.read, Ne.symm h]
    · split
      · subst a
        split <;> simp [Memory.read, Ne.symm h]
      · simp only [Memory.read, ih]

theorem read_write_same {m : Memory} {lo : Nat} (hm : Memory.wfFrom lo m = true) (a : Nat) (v : Byte) :
    (m.write a v).read a = v := by
  induction m generalizing lo with
  | nil =>
    unfold Memory.write
    split
    · simp [Memory.read, *]
    · simp [Memory.read]
  | cons c m ih =>
    obtain ⟨-, -, h3⟩ := wfFrom_cons.1 hm
    unfold Memory.write
    split
    · split
      · subst v
        have := read_below (a := a) (lo := c.1 + 1) (by omega) h3
        simp only [Memory.read, this]
        rw [if_neg (by omega)]
      · simp [Memory.read]
    · split
      · subst a
        split
        · subst v
          exact read_below (by omega) h3
        · simp [Memory.read]
      · simp only [Memory.read]
        rw [if_neg (by omega)]
        exact ih h3

/-- Both cases of a byte read after a byte write. -/
theorem read_write {m : Memory} (hm : m.wf = true) (a a' : Nat) (v : Byte) :
    (m.write a v).read a' = if a' = a then v else m.read a' := by
  split
  · subst a'
    exact read_write_same hm a v
  · exact read_write_other m ‹_› v

theorem read_writeBytes_outside (bs : List Byte) (m : Memory) (a a' : Nat) (h : a' < a ∨ a + bs.length ≤ a') :
    (m.writeBytes a bs).read a' = m.read a' := by
  induction bs generalizing m a with
  | nil => rfl
  | cons b bs ih =>
    simp only [List.length_cons] at h
    simp only [Memory.writeBytes]
    rw [ih _ _ (by omega), read_write_other m (by omega)]

theorem read_writeBytes_inside (bs : List Byte) {m : Memory} (hm : m.wf = true) (a j : Nat) (h : j < bs.length) :
    (m.writeBytes a bs).read (a + j) = bs[j] := by
  induction bs generalizing m a j with
  | nil => simp at h
  | cons b bs ih =>
    simp only [Memory.writeBytes]
    cases j with
    | zero =>
      rw [read_writeBytes_outside _ _ _ _ (by omega)]
      simpa using read_write_same hm a b
    | succ j =>
      have := ih (wf_write a b hm) (a + 1) j (by simpa using h)
      simpa [Nat.add_assoc, Nat.add_comm 1 j] using this

/-- Both cases of a byte read after a block write. -/
theorem read_writeBytes {m : Memory} (hm : m.wf = true) (a a' : Nat) (bs : List Byte) :
    (m.writeBytes a bs).read a' = if a ≤ a' ∧ a' < a + bs.length then bs.getD (a' - a) 0 else m.read a' := by
  split
  · rename_i h
    have := read_writeBytes_inside bs hm a (a' - a) (by omega)
    rw [Nat.add_sub_cancel' h.1] at this
    rw [this, List.getD_eq_getElem]
  · exact read_writeBytes_outside _ _ _ _ (by omega)

/-! ## Memories that read alike are equal -/

theorem wfFrom_ext {lo : Nat} {m m' : Memory} (hm : Memory.wfFrom lo m = true) (hm' : Memory.wfFrom lo m' = true)
    (h : ∀ a, m.read a = m'.read a) : m = m' := by
  induction m generalizing lo m' with
  | nil =>
    cases m' with
    | nil => rfl
    | cons c m' =>
      obtain ⟨-, h2, -⟩ := wfFrom_cons.1 hm'
      exact absurd (by simpa [Memory.read] using (h c.1).symm) h2
  | cons c m ih =>
    obtain ⟨k, b⟩ := c
    obtain ⟨h1, h2, h3⟩ := wfFrom_cons.1 hm
    cases m' with
    | nil => exact absurd (by simpa [Memory.read] using h k) h2
    | cons c' m' =>
      obtain ⟨k', b'⟩ := c'
      obtain ⟨h1', h2', h3'⟩ := wfFrom_cons.1 hm'
      have hk : k = k' := by
        rcases Nat.lt_trichotomy k k' with hl | he | hl
        · have := h k
          simp only [Memory.read, if_true] at this
          rw [if_neg (by omega), read_below (by omega) h3'] at this
          exact absurd this h2
        · exact he
        · have := h k'
          simp only [Memory.read, if_true] at this
          rw [if_neg (by omega), read_below (by omega) h3] at this
          exact absurd this.symm h2'
      subst hk
      have hb : b = b' := by simpa [Memory.read] using h k
      subst hb
      congr 1
      refine ih h3 h3' fun a => ?_
      by_cases ha : k = a
      · subst ha
        rw [read_below (by omega) h3, read_below (by omega) h3']
      · simpa [Memory.read, ha] using h a

/-- Canonical memories that read alike are the same list. -/
theorem wf_ext {m m' : Memory} (hm : m.wf = true) (hm' : m'.wf = true) (h : ∀ a, m.read a = m'.read a) : m = m' :=
  wfFrom_ext hm hm' h

/-! ## Cells stay in range -/

theorem mem_write {m : Memory} {a : Nat} {v : Byte} {c : Host.Cell} (h : c ∈ m.write a v) : c.1 = a ∨ c ∈ m := by
  induction m with
  | nil =>
    unfold Memory.write at h
    split at h <;> simp_all
  | cons d m ih =>
    unfold Memory.write at h
    split at h
    · split at h
      · exact .inr h
      · rcases List.mem_cons.1 h with h | h
        · simp [h]
        · exact .inr h
    · split at h
      · split at h
        · exact .inr (List.mem_cons_of_mem _ h)
        · rcases List.mem_cons.1 h with h | h
          · simp [h]
          · exact .inr (List.mem_cons_of_mem _ h)
      · rcases List.mem_cons.1 h with h | h
        · simp [h]
        · rcases ih h with h | h <;> simp [h]

theorem writeBytes_below (bs : List Byte) {m : Memory} {a cap : Nat} (hm : ∀ c ∈ m, c.1 < cap)
    (h : a + bs.length ≤ cap) : ∀ c ∈ m.writeBytes a bs, c.1 < cap := by
  induction bs generalizing m a with
  | nil => exact hm
  | cons b bs ih =>
    simp only [List.length_cons] at h
    refine ih (fun c hc => ?_) (by omega)
    rcases mem_write hc with hc | hc
    · omega
    · exact hm c hc

/-! ## Bytes and words -/

@[simp] theorem readBytes_length (m : Memory) (a n : Nat) : (m.readBytes a n).length = n := by
  simp [Memory.readBytes]

@[simp] theorem readBytes_getElem (m : Memory) (a n j : Nat) (h : j < (m.readBytes a n).length) :
    (m.readBytes a n)[j] = m.read (a + j) := by
  simp [Memory.readBytes]

@[simp] theorem leBytes_length (n : Nat) (v : Word) : (leBytes n v).length = n := by simp [leBytes]

@[simp] theorem leBytes_getElem (n : Nat) (v : Word) (j : Nat) (h : j < (leBytes n v).length) :
    (leBytes n v)[j] = v.extractLsb' (8 * j) 8 := by
  simp [leBytes]

/-- Bit `i` of the value of at most eight bytes is bit `i mod 8` of byte `i / 8`. -/
theorem leWord_getLsbD (bs : List Byte) (hl : bs.length ≤ 8) (i : Nat) :
    (leWord bs).getLsbD i = (bs.getD (i / 8) 0).getLsbD (i % 8) := by
  induction bs generalizing i with
  | nil => simp [leWord]
  | cons b bs ih =>
    simp only [List.length_cons] at hl
    simp only [leWord, BitVec.getLsbD_or, BitVec.getLsbD_shiftLeft, BitVec.getLsbD_setWidth]
    by_cases h8 : i < 8
    · have : i / 8 = 0 := by omega
      have h2 : i % 8 = i := by omega
      have h3 : i < 64 := by omega
      simp [h8, this, h2, h3]
    · obtain ⟨k, hk⟩ : ∃ k, i / 8 = k + 1 := ⟨i / 8 - 1, by omega⟩
      have h1 : (i - 8) / 8 = k := by omega
      have h2 : (i - 8) % 8 = i % 8 := by omega
      have h4 : b.getLsbD i = false := BitVec.getLsbD_of_ge _ _ (by omega)
      simp only [h8, decide_false, Bool.not_false, hk, List.getD_cons_succ, h4, Bool.and_false,
        Bool.or_false, ih (by omega), h1, h2]
      by_cases h64 : i < 64
      · simp [h64]
      · have : bs.length ≤ k := by omega
        simp [h64, List.getElem?_eq_none this]

/-- The value of at most eight bytes as a number: base 256, the first byte least significant. -/
theorem leWord_toNat_cons (b : Byte) (bs : List Byte) (hl : bs.length ≤ 7) :
    (leWord (b :: bs)).toNat = b.toNat + 256 * (leWord bs).toNat := by
  have key : ∀ (cs : List Byte), cs.length ≤ 8 → (leWord cs).toNat < 256 ^ cs.length := by
    intro cs hc
    have hlt : (leWord cs).toNat < 2 ^ (8 * cs.length) := by
      by_contra hcon
      obtain ⟨i, hi, hb⟩ := Nat.exists_ge_and_testBit_of_ge_two_pow (Nat.le_of_not_lt hcon)
      have := leWord_getLsbD cs hc i
      rw [BitVec.getLsbD, hb] at this
      simp [List.getElem?_eq_none (show cs.length ≤ i / 8 by omega)] at this
    rwa [show 2 ^ (8 * cs.length) = 256 ^ cs.length by rw [Nat.pow_mul]] at hlt
  have h1 := key bs (by omega)
  have h2 : 256 ^ bs.length ≤ 256 ^ 7 := Nat.pow_le_pow_right (by omega) hl
  simp only [leWord, BitVec.toNat_or, BitVec.toNat_shiftLeft, BitVec.toNat_setWidth]
  have hb := b.isLt
  rw [Nat.mod_eq_of_lt (a := b.toNat) (by omega), Nat.shiftLeft_eq, Nat.mod_eq_of_lt (by omega), Nat.mul_comm _ (2 ^ 8),
    ← Nat.two_pow_add_eq_or_of_lt (by omega)]
  omega

/-- Reading back what `RawWrite` stored gives the low `8n` bits. -/
theorem rawRead_rawWrite {m : Memory} (hm : m.wf = true) (a n : Nat) (v : Word) :
    (m.rawWrite a n v).readBytes a n = leBytes n v := by
  apply List.ext_getElem
  · simp
  · intro j h1 h2
    rw [readBytes_getElem]
    exact read_writeBytes_inside _ hm a j h2

end Sys2Proof.Machine
end

