-- ==== Sys2Proof/Laws/Cache.lean ====
section
/-! SUPPORT. The cache controller seen slot by slot: what one entry's update changes, what lookup, victim, fill, hit and
miss do, and that each keeps the cache legal and its data view (10_state R36, R37; 20_memory R70 to R87, R100). -/
namespace Sys2Proof.Machine

/-! ## Fields after updates -/

@[simp] theorem updateEntry_cfg (c : Cache) (i k : Nat) (f : CacheEntry → CacheEntry) :
    (c.updateEntry i k f).cfg = c.cfg := rfl
@[simp] theorem updateEntry_numLines (c : Cache) (i k : Nat) (f : CacheEntry → CacheEntry) :
    (c.updateEntry i k f).numLines = c.numLines := rfl
@[simp] theorem updateEntry_ways (c : Cache) (i k : Nat) (f : CacheEntry → CacheEntry) :
    (c.updateEntry i k f).ways = c.ways := rfl
@[simp] theorem updateEntry_hits (c : Cache) (i k : Nat) (f : CacheEntry → CacheEntry) :
    (c.updateEntry i k f).hits = c.hits := rfl
@[simp] theorem updateEntry_misses (c : Cache) (i k : Nat) (f : CacheEntry → CacheEntry) :
    (c.updateEntry i k f).misses = c.misses := rfl
@[simp] theorem updateEntry_writebacks (c : Cache) (i k : Nat) (f : CacheEntry → CacheEntry) :
    (c.updateEntry i k f).writebacks = c.writebacks := rfl
@[simp] theorem updateEntry_logicalClock (c : Cache) (i k : Nat) (f : CacheEntry → CacheEntry) :
    (c.updateEntry i k f).logicalClock = c.logicalClock := rfl

@[simp] theorem stamp_cfg (c : Cache) (i k : Nat) : (c.stamp i k).cfg = c.cfg := rfl
@[simp] theorem stamp_numLines (c : Cache) (i k : Nat) : (c.stamp i k).numLines = c.numLines := rfl
@[simp] theorem stamp_ways (c : Cache) (i k : Nat) : (c.stamp i k).ways = c.ways := rfl
@[simp] theorem stamp_hits (c : Cache) (i k : Nat) : (c.stamp i k).hits = c.hits := rfl
@[simp] theorem stamp_misses (c : Cache) (i k : Nat) : (c.stamp i k).misses = c.misses := rfl
@[simp] theorem stamp_writebacks (c : Cache) (i k : Nat) : (c.stamp i k).writebacks = c.writebacks := rfl
@[simp] theorem stamp_logicalClock (c : Cache) (i k : Nat) : (c.stamp i k).logicalClock = c.logicalClock + 1 := rfl

@[simp] theorem touch_cfg (c : Cache) (i k : Nat) : (c.touch i k).cfg = c.cfg := by unfold Cache.touch; split <;> rfl
@[simp] theorem touch_numLines (c : Cache) (i k : Nat) : (c.touch i k).numLines = c.numLines := by
  unfold Cache.touch; split <;> rfl
@[simp] theorem touch_ways (c : Cache) (i k : Nat) : (c.touch i k).ways = c.ways := by unfold Cache.touch; split <;> rfl
@[simp] theorem touch_hits (c : Cache) (i k : Nat) : (c.touch i k).hits = c.hits := by unfold Cache.touch; split <;> rfl
@[simp] theorem touch_misses (c : Cache) (i k : Nat) : (c.touch i k).misses = c.misses := by
  unfold Cache.touch; split <;> rfl
@[simp] theorem touch_writebacks (c : Cache) (i k : Nat) : (c.touch i k).writebacks = c.writebacks := by
  unfold Cache.touch; split <;> rfl

/-! ## One slot -/

theorem set_updateEntry (c : Cache) (i k j : Nat) (f : CacheEntry → CacheEntry) :
    (c.updateEntry i k f).set j = if j = i then (c.set i).modify k f else c.set j := by
  simp only [Cache.updateEntry, Cache.set, List.getD_eq_getElem?_getD, List.getElem?_modify]
  split
  · subst j
    cases h : c.lines[i]? with
    | none => simp
    | some es => simp
  · rename_i h
    cases c.lines[j]? <;> simp [Ne.symm h]

theorem entry_of_lt {c : Cache} {i k : Nat} (h : k < (c.set i).length) : c.entry i k = (c.set i)[k] := by
  simp [Cache.entry, h]

theorem set_length_updateEntry (c : Cache) (i k j : Nat) (f : CacheEntry → CacheEntry) :
    ((c.updateEntry i k f).set j).length = (c.set j).length := by
  rw [set_updateEntry]
  split
  · subst j
    simp
  · rfl

/-- An update of one slot changes that slot, if it is there, and no other. -/
theorem entry_updateEntry (c : Cache) (i k j l : Nat) (f : CacheEntry → CacheEntry) :
    (c.updateEntry i k f).entry j l =
      if j = i ∧ l = k ∧ k < (c.set i).length then f (c.entry i k) else c.entry j l := by
  unfold Cache.entry
  rw [set_updateEntry]
  by_cases hj : j = i
  · subst j
    simp only [if_true, true_and, List.getD_eq_getElem?_getD, List.getElem?_modify]
    by_cases hl : l = k
    · subst l
      by_cases hk : k < (c.set i).length
      · simp [hk]
      · simp [hk]
    · simp [hl, Ne.symm hl]
  · simp [hj]

theorem set_length_stamp (c : Cache) (i k j : Nat) : ((c.stamp i k).set j).length = (c.set j).length :=
  set_length_updateEntry c i k j _

/-- A stamp changes one slot's timestamp. -/
theorem entry_stamp (c : Cache) (i k j l : Nat) :
    (c.stamp i k).entry j l =
      if j = i ∧ l = k ∧ k < (c.set i).length then { c.entry i k with timestamp := c.logicalClock } else c.entry j l :=
  entry_updateEntry c i k j l _

/-! ## Legality slot by slot -/

/-- The invariants of a cache, slot by slot (10_state R36, R37; 20_memory R73). -/
structure Cache.Slots (c : Cache) (capacity : Nat) : Prop where
  legal    : cfgLegal capacity c.cfg = true
  numLines : c.numLines = cfgNumLines c.cfg
  ways     : c.ways = cfgWays c.cfg
  sets     : c.lines.length = c.numLines
  slots    : ∀ i < c.numLines, (c.set i).length = c.ways
  blocks   : ∀ i < c.numLines, ∀ k < c.ways, (c.entry i k).block.length = c.cfg.blockSize
  distinct : ∀ i < c.numLines, ∀ k < c.ways, ∀ l < c.ways, k ≠ l → (c.entry i k).valid = true →
    (c.entry i l).valid = true → (c.entry i k).tag ≠ (c.entry i l).tag
  clean    : c.cfg.write = .writeThrough → ∀ i < c.numLines, ∀ k < c.ways, (c.entry i k).dirty = false
  inMemory : ∀ i < c.numLines, ∀ k < c.ways, (c.entry i k).valid = true →
    c.blockAddr (c.entry i k).tag i + c.cfg.blockSize ≤ capacity

theorem set_mem_lines {c : Cache} {i : Nat} (h : i < c.lines.length) : c.set i ∈ c.lines := by
  simp [Cache.set, h]

theorem mem_lines {c : Cache} {es : List CacheEntry} (h : es ∈ c.lines) : ∃ i < c.lines.length, es = c.set i := by
  obtain ⟨i, hi, rfl⟩ := List.mem_iff_getElem.1 h
  exact ⟨i, hi, by simp [Cache.set, hi]⟩

theorem mem_set_iff {c : Cache} {i : Nat} {e : CacheEntry} :
    e ∈ c.set i ↔ ∃ k < (c.set i).length, e = c.entry i k := by
  constructor
  · intro h
    obtain ⟨k, hk, rfl⟩ := List.mem_iff_getElem.1 h
    exact ⟨k, hk, (entry_of_lt hk).symm⟩
  · rintro ⟨k, hk, rfl⟩
    rw [entry_of_lt hk]
    exact List.getElem_mem hk

/-- A cache is legal exactly when it is so slot by slot. -/
theorem legal_iff_slots {c : Cache} {capacity : Nat} : c.legal capacity ↔ c.Slots capacity := by
  constructor
  · rintro ⟨⟨h1, h2, h3, h4, h5, h6⟩, h7, h8, h9⟩
    have hs : ∀ i < c.numLines, (c.set i).length = c.ways := fun i hi => h5 _ (set_mem_lines (h4 ▸ hi))
    have he : ∀ i < c.numLines, ∀ k < c.ways, c.entry i k ∈ c.set i := fun i hi k hk =>
      mem_set_iff.2 ⟨k, by rw [hs i hi]; exact hk, rfl⟩
    refine ⟨h1, h2, h3, h4, hs, fun i hi k hk => h6 _ (set_mem_lines (h4 ▸ hi)) _ (he i hi k hk), ?_,
      fun hw i hi k hk => h8 hw _ (set_mem_lines (h4 ▸ hi)) _ (he i hi k hk),
      fun i hi k hk hv => h9 i hi _ (he i hi k hk) hv⟩
    intro i hi k hk l hl hne hv hv'
    have hp := List.pairwise_iff_getElem.1 (h7 _ (set_mem_lines (h4 ▸ hi)))
    have hk' : k < (c.set i).length := by rw [hs i hi]; exact hk
    have hl' : l < (c.set i).length := by rw [hs i hi]; exact hl
    rw [entry_of_lt hk', entry_of_lt hl'] at *
    rcases Nat.lt_or_gt_of_ne hne with h | h
    · exact hp k l hk' hl' h hv hv'
    · exact fun e => hp l k hl' hk' h hv' hv e.symm
  · intro h
    refine ⟨⟨h.legal, h.numLines, h.ways, h.sets, ?_, ?_⟩, ?_, ?_, ?_⟩
    · intro es hes
      obtain ⟨i, hi, rfl⟩ := mem_lines hes
      exact h.slots i (h.sets ▸ hi)
    · intro es hes e he
      obtain ⟨i, hi, rfl⟩ := mem_lines hes
      obtain ⟨k, hk, rfl⟩ := mem_set_iff.1 he
      exact h.blocks i (h.sets ▸ hi) k (h.slots i (h.sets ▸ hi) ▸ hk)
    · intro es hes
      obtain ⟨i, hi, rfl⟩ := mem_lines hes
      have hs := h.slots i (h.sets ▸ hi)
      refine List.pairwise_iff_getElem.2 fun k l hk hl hkl hv hv' => ?_
      rw [← entry_of_lt hk, ← entry_of_lt hl] at *
      exact h.distinct i (h.sets ▸ hi) k (hs ▸ hk) l (hs ▸ hl) (by omega) hv hv'
    · intro hw es hes e he
      obtain ⟨i, hi, rfl⟩ := mem_lines hes
      obtain ⟨k, hk, rfl⟩ := mem_set_iff.1 he
      exact h.clean hw i (h.sets ▸ hi) k (h.slots i (h.sets ▸ hi) ▸ hk)
    · intro i hi e he hv
      obtain ⟨k, hk, rfl⟩ := mem_set_iff.1 he
      exact h.inMemory i hi k (h.slots i hi ▸ hk) hv

/-! ## Geometry (10_state R36, 20_memory R70, R72, R73) -/

theorem cfgLegal_iff {capacity : Nat} {g : CacheCfg} :
    cfgLegal capacity g = true ↔ 1 ≤ g.size ∧ 1 ≤ g.blockSize ∧ g.blockSize ∣ capacity ∧
      (g.associativity = 0 → g.blockSize ∣ g.size) ∧
      (g.associativity ≠ 0 → g.blockSize * g.associativity ∣ g.size) := by
  unfold cfgLegal
  split <;> simp [*, and_assoc]

theorem cfgNumLines_pos {capacity : Nat} {g : CacheCfg} (h : cfgLegal capacity g = true) : 0 < cfgNumLines g := by
  obtain ⟨h1, h2, -, -, h5⟩ := cfgLegal_iff.1 h
  unfold cfgNumLines
  split
  · omega
  · rename_i ha
    exact Nat.div_pos (Nat.le_of_dvd h1 (h5 ha)) (Nat.mul_pos h2 (Nat.pos_of_ne_zero ha))

theorem cfgWays_pos {capacity : Nat} {g : CacheCfg} (h : cfgLegal capacity g = true) : 0 < cfgWays g := by
  obtain ⟨h1, h2, -, h4, -⟩ := cfgLegal_iff.1 h
  unfold cfgWays
  split
  · rename_i ha
    exact Nat.div_pos (Nat.le_of_dvd h1 (h4 ha)) h2
  · omega

namespace Cache.Slots
variable {c : Cache} {capacity : Nat}

theorem numLines_pos (h : c.Slots capacity) : 0 < c.numLines := h.numLines ▸ cfgNumLines_pos h.legal
theorem ways_pos (h : c.Slots capacity) : 0 < c.ways := h.ways ▸ cfgWays_pos h.legal
theorem blockSize_pos (h : c.Slots capacity) : 0 < c.cfg.blockSize := (cfgLegal_iff.1 h.legal).2.1
theorem blockSize_dvd (h : c.Slots capacity) : c.cfg.blockSize ∣ capacity := (cfgLegal_iff.1 h.legal).2.2.1
theorem index_lt (h : c.Slots capacity) (a : Nat) : c.index a < c.numLines := Nat.mod_lt _ h.numLines_pos
theorem offset_lt (h : c.Slots capacity) (a : Nat) : c.offset a < c.cfg.blockSize := Nat.mod_lt _ h.blockSize_pos

end Cache.Slots

theorem tag_toNat (c : Cache) {a : Nat} (ha : a < 2 ^ 64) :
    (c.tag a).toNat = a / (c.cfg.blockSize * c.numLines) := by
  simp only [Cache.tag, BitVec.toNat_ofNat]
  exact Nat.mod_eq_of_lt (Nat.lt_of_le_of_lt (Nat.div_le_self _ _) ha)

/-- The block address of an address's own tag and index is where its block starts (20_memory R72). -/
theorem blockAddr_tag_index (c : Cache) {a : Nat} (ha : a < 2 ^ 64) :
    c.blockAddr (c.tag a) (c.index a) + c.offset a = a := by
  unfold Cache.blockAddr
  rw [tag_toNat c ha, Cache.index, Cache.offset]
  generalize c.cfg.blockSize = b
  generalize c.numLines = n
  have h1 := Nat.div_add_mod a b
  have h2 := Nat.div_add_mod (a / b) n
  rw [Nat.div_div_eq_div_mul] at h2
  generalize a / (b * n) = t at *
  generalize a / b = q at *
  generalize a % b = r at *
  generalize q % n = m at *
  subst h2
  rw [← h1]
  ring

/-- An address inside the block of tag `t` in set `i` decomposes to them (20_memory R70, R72). -/
theorem split_blockAddr {c : Cache} {capacity : Nat} (h : c.Slots capacity) (t : Word) {i j : Nat}
    (hi : i < c.numLines) (hj : j < c.cfg.blockSize) :
    c.offset (c.blockAddr t i + j) = j ∧ c.index (c.blockAddr t i + j) = i ∧ c.tag (c.blockAddr t i + j) = t := by
  have hb := h.blockSize_pos
  have hn := h.numLines_pos
  unfold Cache.blockAddr Cache.offset Cache.index Cache.tag
  generalize c.cfg.blockSize = b at *
  generalize c.numLines = n at *
  have e : t.toNat * n * b + i * b + j = j + b * (t.toNat * n + i) := by ring
  have e1 : (t.toNat * n * b + i * b + j) / b = t.toNat * n + i := by
    rw [e, Nat.add_mul_div_left _ _ hb, Nat.div_eq_of_lt hj, Nat.zero_add]
  refine ⟨?_, ?_, ?_⟩
  · rw [e, Nat.add_mul_mod_self_left, Nat.mod_eq_of_lt hj]
  · rw [e1, Nat.add_comm, Nat.add_mul_mod_self_right, Nat.mod_eq_of_lt hi]
  · rw [← Nat.div_div_eq_div_mul, e1, Nat.add_comm, Nat.add_mul_div_right _ _ hn, Nat.div_eq_of_lt hi, Nat.zero_add]
    simp

/-- The aligned block of an address in memory lies wholly in memory (20_memory R73). -/
theorem block_in_memory {c : Cache} {capacity : Nat} (h : c.Slots capacity) {a : Nat} (ha : a < capacity) :
    a - c.offset a + c.cfg.blockSize ≤ capacity := by
  have hb := h.blockSize_pos
  obtain ⟨q, hq⟩ := h.blockSize_dvd
  unfold Cache.offset
  generalize c.cfg.blockSize = b at *
  subst hq
  have h1 := Nat.div_add_mod a b
  have h2 : a / b < q := Nat.div_lt_of_lt_mul ha
  have h3 : b * (a / b) + b ≤ b * q := by
    rw [← Nat.mul_succ]
    exact Nat.mul_le_mul_left b h2
  omega

/-! ## Lookup and victim (20_memory R71, R78) -/

theorem findIdx?_entry {c : Cache} {i k : Nat} {p : CacheEntry → Bool} (h : (c.set i).findIdx? p = some k) :
    k < (c.set i).length ∧ p (c.entry i k) = true := by
  obtain ⟨hk, hp, -⟩ := List.findIdx?_eq_some_iff_getElem.1 h
  exact ⟨hk, by rwa [entry_of_lt hk]⟩

/-- A hit is a valid entry with the tag (20_memory R71). -/
theorem lookup_some {c : Cache} {i k : Nat} {t : Word} (h : c.lookup i t = some k) :
    k < (c.set i).length ∧ (c.entry i k).valid = true ∧ (c.entry i k).tag = t := by
  obtain ⟨hk, hp⟩ := findIdx?_entry h
  simp only [Bool.and_eq_true, beq_iff_eq] at hp
  exact ⟨hk, hp.1, hp.2⟩

/-- A miss: no valid entry of the set has the tag (20_memory R71). -/
theorem lookup_none {c : Cache} {i : Nat} {t : Word} :
    c.lookup i t = none ↔ ∀ k < (c.set i).length, (c.entry i k).valid = true → (c.entry i k).tag ≠ t := by
  unfold Cache.lookup
  rw [List.findIdx?_eq_none_iff]
  constructor
  · intro h k hk hv
    have := h _ (mem_set_iff.2 ⟨k, hk, rfl⟩)
    simpa [hv] using this
  · intro h e he
    obtain ⟨k, hk, rfl⟩ := mem_set_iff.1 he
    cases hv : (c.entry i k).valid with
    | false => simp
    | true => simpa using h k hk hv

/-- In a legal cache the slot found is the one slot that matches (10_state R37, 20_memory R71). -/
theorem lookup_eq_some {c : Cache} {capacity : Nat} (h : c.Slots capacity) {i k : Nat} {t : Word} (hi : i < c.numLines)
    (hk : k < c.ways) (hv : (c.entry i k).valid = true) (ht : (c.entry i k).tag = t) : c.lookup i t = some k := by
  have hs := h.slots i hi
  cases hl : c.lookup i t with
  | none => exact absurd ht (lookup_none.1 hl k (hs ▸ hk) hv)
  | some l =>
    obtain ⟨hl1, hl2, hl3⟩ := lookup_some hl
    by_contra hne
    have : k ≠ l := fun e => hne (by rw [e])
    exact h.distinct i hi k hk l (hs ▸ hl1) this hv hl2 (ht.trans hl3.symm)

theorem foldr_min_mem (l : List Nat) (b : Nat) (hl : l ≠ []) (hb : ∀ x ∈ l, x < b) : l.foldr min b ∈ l := by
  induction l with
  | nil => exact absurd rfl hl
  | cons x l ih =>
    simp only [List.foldr_cons]
    by_cases hn : l = []
    · subst hn
      have := hb x (by simp)
      simp [Nat.min_eq_left (Nat.le_of_lt this)]
    · have := ih hn fun y hy => hb y (List.mem_cons_of_mem _ hy)
      rcases Nat.le_total x (l.foldr min b) with h | h
      · simp [Nat.min_eq_left h]
      · simp [Nat.min_eq_right h, this]

theorem foldr_min_le (l : List Nat) (b : Nat) : ∀ x ∈ l, l.foldr min b ≤ x := by
  induction l with
  | nil => simp
  | cons y l ih =>
    intro x hx
    simp only [List.foldr_cons]
    rcases List.mem_cons.1 hx with rfl | hx
    · exact Nat.min_le_left _ _
    · exact Nat.le_trans (Nat.min_le_right _ _) (ih x hx)

/-- The oldest slot is a slot, and no slot has a smaller timestamp (20_memory R78). -/
theorem oldestSlot_spec {es : List CacheEntry} (h : es ≠ []) :
    ∃ hk : oldestSlot es < es.length, ∀ e ∈ es, (es[oldestSlot es]).timestamp.toNat ≤ e.timestamp.toNat := by
  have hm := foldr_min_mem (es.map fun e => e.timestamp.toNat) (2 ^ 64) (by simpa using h)
    (by simp only [List.mem_map]; rintro _ ⟨e, -, rfl⟩; exact e.timestamp.isLt)
  have hlt := List.idxOf_lt_length_of_mem hm
  have hget := List.getElem_idxOf hlt
  simp only [List.length_map] at hlt
  refine ⟨hlt, fun e he => ?_⟩
  have h1 : (es[oldestSlot es]'hlt).timestamp.toNat = (es.map fun e => e.timestamp.toNat).foldr min (2 ^ 64) := by
    rw [List.getElem_map] at hget
    exact hget
  rw [h1]
  exact foldr_min_le _ _ _ (List.mem_map.2 ⟨e, he, rfl⟩)

theorem invalidSlot_none {c : Cache} {i : Nat} :
    c.invalidSlot i = none ↔ ∀ k < (c.set i).length, (c.entry i k).valid = true := by
  unfold Cache.invalidSlot
  rw [List.findIdx?_eq_none_iff]
  constructor
  · intro h k hk
    simpa using h _ (mem_set_iff.2 ⟨k, hk, rfl⟩)
  · intro h e he
    obtain ⟨k, hk, rfl⟩ := mem_set_iff.1 he
    simp [h k hk]

/-- The victim is a slot of the set, whatever the draw (20_memory R78). -/
theorem victim_lt {c : Cache} {capacity : Nat} (h : c.Slots capacity) {i : Nat} (hi : i < c.numLines) (draw : Nat) :
    c.victim i draw < c.ways := by
  have hs := h.slots i hi
  have hne : c.set i ≠ [] := fun e => by
    have := h.ways_pos
    rw [e] at hs
    simp at hs
    omega
  unfold Cache.victim
  split
  · rename_i k hk
    exact hs ▸ (findIdx?_entry hk).1
  · split
    · exact Nat.mod_lt _ h.ways_pos
    · exact hs ▸ (oldestSlot_spec hne).1
    · exact hs ▸ (oldestSlot_spec hne).1

/-! ## Blocks -/

@[simp] theorem blockWrite_length (bs block : List Byte) (off : Nat) : (blockWrite block off bs).length = block.length := by
  induction bs generalizing block off with
  | nil => rfl
  | cons b bs ih => simp [blockWrite, ih]

/-- A byte of a block after bytes are written into it (20_memory R85, R86). -/
theorem blockWrite_getD (bs block : List Byte) (off j : Nat) (h : off + bs.length ≤ block.length) :
    (blockWrite block off bs).getD j 0 = if off ≤ j ∧ j < off + bs.length then bs.getD (j - off) 0 else block.getD j 0 := by
  induction bs generalizing block off with
  | nil => simp [blockWrite]
  | cons b bs ih =>
    simp only [List.length_cons] at h
    simp only [blockWrite]
    rw [ih _ _ (by simp; omega)]
    by_cases h1 : off + 1 ≤ j ∧ j < off + 1 + bs.length
    · obtain ⟨k, hk⟩ : ∃ k, j - off = k + 1 := ⟨j - off - 1, by omega⟩
      have : j - (off + 1) = k := by omega
      rw [if_pos h1, if_pos (by simp; omega), hk, this]
      simp
    · rw [if_neg h1]
      by_cases h2 : j = off
      · subst h2
        rw [if_pos (by simp)]
        simp [show j < block.length by omega]
      · rw [if_neg (by simp only [List.length_cons]; omega)]
        simp [Ne.symm h2]

end Sys2Proof.Machine
end

