-- ==== Sys2Proof/Laws/Hierarchy.lean ====
section
/-! SUPPORT. What fill, hit, miss, a cached read and a cached write do to the hierarchy: each keeps the cache legal and
MemoryImage canonical, and without a spanning store each keeps the data view (10_state R37; 20_memory R79 to R87,
R100). -/
namespace Sys2Proof.Machine

/-! ## Caches that differ in counters and timestamps only -/

/-- Two caches of one geometry whose entries agree in everything but the timestamp. -/
structure Cache.Like (c d : Cache) : Prop where
  cfg      : d.cfg = c.cfg
  numLines : d.numLines = c.numLines
  ways     : d.ways = c.ways
  sets     : d.lines.length = c.lines.length
  slots    : ∀ i, (d.set i).length = (c.set i).length
  valid    : ∀ i k, (d.entry i k).valid = (c.entry i k).valid
  dirty    : ∀ i k, (d.entry i k).dirty = (c.entry i k).dirty
  tag      : ∀ i k, (d.entry i k).tag = (c.entry i k).tag
  block    : ∀ i k, (d.entry i k).block = (c.entry i k).block

theorem like_of_lines {c d : Cache} (h1 : d.cfg = c.cfg) (h2 : d.numLines = c.numLines) (h3 : d.ways = c.ways)
    (h4 : d.lines = c.lines) : c.Like d := by
  have hs : ∀ i, d.set i = c.set i := fun i => by simp [Cache.set, h4]
  have he : ∀ i k, d.entry i k = c.entry i k := fun i k => by simp [Cache.entry, hs]
  exact ⟨h1, h2, h3, by rw [h4], fun i => by rw [hs], fun i k => by rw [he], fun i k => by rw [he],
    fun i k => by rw [he], fun i k => by rw [he]⟩

theorem Cache.Like.trans {c d e : Cache} (h : c.Like d) (g : d.Like e) : c.Like e :=
  ⟨g.cfg.trans h.cfg, g.numLines.trans h.numLines, g.ways.trans h.ways, g.sets.trans h.sets,
    fun i => (g.slots i).trans (h.slots i), fun i k => (g.valid i k).trans (h.valid i k),
    fun i k => (g.dirty i k).trans (h.dirty i k), fun i k => (g.tag i k).trans (h.tag i k),
    fun i k => (g.block i k).trans (h.block i k)⟩

/-- A stamp changes a timestamp and the clock only (20_memory R77). -/
theorem like_stamp (c : Cache) (i k : Nat) : c.Like (c.stamp i k) := by
  refine ⟨rfl, rfl, rfl, by simp [Cache.stamp, Cache.updateEntry], set_length_stamp c i k, ?_, ?_, ?_, ?_⟩
  all_goals
    intro j l
    rw [entry_stamp]
    split
    · rename_i h
      obtain ⟨rfl, rfl, -⟩ := h
      rfl
    · rfl

theorem like_touch (c : Cache) (i k : Nat) : c.Like (c.touch i k) := by
  unfold Cache.touch
  split
  · exact like_stamp c i k
  · exact like_of_lines rfl rfl rfl rfl

/-- A hit changes a counter, a timestamp and the clock only. -/
theorem like_hit (y : Hierarchy) (i k : Nat) : y.cache.Like (y.hit i k).cache := by
  have h : y.cache.Like { y.cache with hits := y.cache.hits + 1 } := like_of_lines rfl rfl rfl rfl
  exact h.trans (like_touch _ i k)

theorem like_miss (y : Hierarchy) : y.cache.Like y.miss.cache := like_of_lines rfl rfl rfl rfl

namespace Cache.Like
variable {c d : Cache}

theorem blockAddr (h : c.Like d) (t : Word) (i : Nat) : d.blockAddr t i = c.blockAddr t i := by
  simp [Cache.blockAddr, h.cfg, h.numLines]

theorem index (h : c.Like d) (a : Nat) : d.index a = c.index a := by simp [Cache.index, h.cfg, h.numLines]
theorem offset (h : c.Like d) (a : Nat) : d.offset a = c.offset a := by simp [Cache.offset, h.cfg]
theorem tagOf (h : c.Like d) (a : Nat) : d.tag a = c.tag a := by simp [Cache.tag, h.cfg, h.numLines]

theorem legal {capacity : Nat} (h : c.Like d) (s : c.Slots capacity) : d.Slots capacity := by
  refine ⟨by rw [h.cfg]; exact s.legal, by rw [h.cfg, h.numLines]; exact s.numLines, by rw [h.cfg, h.ways]; exact s.ways,
    by rw [h.sets, h.numLines]; exact s.sets, ?_, ?_, ?_, ?_, ?_⟩
  · intro i hi
    rw [h.slots, h.ways]
    exact s.slots i (h.numLines ▸ hi)
  · intro i hi k hk
    rw [h.block, h.cfg]
    exact s.blocks i (h.numLines ▸ hi) k (h.ways ▸ hk)
  · intro i hi k hk l hl
    rw [h.valid, h.valid, h.tag, h.tag]
    exact s.distinct i (h.numLines ▸ hi) k (h.ways ▸ hk) l (h.ways ▸ hl)
  · intro hw i hi k hk
    rw [h.dirty]
    exact s.clean (h.cfg ▸ hw) i (h.numLines ▸ hi) k (h.ways ▸ hk)
  · intro i hi k hk
    rw [h.valid, h.tag, h.blockAddr, h.cfg]
    exact s.inMemory i (h.numLines ▸ hi) k (h.ways ▸ hk)

theorem lookup {capacity : Nat} (h : c.Like d) (s : c.Slots capacity) {i : Nat} (hi : i < c.numLines) (t : Word) :
    d.lookup i t = c.lookup i t := by
  cases hl : c.lookup i t with
  | none =>
    rw [lookup_none] at hl ⊢
    intro k hk
    rw [h.valid, h.tag]
    exact hl k (h.slots i ▸ hk)
  | some k =>
    obtain ⟨h1, h2, h3⟩ := lookup_some hl
    exact lookup_eq_some (h.legal s) (h.numLines ▸ hi) (by rw [h.ways, ← s.slots i hi]; exact h1)
      (by rw [h.valid]; exact h2) (by rw [h.tag]; exact h3)

/-- They have the same data view over one memory. -/
theorem view {capacity : Nat} (h : c.Like d) (s : c.Slots capacity) (m : Memory) (a : Nat) :
    cachedView d m a = cachedView c m a := by
  unfold cachedView Cache.holding
  rw [h.index, h.tagOf, h.lookup s (s.index_lt a)]
  cases c.lookup (c.index a) (c.tag a) with
  | none => rfl
  | some k => simp [h.block, h.offset]

end Cache.Like

/-! ## The data view slot by slot (20_memory R100) -/

theorem view_of_slot {c : Cache} {capacity : Nat} (s : c.Slots capacity) (m : Memory) {a k : Nat} (hk : k < c.ways)
    (hv : (c.entry (c.index a) k).valid = true) (ht : (c.entry (c.index a) k).tag = c.tag a) :
    cachedView c m a = (c.entry (c.index a) k).block.getD (c.offset a) 0 := by
  unfold cachedView Cache.holding
  rw [lookup_eq_some s (s.index_lt a) hk hv ht]
  rfl

theorem view_of_none {c : Cache} (m : Memory) {a : Nat} (h : c.lookup (c.index a) (c.tag a) = none) :
    cachedView c m a = m.read a := by
  unfold cachedView Cache.holding
  rw [h]
  rfl

theorem view_congr_mem (c : Cache) {m m' : Memory} {a : Nat} (h : m'.read a = m.read a) :
    cachedView c m' a = cachedView c m a := by
  unfold cachedView
  split
  · rfl
  · exact h

/-- Which addresses a block holds: those with its tag and index (20_memory R70, R72). -/
theorem in_block_iff {c : Cache} {capacity : Nat} (s : c.Slots capacity) (t : Word) {i a : Nat} (hi : i < c.numLines)
    (ha : a < 2 ^ 64) :
    (c.blockAddr t i ≤ a ∧ a < c.blockAddr t i + c.cfg.blockSize) ↔ c.index a = i ∧ c.tag a = t := by
  constructor
  · rintro ⟨h1, h2⟩
    obtain ⟨-, h4, h5⟩ := split_blockAddr s t hi (show a - c.blockAddr t i < c.cfg.blockSize by omega)
    rw [Nat.add_sub_cancel' h1] at h4 h5
    exact ⟨h4, h5⟩
  · rintro ⟨rfl, rfl⟩
    have := blockAddr_tag_index c ha
    have := s.offset_lt a
    omega

/-- Coherence slot by slot (`Cache.coherent`, Safety.lean). -/
theorem coherent_iff {c : Cache} {capacity : Nat} (s : c.Slots capacity) {m : Memory} :
    c.coherent m ↔ ∀ i < c.numLines, ∀ k < c.ways, (c.entry i k).valid = true → (c.entry i k).dirty = false →
      ∀ j < c.cfg.blockSize, (c.entry i k).block.getD j 0 = m.read (c.blockAddr (c.entry i k).tag i + j) := by
  constructor
  · intro h i hi k hk
    exact h i hi _ (mem_set_iff.2 ⟨k, by rw [s.slots i hi]; exact hk, rfl⟩)
  · intro h i hi e he
    obtain ⟨k, hk, rfl⟩ := mem_set_iff.1 he
    exact h i hi k (s.slots i hi ▸ hk)

theorem Cache.Like.coherent {c d : Cache} {capacity : Nat} (h : c.Like d) (s : c.Slots capacity) {m : Memory}
    (g : c.coherent m) : d.coherent m := by
  rw [coherent_iff (h.legal s)]
  intro i hi k hk
  rw [h.valid, h.dirty, h.block, h.tag, h.blockAddr, h.cfg]
  exact (coherent_iff s).1 g i (h.numLines ▸ hi) k (h.ways ▸ hk)

/-! ## One slot replaced -/

theorem entry_update {c : Cache} {capacity : Nat} (s : c.Slots capacity) {i k : Nat} (hi : i < c.numLines)
    (hk : k < c.ways) (f : CacheEntry → CacheEntry) (j l : Nat) :
    (c.updateEntry i k f).entry j l = if j = i ∧ l = k then f (c.entry i k) else c.entry j l := by
  rw [entry_updateEntry]
  simp [s.slots i hi, hk]

/-- A slot update keeps the cache legal when the new entry is legal in its place. -/
theorem slots_updateEntry {c : Cache} {capacity : Nat} (s : c.Slots capacity) {i k : Nat} (hi : i < c.numLines)
    (hk : k < c.ways) (f : CacheEntry → CacheEntry)
    (hb : (f (c.entry i k)).block.length = c.cfg.blockSize)
    (hd : c.cfg.write = .writeThrough → (f (c.entry i k)).dirty = false)
    (ht : (f (c.entry i k)).valid = true → ∀ l < c.ways, l ≠ k → (c.entry i l).valid = true →
      (c.entry i l).tag ≠ (f (c.entry i k)).tag)
    (hm : (f (c.entry i k)).valid = true → c.blockAddr (f (c.entry i k)).tag i + c.cfg.blockSize ≤ capacity) :
    (c.updateEntry i k f).Slots capacity := by
  have he := entry_update s hi hk f
  refine ⟨s.legal, s.numLines, s.ways, ?_, ?_, ?_, ?_, ?_, ?_⟩
  · simpa [Cache.updateEntry] using s.sets
  · intro j hj
    rw [set_length_updateEntry]
    exact s.slots j hj
  · intro j hj l hl
    rw [he]
    split
    · exact hb
    · exact s.blocks j hj l hl
  · intro j hj l hl l' hl' hne
    rw [he, he]
    by_cases h1 : j = i
    · subst h1
      by_cases h2 : l = k
      · subst h2
        have h3 : l' ≠ l := Ne.symm hne
        simp only [and_self, if_true, h3, and_false, if_false]
        exact fun hv hv' e => ht hv l' hl' h3 hv' e.symm
      · by_cases h3 : l' = k
        · subst h3
          simp only [and_self, if_true, h2, and_false, if_false]
          exact fun hv hv' => ht hv' l hl h2 hv
        · simp only [h2, h3, and_false, if_false]
          exact s.distinct j hj l hl l' hl' hne
    · simp only [h1, false_and, if_false]
      exact s.distinct j hj l hl l' hl' hne
  · intro hw j hj l hl
    rw [he]
    split
    · exact hd hw
    · exact s.clean hw j hj l hl
  · intro j hj l hl
    rw [he]
    split
    · rename_i h
      rw [h.1]
      exact hm
    · exact s.inMemory j hj l hl

/-! ## What an operation on the hierarchy keeps -/

/-- The hierarchy is legal: MemoryImage canonical and within the capacity, the cache legal (Safety.lean). -/
structure Hierarchy.Legal (y : Hierarchy) (capacity : Nat) : Prop where
  memory : memoryLegal capacity y.mem
  slots  : y.cache.Slots capacity

/-- The data view of a hierarchy (20_memory R100). -/
def Hierarchy.view (y : Hierarchy) (a : Nat) : Byte := cachedView y.cache y.mem a

theorem legal_writeBytes {capacity : Nat} {m : Memory} (h : memoryLegal capacity m) {a : Nat} {bs : List Byte}
    (hr : a + bs.length ≤ capacity) : memoryLegal capacity (m.writeBytes a bs) :=
  ⟨wf_writeBytes bs a h.1, writeBytes_below bs h.2 hr⟩

/-- Write-back of a victim writes its block if it is valid and dirty, counts it, and changes no entry
(20_memory R79). -/
theorem writeBackVictim_cache (y : Hierarchy) (i k : Nat) : y.cache.Like (y.writeBackVictim i k).cache := by
  unfold Hierarchy.writeBackVictim
  dsimp only
  split <;> exact like_of_lines rfl rfl rfl rfl

theorem writeBackVictim_entry (y : Hierarchy) (i k j l : Nat) :
    (y.writeBackVictim i k).cache.entry j l = y.cache.entry j l := by
  unfold Hierarchy.writeBackVictim
  dsimp only
  split <;> rfl

theorem writeBackVictim_mem (y : Hierarchy) (i k : Nat) :
    (y.writeBackVictim i k).mem =
      if (y.cache.entry i k).valid = true ∧ (y.cache.entry i k).dirty = true then
        y.mem.writeBytes (y.cache.blockAddr (y.cache.entry i k).tag i) (y.cache.entry i k).block
      else y.mem := by
  unfold Hierarchy.writeBackVictim
  simp only [Bool.and_eq_true]
  split <;> rfl

theorem writeBackVictim_legal {y : Hierarchy} {capacity : Nat} (h : y.Legal capacity) {i k : Nat}
    (hi : i < y.cache.numLines) (hk : k < y.cache.ways) : (y.writeBackVictim i k).Legal capacity := by
  refine ⟨?_, (writeBackVictim_cache y i k).legal h.slots⟩
  rw [writeBackVictim_mem]
  split
  · rename_i hv
    refine legal_writeBytes h.memory ?_
    rw [h.slots.blocks i hi k hk]
    exact h.slots.inMemory i hi k hk hv.1
  · exact h.memory

/-- What a fill does, slot by slot, for an address that missed (20_memory R79). -/
theorem countDraw_cache (y : Hierarchy) (i : Nat) : (y.countDraw i).cache = y.cache := by
  unfold Hierarchy.countDraw
  split <;> rfl

theorem countDraw_mem (y : Hierarchy) (i : Nat) : (y.countDraw i).mem = y.mem := by
  unfold Hierarchy.countDraw
  split <;> rfl

/-- The entry `install` writes (20_memory R79). -/
def Hierarchy.installed (y : Hierarchy) (a : Nat) : CacheEntry where
  valid     := true
  dirty     := false
  tag       := y.cache.tag a
  timestamp := y.cache.logicalClock
  block     := y.mem.readBytes (a - y.cache.offset a) y.cache.cfg.blockSize

theorem install_mem (y : Hierarchy) (a k : Nat) : (y.install a k).mem = y.mem := rfl
theorem install_cfg (y : Hierarchy) (a k : Nat) : (y.install a k).cache.cfg = y.cache.cfg := rfl
theorem install_numLines (y : Hierarchy) (a k : Nat) : (y.install a k).cache.numLines = y.cache.numLines := rfl
theorem install_ways (y : Hierarchy) (a k : Nat) : (y.install a k).cache.ways = y.cache.ways := rfl

theorem install_entry {y : Hierarchy} {capacity : Nat} (s : y.cache.Slots capacity) {k : Nat} (a : Nat)
    (hk : k < y.cache.ways) (j l : Nat) :
    (y.install a k).cache.entry j l =
      if j = y.cache.index a ∧ l = k then y.installed a else y.cache.entry j l := by
  have hi := s.index_lt a
  unfold Hierarchy.install
  dsimp only
  rw [entry_stamp, set_length_updateEntry, s.slots _ hi]
  simp only [hk, and_true]
  split
  · rw [entry_update s hi hk]
    simp [Hierarchy.installed]
  · rw [entry_update s hi hk, if_neg ‹_›]

theorem install_slots {y : Hierarchy} {capacity : Nat} (s : y.cache.Slots capacity) {a k : Nat} (ha : a < capacity)
    (hc : capacity ≤ 2 ^ 64) (hk : k < y.cache.ways)
    (hmiss : y.cache.lookup (y.cache.index a) (y.cache.tag a) = none) : (y.install a k).cache.Slots capacity := by
  have hi := s.index_lt a
  refine (like_stamp _ (y.cache.index a) k).legal (slots_updateEntry s hi hk _ ?_ ?_ ?_ ?_)
  · simp
  · simp
  · intro _ l hl _ hv
    exact lookup_none.1 hmiss l (by rw [s.slots _ hi]; exact hl) hv
  · intro _
    have h1 := block_in_memory s ha
    have h2 := blockAddr_tag_index y.cache (a := a) (by omega)
    dsimp only
    omega

/-- The slot `Fill(a)` takes. -/
theorem fill_slot (y : Hierarchy) (a : Nat) :
    (y.fill a).1 = y.cache.victim (y.cache.index a) (Config.randSlot y.draws) := rfl

theorem fill_mem (y : Hierarchy) (a : Nat) :
    (y.fill a).2.mem = (y.writeBackVictim (y.cache.index a) (y.fill a).1).mem := by
  show ((y.countDraw _).writeBackVictim _ _).mem = _
  rw [writeBackVictim_mem, writeBackVictim_mem, countDraw_cache, countDraw_mem]
  rfl

theorem fill_cfg (y : Hierarchy) (a : Nat) : (y.fill a).2.cache.cfg = y.cache.cfg := by
  have h := (writeBackVictim_cache (y.countDraw (y.cache.index a)) (y.cache.index a) (y.fill a).1).cfg
  rw [countDraw_cache] at h
  exact h

theorem fill_numLines (y : Hierarchy) (a : Nat) : (y.fill a).2.cache.numLines = y.cache.numLines := by
  have h := (writeBackVictim_cache (y.countDraw (y.cache.index a)) (y.cache.index a) (y.fill a).1).numLines
  rw [countDraw_cache] at h
  exact h

theorem fill_ways (y : Hierarchy) (a : Nat) : (y.fill a).2.cache.ways = y.cache.ways := by
  have h := (writeBackVictim_cache (y.countDraw (y.cache.index a)) (y.cache.index a) (y.fill a).1).ways
  rw [countDraw_cache] at h
  exact h

/-- After the victim's write-back the hierarchy is the one `install` starts from. -/
theorem fill_eq (y : Hierarchy) (a : Nat) :
    (y.fill a).2 = ((y.countDraw (y.cache.index a)).writeBackVictim (y.cache.index a) (y.fill a).1).install a (y.fill a).1 :=
  rfl

theorem like_victimPhase (y : Hierarchy) (i k : Nat) :
    y.cache.Like ((y.countDraw i).writeBackVictim i k).cache := by
  have h := writeBackVictim_cache (y.countDraw i) i k
  rwa [countDraw_cache] at h

theorem fill_slot_lt {y : Hierarchy} {capacity : Nat} (s : y.cache.Slots capacity) (a : Nat) :
    (y.fill a).1 < y.cache.ways := victim_lt s (s.index_lt a) _

/-- The entries after a fill: the victim's slot holds the block of the address, every other slot is as before
(20_memory R79). -/
theorem fill_entry {y : Hierarchy} {capacity : Nat} (s : y.cache.Slots capacity) (a : Nat) (j l : Nat) :
    let e := (y.fill a).2.cache.entry j l
    if j = y.cache.index a ∧ l = (y.fill a).1 then
      e.valid = true ∧ e.dirty = false ∧ e.tag = y.cache.tag a ∧
        e.block = (y.fill a).2.mem.readBytes (a - y.cache.offset a) y.cache.cfg.blockSize
    else e = y.cache.entry j l := by
  intro e
  have hl := like_victimPhase y (y.cache.index a) (y.fill a).1
  have hk := fill_slot_lt s a
  have he := install_entry (hl.legal s) (k := (y.fill a).1) a (by rw [hl.ways]; exact hk) j l
  rw [← fill_eq, hl.index] at he
  have he' : e = _ := he
  rw [he']
  split
  · refine ⟨rfl, rfl, hl.tagOf a, ?_⟩
    simp only [Hierarchy.installed, hl.offset, hl.cfg]
    rfl
  · rw [writeBackVictim_entry, countDraw_cache]

theorem countDraw_legal {y : Hierarchy} {capacity : Nat} (h : y.Legal capacity) (i : Nat) :
    (y.countDraw i).Legal capacity := ⟨by rw [countDraw_mem]; exact h.memory, by rw [countDraw_cache]; exact h.slots⟩

/-- A fill of an address that missed keeps the hierarchy legal. -/
theorem fill_legal {y : Hierarchy} {capacity : Nat} (h : y.Legal capacity) {a : Nat} (ha : a < capacity)
    (hc : capacity ≤ 2 ^ 64) (hmiss : y.cache.lookup (y.cache.index a) (y.cache.tag a) = none) :
    (y.fill a).2.Legal capacity := by
  have hi := h.slots.index_lt a
  have hk := fill_slot_lt h.slots a
  have hl := like_victimPhase y (y.cache.index a) (y.fill a).1
  have hw := writeBackVictim_legal (countDraw_legal h (y.cache.index a)) (i := y.cache.index a) (k := (y.fill a).1)
    (by rw [countDraw_cache]; exact hi) (by rw [countDraw_cache]; exact hk)
  rw [fill_eq]
  refine ⟨hw.memory, install_slots hw.slots ha hc (by rw [hl.ways]; exact hk) ?_⟩
  rw [hl.index, hl.tagOf, hl.lookup h.slots hi]
  exact hmiss

/-- A byte of MemoryImage after a fill: the victim's, if it was valid, dirty and held the address, else as before
(20_memory R79). -/
theorem fill_read {y : Hierarchy} {capacity : Nat} (h : y.Legal capacity) (a : Nat) (b : Nat) (hb : b < 2 ^ 64) :
    let i := y.cache.index a
    let v := y.cache.entry i (y.fill a).1
    (y.fill a).2.mem.read b =
      if v.valid = true ∧ v.dirty = true ∧ y.cache.index b = i ∧ y.cache.tag b = v.tag then
        v.block.getD (y.cache.offset b) 0
      else y.mem.read b := by
  intro i v
  have hi := h.slots.index_lt a
  have hk := fill_slot_lt h.slots a
  have hin := in_block_iff h.slots v.tag hi hb
  rw [fill_mem, writeBackVictim_mem]
  by_cases hv : v.valid = true ∧ v.dirty = true
  · rw [if_pos hv, read_writeBytes h.memory.1, h.slots.blocks i hi _ hk]
    by_cases ht : y.cache.index b = i ∧ y.cache.tag b = v.tag
    · rw [if_pos (hin.2 ht), if_pos ⟨hv.1, hv.2, ht⟩]
      have h1 := blockAddr_tag_index y.cache hb
      rw [ht.1, ht.2] at h1
      have h2 : y.cache.blockAddr (y.cache.entry (y.cache.index a) (y.fill a).1).tag (y.cache.index a) +
        y.cache.offset b = b := h1
      congr 1
      omega
    · rw [if_neg (fun hh => ht (hin.1 hh)), if_neg fun hh => ht hh.2.2]
  · rw [if_neg hv, if_neg fun hh => hv ⟨hh.1, hh.2.1⟩]

theorem readBytes_getD (m : Memory) (a n j : Nat) (h : j < n) : (m.readBytes a n).getD j 0 = m.read (a + j) := by
  rw [List.getD_eq_getElem _ _ (by simpa using h), readBytes_getElem]

/-- A fill changes no byte of the data view, and the slot it takes holds the address's block (20_memory R79, R100). -/
theorem fill_view {y : Hierarchy} {capacity : Nat} (h : y.Legal capacity) (g : y.cache.coherent y.mem) {a : Nat}
    (ha : a < capacity) (hc : capacity ≤ 2 ^ 64)
    (hmiss : y.cache.lookup (y.cache.index a) (y.cache.tag a) = none) :
    (∀ b < 2 ^ 64, (y.fill a).2.view b = y.view b) ∧ (y.fill a).2.cache.coherent (y.fill a).2.mem := by
  have s := h.slots
  have s' := (fill_legal h ha hc hmiss).slots
  have hi := s.index_lt a
  have hk := fill_slot_lt s a
  have hent := fill_entry s a
  have hread := fill_read h a
  have hcfg := fill_cfg y a
  have hn := fill_numLines y a
  have hwy := fill_ways y a
  have hix : ∀ b, (y.fill a).2.cache.index b = y.cache.index b := fun b => by simp [Cache.index, hcfg, hn]
  have htg : ∀ b, (y.fill a).2.cache.tag b = y.cache.tag b := fun b => by simp [Cache.tag, hcfg, hn]
  have hof : ∀ b, (y.fill a).2.cache.offset b = y.cache.offset b := fun b => by simp [Cache.offset, hcfg]
  have hba : ∀ t i, (y.fill a).2.cache.blockAddr t i = y.cache.blockAddr t i := fun t i => by
    simp [Cache.blockAddr, hcfg, hn]
  have hmiss' := fun k hk => lookup_none.1 hmiss k (by rw [s.slots _ hi]; exact hk)
  generalize hK : (y.fill a).1 = K at *
  generalize hz : (y.fill a).2 = z at *
  dsimp only at hread hent
  constructor
  · intro b hb
    unfold Hierarchy.view
    have hib := s.index_lt b
    by_cases hsame : y.cache.index b = y.cache.index a ∧ y.cache.tag b = y.cache.tag a
    · have h1 := hent (y.cache.index a) K
      rw [if_pos ⟨rfl, rfl⟩] at h1
      rw [view_of_slot s' z.mem (k := K) (by rw [hwy]; exact hk) (by rw [hix, hsame.1]; exact h1.1)
        (by rw [hix, htg, hsame.1, hsame.2]; exact h1.2.2.1)]
      rw [view_of_none y.mem (by rw [hsame.1, hsame.2]; exact hmiss), hix, hof, hsame.1, h1.2.2.2,
        readBytes_getD _ _ _ _ (s.offset_lt b)]
      have e1 := blockAddr_tag_index y.cache hb
      have e2 := blockAddr_tag_index y.cache (a := a) (by omega)
      rw [hsame.1, hsame.2] at e1
      rw [show a - y.cache.offset a + y.cache.offset b = b by omega, hread b hb, if_neg]
      rintro ⟨hv, -, -, ht⟩
      exact hmiss' K hk hv (by rw [← ht, hsame.2])
    · cases hl : y.cache.lookup (y.cache.index b) (y.cache.tag b) with
      | none =>
        rw [view_of_none y.mem hl, view_of_none z.mem, hread b hb, if_neg]
        · rintro ⟨hv, -, h1, h2⟩
          rw [h1] at hl
          exact lookup_none.1 hl K (by rw [s.slots _ hi]; exact hk) hv h2.symm
        · rw [hix, htg, lookup_none]
          intro k hk'
          have h1 := hent (y.cache.index b) k
          rw [s'.slots _ (by rw [hn]; exact hib), hwy] at hk'
          split at h1
          · rename_i h2
            rw [h1.2.2.1]
            exact fun _ e => hsame ⟨h2.1, e.symm⟩
          · rw [h1]
            exact lookup_none.1 hl k (by rw [s.slots _ hib]; exact hk')
      | some k =>
        obtain ⟨h1, h2, h3⟩ := lookup_some hl
        rw [s.slots _ hib] at h1
        rw [view_of_slot s y.mem h1 h2 h3]
        by_cases hkk : y.cache.index b = y.cache.index a ∧ k = K
        · rw [view_of_none z.mem, hread b hb]
          · obtain ⟨e1, rfl⟩ := hkk
            rw [e1] at h2 h3 ⊢
            by_cases hd : (y.cache.entry (y.cache.index a) k).dirty = true
            · rw [if_pos ⟨h2, hd, rfl, h3.symm⟩]
            · rw [if_neg fun hh => hd hh.2.1, (coherent_iff s).1 g _ hi k hk h2 (by simpa using hd) _ (s.offset_lt b)]
              have := blockAddr_tag_index y.cache hb
              rw [e1] at this
              rw [h3, this]
          · rw [hix, htg, lookup_none]
            intro l hl'
            have h4 := hent (y.cache.index b) l
            rw [s'.slots _ (by rw [hn]; exact hib), hwy] at hl'
            split at h4
            · rename_i h5
              rw [h4.2.2.1]
              exact fun _ e => hsame ⟨h5.1, e.symm⟩
            · rename_i h5
              rw [h4]
              intro hv e
              exact s.distinct _ hib l hl' k h1 (fun e => h5 ⟨hkk.1, e.trans hkk.2⟩) hv h2 (e.trans h3.symm)
        · have h4 := hent (y.cache.index b) k
          rw [if_neg hkk] at h4
          rw [view_of_slot s' z.mem (k := k) (by rw [hwy]; exact h1) (by rw [hix, h4]; exact h2)
            (by rw [hix, htg, h4]; exact h3), hix, hof, h4]
  · rw [coherent_iff s']
    intro i hi' k hk' hv hd j hj
    rw [hn] at hi'
    rw [hwy] at hk'
    rw [hcfg] at hj
    have h1 := hent i k
    rw [hba]
    split at h1
    · rename_i h2
      obtain ⟨-, -, h5, h6⟩ := h1
      rw [h6, h5, readBytes_getD _ _ _ _ hj, h2.1]
      have := blockAddr_tag_index y.cache (a := a) (by omega)
      congr 1
      omega
    · rename_i h2
      rw [h1] at hv hd ⊢
      have hin := s.inMemory i hi' k hk' hv
      obtain ⟨e1, e2, e3⟩ := split_blockAddr s (y.cache.entry i k).tag hi' hj
      rw [(coherent_iff s).1 g i hi' k hk' hv hd j hj, hread _ (by omega), if_neg]
      rintro ⟨hv', -, h3, h4⟩
      rw [e2] at h3
      rw [e3] at h4
      subst h3
      exact s.distinct _ hi' k hk' K hk (fun e => h2 ⟨rfl, e⟩) hv hv' h4

/-- The block a fill installs holds the bytes the data view had (20_memory R79, R100). -/
theorem fill_block {y : Hierarchy} {capacity : Nat} (h : y.Legal capacity) {a b : Nat} (ha : a < 2 ^ 64) (hb : b < 2 ^ 64)
    (hmiss : y.cache.lookup (y.cache.index a) (y.cache.tag a) = none)
    (hsame : y.cache.index b = y.cache.index a ∧ y.cache.tag b = y.cache.tag a) :
    ((y.fill a).2.cache.entry (y.cache.index a) (y.fill a).1).block.getD (y.cache.offset b) 0 = y.view b := by
  have s := h.slots
  have hi := s.index_lt a
  have h1 := fill_entry s a (y.cache.index a) (y.fill a).1
  rw [if_pos ⟨rfl, rfl⟩] at h1
  have e1 := blockAddr_tag_index y.cache hb
  have e2 := blockAddr_tag_index y.cache ha
  rw [hsame.1, hsame.2] at e1
  rw [h1.2.2.2, readBytes_getD _ _ _ _ (s.offset_lt b), show a - y.cache.offset a + y.cache.offset b = b by omega]
  rw [fill_read h a b hb, if_neg]
  · unfold Hierarchy.view
    rw [view_of_none y.mem (by rw [hsame.1, hsame.2]; exact hmiss)]
  · rintro ⟨hv, -, -, ht⟩
    exact lookup_none.1 hmiss _ (by rw [s.slots _ hi]; exact fill_slot_lt s a) hv (by rw [← ht, hsame.2])

/-! ## Hits and misses brought together -/

theorem hit_mem (y : Hierarchy) (i k : Nat) : (y.hit i k).mem = y.mem := rfl
theorem miss_mem (y : Hierarchy) : y.miss.mem = y.mem := rfl

theorem like_view {y z : Hierarchy} {capacity : Nat} (hl : y.cache.Like z.cache) (hm : z.mem = y.mem)
    (s : y.cache.Slots capacity) (b : Nat) : z.view b = y.view b := by
  unfold Hierarchy.view
  rw [hm, hl.view s]

theorem like_legal {y z : Hierarchy} {capacity : Nat} (hl : y.cache.Like z.cache) (hm : z.mem = y.mem)
    (h : y.Legal capacity) : z.Legal capacity := ⟨hm ▸ h.memory, hl.legal h.slots⟩

/-- What `obtain` leaves: a slot that holds the address's block, in a legal hierarchy of the same geometry
(20_memory R81, R86). -/
theorem obtain_spec {y : Hierarchy} {capacity : Nat} (h : y.Legal capacity) {a : Nat} (ha : a < capacity)
    (hc : capacity ≤ 2 ^ 64) :
    let k := (y.obtain a).1
    let z := (y.obtain a).2
    k < y.cache.ways ∧ z.Legal capacity ∧ z.cache.cfg = y.cache.cfg ∧ z.cache.numLines = y.cache.numLines ∧
      z.cache.ways = y.cache.ways ∧ (z.cache.entry (y.cache.index a) k).valid = true ∧
      (z.cache.entry (y.cache.index a) k).tag = y.cache.tag a ∧
      (∀ b < 2 ^ 64, y.cache.index b = y.cache.index a → y.cache.tag b = y.cache.tag a →
        (z.cache.entry (y.cache.index a) k).block.getD (y.cache.offset b) 0 = y.view b) ∧
      (y.cache.coherent y.mem → (∀ b < 2 ^ 64, z.view b = y.view b) ∧ z.cache.coherent z.mem) := by
  have s := h.slots
  have hi := s.index_lt a
  intro k z
  cases hl : y.cache.lookup (y.cache.index a) (y.cache.tag a) with
  | some l =>
    obtain ⟨h1, h2, h3⟩ := lookup_some hl
    rw [s.slots _ hi] at h1
    have hk : k = l := by simp [k, Hierarchy.obtain, hl]
    have hz : z = y.hit (y.cache.index a) l := by simp [z, Hierarchy.obtain, hl]
    clear_value k z
    subst hk hz
    have L := like_hit y (y.cache.index a) k
    refine ⟨h1, like_legal L rfl h, L.cfg, L.numLines, L.ways, by rw [L.valid]; exact h2, by rw [L.tag]; exact h3, ?_, ?_⟩
    · intro b _ hbi hbt
      unfold Hierarchy.view
      rw [L.block, view_of_slot s y.mem h1 (by rw [hbi]; exact h2) (by rw [hbi, hbt]; exact h3), hbi]
    · intro g
      exact ⟨fun b _ => like_view L rfl s b, L.coherent s g⟩
  | none =>
    have L := like_miss y
    have hm := like_legal L rfl h
    have hmiss : y.miss.cache.lookup (y.miss.cache.index a) (y.miss.cache.tag a) = none := by
      rw [L.index, L.tagOf, L.lookup s hi]
      exact hl
    have hk : k = (y.miss.fill a).1 := by simp [k, Hierarchy.obtain, hl]
    have hz : z = (y.miss.fill a).2 := by simp [z, Hierarchy.obtain, hl]
    clear_value k z
    subst hk hz
    have he := fill_entry hm.slots a (y.miss.cache.index a) (y.miss.fill a).1
    rw [if_pos ⟨rfl, rfl⟩, L.index, L.tagOf] at he
    refine ⟨?_, fill_legal hm ha hc hmiss, ?_, ?_, ?_, he.1, he.2.2.1, ?_, ?_⟩
    · have := fill_slot_lt hm.slots a
      rwa [L.ways] at this
    · rw [fill_cfg, L.cfg]
    · rw [fill_numLines, L.numLines]
    · rw [fill_ways, L.ways]
    · intro b hb hbi hbt
      have := fill_block hm (a := a) (b := b) (by omega) hb hmiss (by simp [L.index, L.tagOf, hbi, hbt])
      rw [L.index, L.offset, like_view L rfl s] at this
      exact this
    · intro g
      have := fill_view hm (L.coherent s g) ha hc hmiss
      exact ⟨fun b hb => (this.1 b hb).trans (like_view L rfl s b), this.2⟩

/-! ## Accesses inside one block (20_memory R80) -/

/-- The bytes of an access that does not span lie in one block. -/
theorem same_block {c : Cache} {capacity : Nat} (s : c.Slots capacity) {a j : Nat} (ha : a < 2 ^ 64)
    (hj : c.offset a + j < c.cfg.blockSize) :
    c.offset (a + j) = c.offset a + j ∧ c.index (a + j) = c.index a ∧ c.tag (a + j) = c.tag a := by
  have h1 := blockAddr_tag_index c ha
  have h2 := split_blockAddr s (c.tag a) (s.index_lt a) hj
  rw [← Nat.add_assoc, h1] at h2
  exact h2

theorem spans_eq_false {c : Cache} {a n : Nat} : c.spans a n = false ↔ c.offset a + n ≤ c.cfg.blockSize := by
  simp [Cache.spans]

/-- The bytes of the data view an access reads. -/
def Hierarchy.viewBytes (y : Hierarchy) (a n : Nat) : List Byte := (List.range n).map fun j => y.view (a + j)

/-- A cached read returns the data view's bytes (20_memory R81, R100). -/
theorem cacheRead_value {y : Hierarchy} {capacity : Nat} (h : y.Legal capacity) (hc : capacity < 2 ^ 63) {a : Word} {n : Nat}
    (hr : a.toNat + n ≤ capacity) (hn : 0 < n) (hs : y.cache.spans a.toNat n = false) :
    (y.cacheRead a n).1 = leWord (y.viewBytes a.toNat n) := by
  have s := h.slots
  have ho := spans_eq_false.1 hs
  obtain ⟨hk, hz, hcfg, hnl, hwy, -, -, hblk, -⟩ := obtain_spec h (a := a.toNat) (by omega) (by omega)
  unfold Hierarchy.cacheRead
  simp only [hs, Bool.false_eq_true, if_false]
  unfold blockRead
  congr 1
  have hlen : ((y.obtain a.toNat).2.cache.entry (y.cache.index a.toNat) (y.obtain a.toNat).1).block.length
      = y.cache.cfg.blockSize := by
    rw [← hcfg]
    exact hz.slots.blocks _ (by rw [hnl]; exact s.index_lt _) _ (by rw [hwy]; exact hk)
  apply List.ext_getElem
  · simp only [List.length_take, List.length_drop, hlen, Hierarchy.viewBytes, List.length_map, List.length_range]
    omega
  · intro j h1 h2
    simp only [Hierarchy.viewBytes, List.length_map, List.length_range] at h2
    obtain ⟨e1, e2, e3⟩ := same_block s (a := a.toNat) (j := j) (by omega) (by omega)
    have := hblk (a.toNat + j) (by omega) e2 e3
    rw [e1, List.getD_eq_getElem _ _ (by omega)] at this
    simpa [Hierarchy.viewBytes] using this

theorem cacheRead_state {y : Hierarchy} {a : Word} {n : Nat} (hs : y.cache.spans a.toNat n = false) :
    (y.cacheRead a n).2 = (y.obtain a.toNat).2 := by
  simp [Hierarchy.cacheRead, hs]

/-- A cached read keeps the hierarchy legal (20_memory R80, R81). -/
theorem cacheRead_legal {y : Hierarchy} {capacity : Nat} (h : y.Legal capacity) (hc : capacity < 2 ^ 63) {a : Word} {n : Nat}
    (hr : a.toNat + n ≤ capacity) (hn : 0 < n) : (y.cacheRead a n).2.Legal capacity := by
  cases hs : y.cache.spans a.toNat n with
  | true =>
    simp only [Hierarchy.cacheRead, hs, if_true]
    exact ⟨h.memory, h.slots⟩
  | false =>
    rw [cacheRead_state hs]
    exact (obtain_spec h (a := a.toNat) (by omega) (by omega)).2.1

/-- A cached read that does not span changes no byte of the data view (20_memory R81, R100). -/
theorem cacheRead_view {y : Hierarchy} {capacity : Nat} (h : y.Legal capacity) (hc : capacity < 2 ^ 63) {a : Word} {n : Nat}
    (hr : a.toNat + n ≤ capacity) (hn : 0 < n) (hs : y.cache.spans a.toNat n = false) (g : y.cache.coherent y.mem) :
    (∀ b < 2 ^ 64, (y.cacheRead a n).2.view b = y.view b) ∧
      (y.cacheRead a n).2.cache.coherent (y.cacheRead a n).2.mem := by
  rw [cacheRead_state hs]
  exact (obtain_spec h (a := a.toNat) (by omega) (by omega)).2.2.2.2.2.2.2.2 g

/-! ## Writing a slot's block -/

theorem leBytes_getD (n : Nat) (v : Word) {j : Nat} (h : j < n) : (leBytes n v).getD j 0 = v.extractLsb' (8 * j) 8 := by
  rw [List.getD_eq_getElem _ _ (by simpa using h), leBytes_getElem]

/-- `RawWrite`, byte by byte (20_memory R53). -/
theorem read_rawWrite {m : Memory} (hm : m.wf = true) (a n : Nat) (v : Word) (b : Nat) :
    (m.rawWrite a n v).read b = storedByte m.read a n v b := by
  unfold Memory.rawWrite storedByte
  rw [read_writeBytes hm, leBytes_length]
  split
  · exact leBytes_getD n v (by omega)
  · rfl

theorem legal_rawWrite {capacity : Nat} {m : Memory} (h : memoryLegal capacity m) {a n : Nat} (v : Word)
    (hr : a + n ≤ capacity) : memoryLegal capacity (m.rawWrite a n v) :=
  legal_writeBytes h (by simpa using hr)

/-- An update of a slot that keeps its tag and validity keeps lookups, and the view of every other block. -/
theorem updateEntry_view {c : Cache} {capacity : Nat} (s : c.Slots capacity) {i k : Nat} (hi : i < c.numLines)
    (hk : k < c.ways) {f : CacheEntry → CacheEntry} (hv : (f (c.entry i k)).valid = (c.entry i k).valid)
    (ht : (f (c.entry i k)).tag = (c.entry i k).tag) (s' : (c.updateEntry i k f).Slots capacity) (m : Memory) (b : Nat)
    (hne : ¬(c.index b = i ∧ c.tag b = (c.entry i k).tag)) :
    cachedView (c.updateEntry i k f) m b = cachedView c m b := by
  have he := entry_update s hi hk f
  have hib := s.index_lt b
  cases hl : c.lookup (c.index b) (c.tag b) with
  | none =>
    rw [view_of_none m hl, view_of_none]
    rw [lookup_none] at hl ⊢
    intro l hl'
    rw [set_length_updateEntry] at hl'
    have h0 := hl l hl'
    rw [he]
    split
    · rename_i h
      obtain ⟨h1, rfl⟩ := h
      rw [hv, ht]
      rw [show (c.updateEntry i l f).index b = c.index b from rfl] at h1
      rw [h1] at h0
      exact h0
    · exact h0
  | some l =>
    obtain ⟨h1, h2, h3⟩ := lookup_some hl
    rw [s.slots _ hib] at h1
    have hh : ¬(c.index b = i ∧ l = k) := by
      rintro ⟨rfl, rfl⟩
      exact hne ⟨rfl, h3.symm⟩
    have h4 := he (c.index b) l
    rw [if_neg hh] at h4
    rw [view_of_slot s m h1 h2 h3,
      view_of_slot s' m (k := l) h1 (by rw [show (c.updateEntry i k f).index b = c.index b from rfl, h4]; exact h2)
        (by rw [show (c.updateEntry i k f).index b = c.index b from rfl, h4]; exact h3)]
    rw [show (c.updateEntry i k f).index b = c.index b from rfl, h4]
    rfl

/-- Bytes stored into the slot that holds their block are stored in the data view (20_memory R85, R86, R100). -/
theorem slotWrite_view {c : Cache} {capacity : Nat} (s : c.Slots capacity) {a n k : Nat} (ha : a < 2 ^ 64)
    (hk : k < c.ways) (hvk : (c.entry (c.index a) k).valid = true) (htk : (c.entry (c.index a) k).tag = c.tag a)
    (hs : c.spans a n = false) (v : Word) {f : CacheEntry → CacheEntry}
    (hv : (f (c.entry (c.index a) k)).valid = (c.entry (c.index a) k).valid)
    (ht : (f (c.entry (c.index a) k)).tag = (c.entry (c.index a) k).tag)
    (hb : (f (c.entry (c.index a) k)).block = blockWrite (c.entry (c.index a) k).block (c.offset a) (leBytes n v))
    (s' : (c.updateEntry (c.index a) k f).Slots capacity) (m m' : Memory) (b : Nat) (hb64 : b < 2 ^ 64)
    (hm : ¬(c.index b = c.index a ∧ c.tag b = c.tag a) → m'.read b = m.read b) :
    cachedView (c.updateEntry (c.index a) k f) m' b = storedByte (cachedView c m) a n v b := by
  have hi := s.index_lt a
  have ho := spans_eq_false.1 hs
  have he := entry_update s hi hk f
  have ea := blockAddr_tag_index c ha
  have eb := blockAddr_tag_index c hb64
  by_cases hsame : c.index b = c.index a ∧ c.tag b = c.tag a
  · have h4 := he (c.index a) k
    rw [if_pos ⟨rfl, rfl⟩] at h4
    rw [hsame.1, hsame.2] at eb
    rw [view_of_slot s' m' (k := k) hk
      (by rw [show (c.updateEntry (c.index a) k f).index b = c.index b from rfl, hsame.1, h4, hv]; exact hvk)
      (by rw [show (c.updateEntry (c.index a) k f).index b = c.index b from rfl, hsame.1, h4, ht, htk]; exact hsame.2.symm)]
    rw [show (c.updateEntry (c.index a) k f).index b = c.index b from rfl, hsame.1, h4, hb]
    have hlen := s.blocks _ hi k hk
    rw [show (c.updateEntry (c.index a) k f).offset b = c.offset b from rfl, blockWrite_getD _ _ _ _ (by
      rw [leBytes_length, hlen]; exact ho), leBytes_length]
    unfold storedByte
    by_cases hin : c.offset a ≤ c.offset b ∧ c.offset b < c.offset a + n
    · rw [if_pos hin, if_pos (by omega), leBytes_getD n v (by omega)]
      congr 2
      omega
    · rw [if_neg hin, if_neg (by omega), view_of_slot s m hk (by rw [hsame.1]; exact hvk)
        (by rw [hsame.1, htk]; exact hsame.2.symm), hsame.1]
  · rw [updateEntry_view s hi hk hv ht s' m' b (by rw [htk]; exact hsame)]
    have hout : ¬(a ≤ b ∧ b < a + n) := by
      intro h
      obtain ⟨-, e2, e3⟩ := same_block s (a := a) (j := b - a) ha (by omega)
      rw [Nat.add_sub_cancel' h.1] at e2 e3
      exact hsame ⟨e2, e3⟩
    unfold storedByte
    rw [if_neg hout]
    exact view_congr_mem _ (hm hsame)

/-- A write-through store keeps the hierarchy legal and stores its bytes in MemoryImage and in the data view
(20_memory R85, R100). -/
theorem writeThrough_spec {y : Hierarchy} {capacity : Nat} (h : y.Legal capacity) (hc : capacity < 2 ^ 63) {a n : Nat}
    (hr : a + n ≤ capacity) (hs : y.cache.spans a n = false) (v : Word) :
    (y.writeThrough a n v).Legal capacity ∧ (y.writeThrough a n v).mem = y.mem.rawWrite a n v ∧
      ∀ b < 2 ^ 64, (y.writeThrough a n v).view b = storedByte y.view a n v b := by
  have s := h.slots
  have hi := s.index_lt a
  have hmem := legal_rawWrite h.memory v hr
  have hread := read_rawWrite h.memory.1 a n v
  unfold Hierarchy.writeThrough
  dsimp only
  cases hl : y.cache.lookup (y.cache.index a) (y.cache.tag a) with
  | none =>
    have L := like_miss { y with mem := y.mem.rawWrite a n v }
    refine ⟨⟨hmem, L.legal s⟩, rfl, fun b hb => ?_⟩
    show (Hierarchy.miss _).view b = _
    unfold Hierarchy.view
    rw [L.view s]
    show cachedView y.cache (y.mem.rawWrite a n v) b = _
    by_cases hin : a ≤ b ∧ b < a + n
    · obtain ⟨-, e2, e3⟩ := same_block s (a := a) (j := b - a) (by omega) (by
        have := spans_eq_false.1 hs
        omega)
      rw [Nat.add_sub_cancel' hin.1] at e2 e3
      rw [view_of_none _ (by rw [e2, e3]; exact hl), hread]
      unfold storedByte
      rw [if_pos hin, if_pos hin]
    · unfold storedByte
      rw [if_neg hin]
      refine view_congr_mem _ ?_
      rw [hread]
      unfold storedByte
      rw [if_neg hin]
  | some k =>
    obtain ⟨h1, h2, h3⟩ := lookup_some hl
    rw [s.slots _ hi] at h1
    have s' : (y.cache.updateEntry (y.cache.index a) k fun e =>
        { e with block := blockWrite e.block (y.cache.offset a) (leBytes n v) }).Slots capacity := by
      refine slots_updateEntry s hi h1 _ ?_ ?_ ?_ ?_
      · rw [blockWrite_length]
        exact s.blocks _ hi k h1
      · exact fun hw => s.clean hw _ hi k h1
      · exact fun hv l hl' hne hv' => s.distinct _ hi l hl' k h1 hne hv' hv
      · exact fun hv => s.inMemory _ hi k h1 hv
    have L := like_hit { y with
      mem := y.mem.rawWrite a n v
      cache := y.cache.updateEntry (y.cache.index a) k fun e =>
        { e with block := blockWrite e.block (y.cache.offset a) (leBytes n v) } } (y.cache.index a) k
    refine ⟨⟨hmem, L.legal s'⟩, rfl, fun b hb => ?_⟩
    show (Hierarchy.hit _ _ _).view b = _
    unfold Hierarchy.view
    rw [L.view s', hit_mem]
    refine slotWrite_view s (by omega) h1 h2 h3 hs v rfl rfl rfl s' y.mem _ b hb fun hne => ?_
    rw [hread]
    unfold storedByte
    rw [if_neg]
    intro hin
    obtain ⟨-, e2, e3⟩ := same_block s (a := a) (j := b - a) (by omega) (by
      have := spans_eq_false.1 hs
      omega)
    rw [Nat.add_sub_cancel' hin.1] at e2 e3
    exact hne ⟨e2, e3⟩

/-- A write-back store keeps the hierarchy legal, stores its bytes in the data view and leaves the store's slot dirty
(20_memory R86, R100). -/
theorem writeBack_spec {y : Hierarchy} {capacity : Nat} (h : y.Legal capacity) (hc : capacity < 2 ^ 63) {a n : Nat}
    (hr : a + n ≤ capacity) (hn : 0 < n) (hs : y.cache.spans a n = false) (hw : y.cache.cfg.write = .writeBack) (v : Word) :
    (y.writeBack a n v).Legal capacity ∧ (y.writeBack a n v).mem = (y.obtain a).2.mem ∧
      (y.cache.coherent y.mem → ∀ b < 2 ^ 64, (y.writeBack a n v).view b = storedByte y.view a n v b) := by
  have s := h.slots
  obtain ⟨hk, hz, hcfg, hnl, hwy, hv, ht, -, hco⟩ := obtain_spec h (a := a) (by omega) (by omega)
  unfold Hierarchy.writeBack
  dsimp only
  generalize (y.obtain a).1 = k at *
  generalize (y.obtain a).2 = z at *
  have hix : ∀ b, z.cache.index b = y.cache.index b := fun b => by simp [Cache.index, hcfg, hnl]
  have htg : ∀ b, z.cache.tag b = y.cache.tag b := fun b => by simp [Cache.tag, hcfg, hnl]
  have hof : ∀ b, z.cache.offset b = y.cache.offset b := fun b => by simp [Cache.offset, hcfg]
  have hsp : z.cache.spans a n = false := by simpa [Cache.spans, hof, hcfg] using hs
  rw [← hix, ← hof]
  rw [← hix] at hv ht
  rw [← htg] at ht
  rw [← hwy] at hk
  have sz := hz.slots
  have hi := sz.index_lt a
  have s' : (z.cache.updateEntry (z.cache.index a) k fun e =>
      { e with block := blockWrite e.block (z.cache.offset a) (leBytes n v), dirty := true }).Slots capacity := by
    refine slots_updateEntry sz hi hk _ ?_ ?_ ?_ ?_
    · rw [blockWrite_length]
      exact sz.blocks _ hi k hk
    · rw [hcfg, hw]
      exact fun hw => absurd hw (by decide)
    · exact fun hv l hl' hne hv' => sz.distinct _ hi l hl' k hk hne hv' hv
    · exact fun hv => sz.inMemory _ hi k hk hv
  refine ⟨⟨hz.memory, s'⟩, rfl, fun g b hb => ?_⟩
  have := slotWrite_view sz (by omega) hk hv ht hsp v (f := fun e =>
    { e with block := blockWrite e.block (z.cache.offset a) (leBytes n v), dirty := true }) rfl rfl rfl s' z.mem z.mem b hb
    fun _ => rfl
  refine this.trans ?_
  unfold storedByte
  split
  · rfl
  · exact (hco g).1 b hb

/-- A cached write keeps the hierarchy legal (20_memory R80, R84 to R86). -/
theorem cacheWrite_legal {y : Hierarchy} {capacity : Nat} (h : y.Legal capacity) (hc : capacity < 2 ^ 63) {a : Word} {n : Nat}
    (hr : a.toNat + n ≤ capacity) (hn : 0 < n) (v : Word) : (y.cacheWrite a n v).Legal capacity := by
  unfold Hierarchy.cacheWrite
  cases hs : y.cache.spans a.toNat n with
  | true => exact ⟨legal_rawWrite h.memory v hr, h.slots⟩
  | false =>
    simp only [Bool.false_eq_true, if_false]
    split
    · exact (writeThrough_spec h hc hr hs v).1
    · rename_i hw
      exact (writeBack_spec h hc hr hn hs hw v).1

/-- A cached write that does not span stores its bytes in the data view and changes no other byte of it
(20_memory R85, R86, R100). -/
theorem cacheWrite_view {y : Hierarchy} {capacity : Nat} (h : y.Legal capacity) (hc : capacity < 2 ^ 63) {a : Word} {n : Nat}
    (hr : a.toNat + n ≤ capacity) (hn : 0 < n) (hs : y.cache.spans a.toNat n = false) (g : y.cache.coherent y.mem) (v : Word)
    (b : Nat) (hb : b < 2 ^ 64) : (y.cacheWrite a n v).view b = storedByte y.view a.toNat n v b := by
  unfold Hierarchy.cacheWrite
  simp only [hs, Bool.false_eq_true, if_false]
  split
  · exact (writeThrough_spec h hc hr hs v).2.2 b hb
  · rename_i hw
    exact (writeBack_spec h hc hr hn hs hw v).2.2 g b hb

/-! ## Coherence -/

/-- In a coherent cache with no dirty entry the data view is MemoryImage (20_memory R101). -/
theorem view_eq_read {c : Cache} {capacity : Nat} (s : c.Slots capacity) {m : Memory} (g : c.coherent m)
    (hd : ∀ i < c.numLines, ∀ k < c.ways, (c.entry i k).dirty = false) {b : Nat} (hb : b < 2 ^ 64) :
    cachedView c m b = m.read b := by
  have hi := s.index_lt b
  cases hl : c.lookup (c.index b) (c.tag b) with
  | none => exact view_of_none m hl
  | some k =>
    obtain ⟨h1, h2, h3⟩ := lookup_some hl
    rw [s.slots _ hi] at h1
    have e := blockAddr_tag_index c hb
    rw [view_of_slot s m h1 h2 h3, (coherent_iff s).1 g _ hi k h1 h2 (hd _ hi k h1) _ (s.offset_lt b), h3, e]

theorem coherent_of_view {c : Cache} {capacity : Nat} (s : c.Slots capacity) (hc : capacity ≤ 2 ^ 64) {m : Memory}
    (h : ∀ b < 2 ^ 64, cachedView c m b = m.read b) : c.coherent m := by
  rw [coherent_iff s]
  intro i hi k hk hv _ j hj
  obtain ⟨e1, e2, e3⟩ := split_blockAddr s (c.entry i k).tag hi hj
  have hin := s.inMemory i hi k hk hv
  rw [← h _ (by omega), view_of_slot s m (k := k) hk (by rw [e2]; exact hv) (by rw [e2, e3]), e2, e1]

theorem writeThrough_cfg (y : Hierarchy) (a n : Nat) (v : Word) : (y.writeThrough a n v).cache.cfg = y.cache.cfg := by
  unfold Hierarchy.writeThrough
  dsimp only
  split
  · simp [Hierarchy.hit]
  · rfl

/-- A cached write that does not span keeps every clean entry equal to MemoryImage (10_state R37). -/
theorem cacheWrite_coherent {y : Hierarchy} {capacity : Nat} (h : y.Legal capacity) (hc : capacity < 2 ^ 63) {a : Word}
    {n : Nat} (hr : a.toNat + n ≤ capacity) (hn : 0 < n) (hs : y.cache.spans a.toNat n = false)
    (g : y.cache.coherent y.mem) (v : Word) : (y.cacheWrite a n v).cache.coherent (y.cacheWrite a n v).mem := by
  have hl := cacheWrite_legal h hc hr hn v (a := a)
  unfold Hierarchy.cacheWrite at hl ⊢
  simp only [hs, Bool.false_eq_true, if_false] at hl ⊢
  split
  · rename_i hw
    rw [hw] at hl
    obtain ⟨h1, h2, h3⟩ := writeThrough_spec h hc hr hs v
    refine coherent_of_view h1.slots (by omega) fun b hb => (h3 b hb).trans ?_
    rw [h2, read_rawWrite h.memory.1]
    unfold storedByte
    split
    · rfl
    · exact view_eq_read h.slots g (h.slots.clean hw) hb
  · rename_i hw
    rw [hw] at hl
    have s' := hl.slots
    rw [coherent_iff s']
    obtain ⟨hk, hz, hcfg, hnl, hwy, -, -, -, hco⟩ := obtain_spec h (a := a.toNat) (by omega) (by omega)
    have hg := (coherent_iff hz.slots).1 (hco g).2
    have hi := hz.slots.index_lt a.toNat
    have hix : (y.obtain a.toNat).2.cache.index a.toNat = y.cache.index a.toNat := by simp [Cache.index, hcfg, hnl]
    rw [hix] at hi
    intro i hi' k hk' hv hd j hj
    have he := entry_update hz.slots hi (by rw [hwy]; exact hk)
      (fun e => { e with block := blockWrite e.block (y.cache.offset a.toNat) (leBytes n v), dirty := true }) i k
    have he' : (y.writeBack a.toNat n v).cache.entry i k = _ := he
    rw [he'] at hv hd ⊢
    split at hd
    · simp at hd
    · rename_i hne
      rw [if_neg hne] at hv ⊢
      exact hg i hi' k hk' hv hd j hj

/-! ## Invalidation (20_memory R92) -/

/-- The entry is written to MemoryImage by a flush. -/
def CacheEntry.flushes (e : CacheEntry) : Bool := e.valid && e.dirty

theorem flushSet_cons (c : Cache) (i : Nat) (e : CacheEntry) (es : List CacheEntry) (acc : Memory × Word) :
    flushSet c i (e :: es) acc =
      flushSet c i es (if e.flushes then (acc.1.writeBytes (c.blockAddr e.tag i) e.block, acc.2 + 1) else acc) := rfl

/-- Flushing some entries of a set keeps MemoryImage legal. -/
theorem flushSet_legal {c : Cache} {capacity i : Nat} (es : List CacheEntry) (acc : Memory × Word)
    (hm : memoryLegal capacity acc.1)
    (he : ∀ e ∈ es, e.flushes = true → c.blockAddr e.tag i + e.block.length ≤ capacity) :
    memoryLegal capacity (flushSet c i es acc).1 := by
  induction es generalizing acc with
  | nil => exact hm
  | cons e es ih =>
    rw [flushSet_cons]
    refine ih _ ?_ fun f hf => he f (List.mem_cons_of_mem _ hf)
    split
    · exact legal_writeBytes hm (he e (by simp) ‹_›)
    · exact hm

/-- A byte no flushed entry holds stays. -/
theorem flushSet_read_other {c : Cache} {i b : Nat} (es : List CacheEntry) (acc : Memory × Word)
    (he : ∀ e ∈ es, e.flushes = true → ¬(c.blockAddr e.tag i ≤ b ∧ b < c.blockAddr e.tag i + e.block.length)) :
    (flushSet c i es acc).1.read b = acc.1.read b := by
  induction es generalizing acc with
  | nil => rfl
  | cons e es ih =>
    rw [flushSet_cons, ih _ fun f hf => he f (List.mem_cons_of_mem _ hf)]
    split
    · have := he e (by simp) ‹_›
      exact read_writeBytes_outside _ _ _ _ (by omega)
    · rfl

/-- A byte one flushed entry holds, and no other, takes that entry's byte. -/
theorem flushSet_read_held {c : Cache} {capacity i b : Nat} (es : List CacheEntry) (acc : Memory × Word)
    (hm : memoryLegal capacity acc.1)
    (hin : ∀ e ∈ es, e.flushes = true → c.blockAddr e.tag i + e.block.length ≤ capacity)
    (hd : es.Pairwise fun e f => e.flushes = true → f.flushes = true →
      c.blockAddr e.tag i ≤ b ∧ b < c.blockAddr e.tag i + e.block.length →
      ¬(c.blockAddr f.tag i ≤ b ∧ b < c.blockAddr f.tag i + f.block.length))
    {e : CacheEntry} (he : e ∈ es) (hf : e.flushes = true)
    (hb : c.blockAddr e.tag i ≤ b ∧ b < c.blockAddr e.tag i + e.block.length) :
    (flushSet c i es acc).1.read b = e.block.getD (b - c.blockAddr e.tag i) 0 := by
  induction es generalizing acc with
  | nil => simp at he
  | cons f es ih =>
    obtain ⟨hd1, hd2⟩ := List.pairwise_cons.1 hd
    rw [flushSet_cons]
    rcases List.mem_cons.1 he with rfl | he
    · rw [flushSet_read_other _ _ fun g hg hgf => hd1 g hg hf hgf hb, if_pos hf]
      rw [read_writeBytes hm.1, if_pos hb]
    · refine ih _ ?_ (fun g hg => hin g (List.mem_cons_of_mem _ hg)) hd2 he
      split
      · exact legal_writeBytes hm (hin f (by simp) ‹_›)
      · exact hm

/-- What a flush of everything leaves in a byte: the dirty copy if there is one, else the byte before. -/
def flushedByte (c : Cache) (b : Nat) (before : Byte) : Byte :=
  match c.holding b with
  | some e => if e.dirty then e.block.getD (c.offset b) 0 else before
  | none => before

theorem flushSet_read {c : Cache} {capacity : Nat} (s : c.Slots capacity) {i b : Nat} (hi : i < c.numLines)
    (hb : b < 2 ^ 64) (acc : Memory × Word) (hm : memoryLegal capacity acc.1) :
    memoryLegal capacity (flushSet c i (c.set i) acc).1 ∧
      (flushSet c i (c.set i) acc).1.read b =
        if c.index b = i then flushedByte c b (acc.1.read b) else acc.1.read b := by
  have hmem : ∀ e ∈ c.set i, ∃ k < c.ways, e = c.entry i k := fun e he => by
    obtain ⟨k, hk, h⟩ := mem_set_iff.1 he
    exact ⟨k, s.slots i hi ▸ hk, h⟩
  have hlen : ∀ e ∈ c.set i, e.block.length = c.cfg.blockSize := fun e he => by
    obtain ⟨k, hk, rfl⟩ := hmem e he
    exact s.blocks i hi k hk
  have hin : ∀ e ∈ c.set i, e.flushes = true → c.blockAddr e.tag i + e.block.length ≤ capacity := fun e he hf => by
    rw [hlen e he]
    obtain ⟨k, hk, rfl⟩ := hmem e he
    simp only [CacheEntry.flushes, Bool.and_eq_true] at hf
    exact s.inMemory i hi k hk hf.1
  have hblk : ∀ e ∈ c.set i, (c.blockAddr e.tag i ≤ b ∧ b < c.blockAddr e.tag i + e.block.length) ↔
      c.index b = i ∧ c.tag b = e.tag := fun e he => by rw [hlen e he]; exact in_block_iff s e.tag hi hb
  refine ⟨flushSet_legal _ _ hm hin, ?_⟩
  by_cases hheld : ∃ k < c.ways, (c.entry i k).flushes = true ∧ c.index b = i ∧ c.tag b = (c.entry i k).tag
  · obtain ⟨k, hk, hf, h1, h2⟩ := hheld
    have he : c.entry i k ∈ c.set i := mem_set_iff.2 ⟨k, by rw [s.slots i hi]; exact hk, rfl⟩
    have hf' := hf
    simp only [CacheEntry.flushes, Bool.and_eq_true] at hf'
    rw [flushSet_read_held _ _ hm hin ?_ he hf ((hblk _ he).2 ⟨h1, h2⟩), if_pos h1]
    · unfold flushedByte Cache.holding
      rw [h1, lookup_eq_some s hi hk hf'.1 h2.symm]
      have := blockAddr_tag_index c hb
      rw [h1, h2] at this
      simp only [Option.map_some, hf'.2, if_true]
      congr 1
      omega
    · refine List.pairwise_iff_getElem.2 fun p q hp hq hpq hfp hfq hbp => ?_
      rw [hblk _ (List.getElem_mem hp)] at hbp
      rw [hblk _ (List.getElem_mem hq)]
      rintro ⟨-, h4⟩
      simp only [CacheEntry.flushes, Bool.and_eq_true] at hfp hfq
      rw [← entry_of_lt hp] at hfp hbp
      rw [← entry_of_lt hq] at hfq h4
      rw [s.slots i hi] at hp hq
      exact s.distinct i hi p hp q hq (by omega) hfp.1 hfq.1 (hbp.2.symm.trans h4)
  · rw [flushSet_read_other]
    · split
      · rename_i h1
        unfold flushedByte Cache.holding
        rw [h1]
        cases hl : c.lookup i (c.tag b) with
        | none => rfl
        | some k =>
          obtain ⟨h2, h3, h4⟩ := lookup_some hl
          have : (c.entry i k).dirty = false := by
            cases hdd : (c.entry i k).dirty with
            | false => rfl
            | true =>
              exact absurd ⟨k, s.slots i hi ▸ h2, by simp [CacheEntry.flushes, h3, hdd], h1, h4.symm⟩ hheld
          simp [this]
      · rfl
    · intro e he hf hbb
      rw [hblk e he] at hbb
      obtain ⟨k, hk, rfl⟩ := hmem e he
      exact hheld ⟨k, hk, hf, hbb⟩

theorem flushSets_read {c : Cache} {capacity : Nat} (s : c.Slots capacity) {b : Nat} (hb : b < 2 ^ 64)
    (rest : List (List CacheEntry)) (i : Nat) (hrest : i + rest.length = c.numLines)
    (hset : ∀ p (h : p < rest.length), rest[p] = c.set (i + p)) (acc : Memory × Word) (hm : memoryLegal capacity acc.1) :
    memoryLegal capacity (flushSets c i rest acc).1 ∧
      (flushSets c i rest acc).1.read b =
        if i ≤ c.index b then flushedByte c b (acc.1.read b) else acc.1.read b := by
  induction rest generalizing i acc with
  | nil =>
    refine ⟨hm, ?_⟩
    have := s.index_lt b
    simp only [List.length_nil] at hrest
    rw [if_neg (by omega)]
    rfl
  | cons es rest ih =>
    simp only [List.length_cons] at hrest
    have h0 := hset 0 (by simp)
    simp only [List.getElem_cons_zero, Nat.add_zero] at h0
    obtain ⟨h1, h2⟩ := flushSet_read s (i := i) (b := b) (by omega) hb acc hm
    rw [← h0] at h1 h2
    obtain ⟨h3, h4⟩ := ih (i + 1) (by omega) (fun p hp => by
      have := hset (p + 1) (by simpa using hp)
      simpa [Nat.add_assoc, Nat.add_comm 1 p] using this) (flushSet c i es acc) h1
    refine ⟨h3, ?_⟩
    show (flushSets c (i + 1) rest (flushSet c i es acc)).1.read b = _
    rw [h4, h2]
    by_cases e : c.index b = i
    · rw [if_neg (by omega), if_pos e, if_pos (by omega)]
    · rw [if_neg e]
      by_cases e' : i ≤ c.index b
      · rw [if_pos (by omega), if_pos e']
      · rw [if_neg (by omega), if_neg e']

/-- The flush of `Invalidate`, byte by byte. -/
theorem flushAll_read {c : Cache} {capacity : Nat} (s : c.Slots capacity) {b : Nat} (hb : b < 2 ^ 64)
    (acc : Memory × Word) (hm : memoryLegal capacity acc.1) :
    memoryLegal capacity (flushSets c 0 c.lines acc).1 ∧
      (flushSets c 0 c.lines acc).1.read b = flushedByte c b (acc.1.read b) := by
  have h := flushSets_read s hb c.lines 0 (by rw [Nat.zero_add]; exact s.sets) (fun p hp => by
    simp [Cache.set, hp]) acc hm
  simpa using h

theorem entry_cleared (c : Cache) (w : Word) (i k : Nat) :
    (({ c with lines := c.lines.map fun es => es.map clearEntry, writebacks := w } : Cache).entry i k)
      = clearEntry (c.entry i k) := by
  unfold Cache.entry Cache.set
  simp only [List.getD_eq_getElem?_getD, List.getElem?_map]
  cases c.lines[i]? with
  | none => rfl
  | some es =>
    simp only [Option.map_some, Option.getD_some, List.getElem?_map]
    cases es[k]? <;> rfl

theorem set_cleared (c : Cache) (w : Word) (i : Nat) :
    (({ c with lines := c.lines.map fun es => es.map clearEntry, writebacks := w } : Cache).set i).length
      = (c.set i).length := by
  unfold Cache.set
  simp only [List.getD_eq_getElem?_getD, List.getElem?_map]
  cases c.lines[i]? with
  | none => rfl
  | some es => simp

/-- `Invalidate` keeps the hierarchy legal, empties the cache and writes every dirty byte to MemoryImage
(20_memory R92). -/
theorem invalidate_spec {y : Hierarchy} {capacity : Nat} (h : y.Legal capacity) :
    y.invalidate.Legal capacity ∧ (∀ i k, (y.invalidate.cache.entry i k).valid = false) ∧
      (∀ b < 2 ^ 64, y.invalidate.mem.read b = flushedByte y.cache b (y.mem.read b)) ∧
      ∀ b, y.invalidate.view b = y.invalidate.mem.read b := by
  have s := h.slots
  have he := entry_cleared y.cache (flushSets y.cache 0 y.cache.lines (y.mem, y.cache.writebacks)).2
  have hset := set_cleared y.cache (flushSets y.cache 0 y.cache.lines (y.mem, y.cache.writebacks)).2
  have hv : ∀ i k, (y.invalidate.cache.entry i k).valid = false := fun i k => by
    have : y.invalidate.cache.entry i k = _ := he i k
    rw [this]
    rfl
  have hfl := fun b hb => flushAll_read s (b := b) hb (y.mem, y.cache.writebacks) h.memory
  refine ⟨⟨(hfl 0 (by omega)).1, s.legal, s.numLines, s.ways, ?_, ?_, ?_, ?_, ?_, ?_⟩, hv, fun b hb => (hfl b hb).2, ?_⟩
  · show (y.cache.lines.map _).length = _
    rw [List.length_map]
    exact s.sets
  · intro i hi
    exact (hset i).trans (s.slots i hi)
  · intro i hi k hk
    have : y.invalidate.cache.entry i k = _ := he i k
    rw [this]
    exact s.blocks i hi k hk
  · intro i _ k _ l _ _ hh
    rw [hv] at hh
    exact absurd hh (by decide)
  · intro _ i _ k _
    have : y.invalidate.cache.entry i k = _ := he i k
    rw [this]
    rfl
  · intro i _ k _ hh
    rw [hv] at hh
    exact absurd hh (by decide)
  · intro b
    refine view_of_none _ (lookup_none.2 fun k _ hh => ?_)
    rw [hv] at hh
    exact absurd hh (by decide)

/-- In a coherent hierarchy `Invalidate` makes MemoryImage the data view (20_memory R100, R107). -/
theorem flushedByte_eq_view {c : Cache} {capacity : Nat} (s : c.Slots capacity) {m : Memory} (g : c.coherent m) {b : Nat}
    (hb : b < 2 ^ 64) : flushedByte c b (m.read b) = cachedView c m b := by
  unfold flushedByte cachedView Cache.holding
  cases hl : c.lookup (c.index b) (c.tag b) with
  | none => rfl
  | some k =>
    obtain ⟨h1, h2, h3⟩ := lookup_some hl
    have hi := s.index_lt b
    rw [s.slots _ hi] at h1
    simp only [Option.map_some]
    split
    · rfl
    · rename_i hd
      have e := blockAddr_tag_index c hb
      have := (coherent_iff s).1 g _ hi k h1 h2 (by simpa using hd) _ (s.offset_lt b)
      rw [h3, e] at this
      exact this.symm

end Sys2Proof.Machine
end

