-- ==== Sys2Proof/Laws/State.lean ====
section
/-! SUPPORT. One lemma per field per update of `State`, and the laws of register reads and writes (10_state R21 to
R25). -/
namespace Sys2Proof.Machine

/-! ## Registers -/

@[simp] theorem readReg_zero (s : State) : s.readReg 0#5 = 0#64 := rfl

@[simp] theorem writeReg_zero (s : State) (v : Word) : s.writeReg 0#5 v = s := rfl

/-- The slots of different registers, neither x0, are different. -/
theorem regSlot_ne {q r : Reg} (hq : q ≠ 0#5) (hr : r ≠ 0#5) (h : q ≠ r) : r.toNat - 1 ≠ q.toNat - 1 := by
  intro e
  have hq' : q.toNat ≠ 0 := fun z => hq (BitVec.eq_of_toNat_eq (by simpa using z))
  have hr' : r.toNat ≠ 0 := fun z => hr (BitVec.eq_of_toNat_eq (by simpa using z))
  exact h (BitVec.eq_of_toNat_eq (by omega))

/-- A written register reads back, unless it is x0. -/
@[simp] theorem readReg_writeReg_same (s : State) (r : Reg) (v : Word) (h : r ≠ 0#5) : (s.writeReg r v).readReg r = v := by
  simp [State.readReg, State.writeReg, h]

/-- A write leaves every other register alone. -/
theorem readReg_writeReg_other (s : State) (r q : Reg) (v : Word) (h : q ≠ r) :
    (s.writeReg r v).readReg q = s.readReg q := by
  by_cases hr : r = 0#5
  · simp [hr]
  · by_cases hq : q = 0#5
    · simp [hq]
    · simp [State.readReg, State.writeReg, hr, hq, Vector.getElem_set_ne _ _ (regSlot_ne hq hr h)]

/-- Both cases of a read after a write. -/
theorem readReg_writeReg (s : State) (r q : Reg) (v : Word) :
    (s.writeReg r v).readReg q = if q = r ∧ r ≠ 0#5 then v else s.readReg q := by
  by_cases h : q = r
  · subst h
    by_cases hq : q = 0#5
    · simp [hq]
    · simp [hq]
  · simp [h, readReg_writeReg_other]

/-- States that read alike hold the same registers. -/
theorem x_ext {s t : State} (h : ∀ r, s.readReg r = t.readReg r) : s.x = t.x := by
  apply Vector.ext
  intro i hi
  have hr : (BitVec.ofNat 5 (i + 1)).toNat = i + 1 := by simp; omega
  have hne : BitVec.ofNat 5 (i + 1) ≠ 0#5 := fun e => by simp [e] at hr
  simpa [State.readReg, hne, hr] using h (BitVec.ofNat 5 (i + 1))

/-! ## Fields after updates -/

@[simp] theorem writeReg_pc (s : State) (r : Reg) (v : Word) : (s.writeReg r v).pc = s.pc := by
  unfold State.writeReg; split <;> rfl
@[simp] theorem writeReg_runState (s : State) (r : Reg) (v : Word) : (s.writeReg r v).runState = s.runState := by
  unfold State.writeReg; split <;> rfl
@[simp] theorem writeReg_fault (s : State) (r : Reg) (v : Word) : (s.writeReg r v).fault = s.fault := by
  unfold State.writeReg; split <;> rfl
@[simp] theorem writeReg_mem (s : State) (r : Reg) (v : Word) : (s.writeReg r v).mem = s.mem := by
  unfold State.writeReg; split <;> rfl
@[simp] theorem writeReg_cache (s : State) (r : Reg) (v : Word) : (s.writeReg r v).cache = s.cache := by
  unfold State.writeReg; split <;> rfl
@[simp] theorem writeReg_memCapacity (s : State) (r : Reg) (v : Word) : (s.writeReg r v).memCapacity = s.memCapacity := by
  unfold State.writeReg; split <;> rfl
@[simp] theorem writeReg_draws (s : State) (r : Reg) (v : Word) : (s.writeReg r v).draws = s.draws := by
  unfold State.writeReg; split <;> rfl
@[simp] theorem writeReg_events (s : State) (r : Reg) (v : Word) : (s.writeReg r v).events = s.events := by
  unfold State.writeReg; split <;> rfl

@[simp] theorem setPc_x (s : State) (t : Word) : (s.setPc t).x = s.x := rfl
@[simp] theorem setPc_pc (s : State) (t : Word) : (s.setPc t).pc = t := rfl
@[simp] theorem setPc_runState (s : State) (t : Word) : (s.setPc t).runState = s.runState := rfl
@[simp] theorem setPc_fault (s : State) (t : Word) : (s.setPc t).fault = s.fault := rfl
@[simp] theorem setPc_mem (s : State) (t : Word) : (s.setPc t).mem = s.mem := rfl
@[simp] theorem setPc_cache (s : State) (t : Word) : (s.setPc t).cache = s.cache := rfl
@[simp] theorem setPc_memCapacity (s : State) (t : Word) : (s.setPc t).memCapacity = s.memCapacity := rfl
@[simp] theorem setPc_draws (s : State) (t : Word) : (s.setPc t).draws = s.draws := rfl
@[simp] theorem setPc_events (s : State) (t : Word) : (s.setPc t).events = s.events := rfl
@[simp] theorem setPc_readReg (s : State) (t : Word) (r : Reg) : (s.setPc t).readReg r = s.readReg r := rfl

@[simp] theorem emit_x (s : State) (e : Event) : (s.emit e).x = s.x := rfl
@[simp] theorem emit_pc (s : State) (e : Event) : (s.emit e).pc = s.pc := rfl
@[simp] theorem emit_runState (s : State) (e : Event) : (s.emit e).runState = s.runState := rfl
@[simp] theorem emit_fault (s : State) (e : Event) : (s.emit e).fault = s.fault := rfl
@[simp] theorem emit_mem (s : State) (e : Event) : (s.emit e).mem = s.mem := rfl
@[simp] theorem emit_cache (s : State) (e : Event) : (s.emit e).cache = s.cache := rfl
@[simp] theorem emit_memCapacity (s : State) (e : Event) : (s.emit e).memCapacity = s.memCapacity := rfl
@[simp] theorem emit_draws (s : State) (e : Event) : (s.emit e).draws = s.draws := rfl
@[simp] theorem emit_events (s : State) (e : Event) : (s.emit e).events = e :: s.events := rfl
@[simp] theorem emit_readReg (s : State) (e : Event) (r : Reg) : (s.emit e).readReg r = s.readReg r := rfl

@[simp] theorem halt_x (s : State) : (s.halt).x = s.x := rfl
@[simp] theorem halt_pc (s : State) : (s.halt).pc = s.pc := rfl
@[simp] theorem halt_runState (s : State) : (s.halt).runState = .halted := rfl
@[simp] theorem halt_fault (s : State) : (s.halt).fault = s.fault := rfl
@[simp] theorem halt_mem (s : State) : (s.halt).mem = s.mem := rfl
@[simp] theorem halt_cache (s : State) : (s.halt).cache = s.cache := rfl
@[simp] theorem halt_memCapacity (s : State) : (s.halt).memCapacity = s.memCapacity := rfl
@[simp] theorem halt_draws (s : State) : (s.halt).draws = s.draws := rfl
@[simp] theorem halt_events (s : State) : (s.halt).events = .halted s.pc :: s.events := rfl
@[simp] theorem halt_readReg (s : State) (r : Reg) : (s.halt).readReg r = s.readReg r := rfl

@[simp] theorem raise_x (s : State) (c : FaultCause) (i : FaultInfo) : (s.raise c i).x = s.x := rfl
@[simp] theorem raise_pc (s : State) (c : FaultCause) (i : FaultInfo) : (s.raise c i).pc = s.pc := rfl
@[simp] theorem raise_runState (s : State) (c : FaultCause) (i : FaultInfo) : (s.raise c i).runState = .faulted := rfl
@[simp] theorem raise_fault (s : State) (c : FaultCause) (i : FaultInfo) : (s.raise c i).fault = some ⟨c, s.pc, i⟩ := rfl
@[simp] theorem raise_mem (s : State) (c : FaultCause) (i : FaultInfo) : (s.raise c i).mem = s.mem := rfl
@[simp] theorem raise_cache (s : State) (c : FaultCause) (i : FaultInfo) : (s.raise c i).cache = s.cache := rfl
@[simp] theorem raise_memCapacity (s : State) (c : FaultCause) (i : FaultInfo) : (s.raise c i).memCapacity = s.memCapacity := rfl
@[simp] theorem raise_draws (s : State) (c : FaultCause) (i : FaultInfo) : (s.raise c i).draws = s.draws := rfl
@[simp] theorem raise_events (s : State) (c : FaultCause) (i : FaultInfo) : (s.raise c i).events = .fault ⟨c, s.pc, i⟩ :: s.events := rfl
@[simp] theorem raise_readReg (s : State) (c : FaultCause) (i : FaultInfo) (r : Reg) : (s.raise c i).readReg r = s.readReg r := rfl

@[simp] theorem advance_x (s : State) : (s.advance).x = s.x := rfl
@[simp] theorem advance_pc (s : State) : (s.advance).pc = s.pc + 4 := rfl
@[simp] theorem advance_runState (s : State) : (s.advance).runState = s.runState := rfl
@[simp] theorem advance_fault (s : State) : (s.advance).fault = s.fault := rfl
@[simp] theorem advance_mem (s : State) : (s.advance).mem = s.mem := rfl
@[simp] theorem advance_cache (s : State) : (s.advance).cache = s.cache := rfl
@[simp] theorem advance_memCapacity (s : State) : (s.advance).memCapacity = s.memCapacity := rfl
@[simp] theorem advance_draws (s : State) : (s.advance).draws = s.draws := rfl
@[simp] theorem advance_events (s : State) : (s.advance).events = s.events := rfl
@[simp] theorem advance_readReg (s : State) (r : Reg) : (s.advance).readReg r = s.readReg r := rfl

@[simp] theorem withHierarchy_x (s : State) (y : Hierarchy) : (s.withHierarchy y).x = s.x := rfl
@[simp] theorem withHierarchy_pc (s : State) (y : Hierarchy) : (s.withHierarchy y).pc = s.pc := rfl
@[simp] theorem withHierarchy_runState (s : State) (y : Hierarchy) : (s.withHierarchy y).runState = s.runState := rfl
@[simp] theorem withHierarchy_fault (s : State) (y : Hierarchy) : (s.withHierarchy y).fault = s.fault := rfl
@[simp] theorem withHierarchy_mem (s : State) (y : Hierarchy) : (s.withHierarchy y).mem = y.mem := rfl
@[simp] theorem withHierarchy_cache (s : State) (y : Hierarchy) : (s.withHierarchy y).cache = some y.cache := rfl
@[simp] theorem withHierarchy_memCapacity (s : State) (y : Hierarchy) : (s.withHierarchy y).memCapacity = s.memCapacity := rfl
@[simp] theorem withHierarchy_draws (s : State) (y : Hierarchy) : (s.withHierarchy y).draws = y.draws := rfl
@[simp] theorem withHierarchy_events (s : State) (y : Hierarchy) : (s.withHierarchy y).events = y.events := rfl
@[simp] theorem withHierarchy_readReg (s : State) (y : Hierarchy) (r : Reg) : (s.withHierarchy y).readReg r = s.readReg r := rfl

@[simp] theorem retire_runState (s : State) (rd : Reg) (v : Word) : (s.retire rd v).runState = s.runState := by simp [State.retire]
@[simp] theorem retire_fault (s : State) (rd : Reg) (v : Word) : (s.retire rd v).fault = s.fault := by simp [State.retire]
@[simp] theorem retire_mem (s : State) (rd : Reg) (v : Word) : (s.retire rd v).mem = s.mem := by simp [State.retire]
@[simp] theorem retire_cache (s : State) (rd : Reg) (v : Word) : (s.retire rd v).cache = s.cache := by simp [State.retire]
@[simp] theorem retire_memCapacity (s : State) (rd : Reg) (v : Word) : (s.retire rd v).memCapacity = s.memCapacity := by simp [State.retire]
@[simp] theorem retire_draws (s : State) (rd : Reg) (v : Word) : (s.retire rd v).draws = s.draws := by simp [State.retire]
@[simp] theorem retire_events (s : State) (rd : Reg) (v : Word) : (s.retire rd v).events = s.events := by simp [State.retire]
@[simp] theorem retire_pc (s : State) (rd : Reg) (v : Word) : (s.retire rd v).pc = s.pc + 4 := rfl
theorem retire_readReg (s : State) (rd q : Reg) (v : Word) :
    (s.retire rd v).readReg q = if q = rd ∧ rd ≠ 0#5 then v else s.readReg q := readReg_writeReg s rd q v

/-! ## The hierarchy of a state -/

@[simp] theorem hierarchy_mem (s : State) (c : Cache) : (s.hierarchy c).mem = s.mem := rfl
@[simp] theorem hierarchy_cache (s : State) (c : Cache) : (s.hierarchy c).cache = c := rfl
@[simp] theorem hierarchy_draws (s : State) (c : Cache) : (s.hierarchy c).draws = s.draws := rfl
@[simp] theorem hierarchy_events (s : State) (c : Cache) : (s.hierarchy c).events = s.events := rfl

end Sys2Proof.Machine
end

