-- ==== Sys2Proof/Laws/Arbiter.lean ====
section
/-! SUPPORT. What the memory arbiter can do (20_memory R55, R57, R58): when an access is refused, what it leaves alone,
and that it keeps the invariant's parts and the data view. -/
namespace Sys2Proof.Machine

theorem inRange_iff {capacity a n : Nat} : inRange capacity a n = true ↔ a + n ≤ capacity := by simp [inRange]

/-- A read is refused exactly when it is out of range (20_memory R55). -/
theorem memRead_none {s : State} {a : Word} {n : Nat} : s.memRead a n = none ↔ s.memCapacity < a.toNat + n := by
  unfold State.memRead
  split
  · rename_i h
    have := inRange_iff.1 h
    cases s.cache <;> simp <;> omega
  · rename_i h
    rw [inRange_iff] at h
    simp
    omega

/-- A write is refused exactly when it is out of range (20_memory R55). -/
theorem memWrite_none {s : State} {a : Word} {n : Nat} {v : Word} :
    s.memWrite a n v = none ↔ s.memCapacity < a.toNat + n := by
  unfold State.memWrite
  split
  · rename_i h
    have := inRange_iff.1 h
    cases s.cache <;> simp <;> omega
  · rename_i h
    rw [inRange_iff] at h
    simp
    omega

/-- A read with the cache disabled (20_memory R57). -/
theorem memRead_uncached {s : State} {a : Word} {n : Nat} (hc : s.cache = none) (hr : a.toNat + n ≤ s.memCapacity) :
    s.memRead a n = some (s.mem.rawRead a.toNat n, s) := by
  unfold State.memRead
  rw [if_pos (inRange_iff.2 hr), hc]

/-- A read with the cache enabled (20_memory R57). -/
theorem memRead_cached {s : State} {a : Word} {n : Nat} {c : Cache} (hc : s.cache = some c)
    (hr : a.toNat + n ≤ s.memCapacity) :
    s.memRead a n = some (((s.hierarchy c).cacheRead a n).1, s.withHierarchy ((s.hierarchy c).cacheRead a n).2) := by
  unfold State.memRead
  rw [if_pos (inRange_iff.2 hr), hc]

/-- A write with the cache disabled (20_memory R58). -/
theorem memWrite_uncached {s : State} {a : Word} {n : Nat} {v : Word} (hc : s.cache = none)
    (hr : a.toNat + n ≤ s.memCapacity) : s.memWrite a n v = some { s with mem := s.mem.rawWrite a.toNat n v } := by
  unfold State.memWrite
  rw [if_pos (inRange_iff.2 hr), hc]

/-- A write with the cache enabled (20_memory R58). -/
theorem memWrite_cached {s : State} {a : Word} {n : Nat} {v : Word} {c : Cache} (hc : s.cache = some c)
    (hr : a.toNat + n ≤ s.memCapacity) :
    s.memWrite a n v = some (s.withHierarchy ((s.hierarchy c).cacheWrite a n v)) := by
  unfold State.memWrite
  rw [if_pos (inRange_iff.2 hr), hc]

/-- What no data access touches (10_state R30). -/
structure SameCore (s t : State) : Prop where
  x           : t.x = s.x
  pc          : t.pc = s.pc
  runState    : t.runState = s.runState
  fault       : t.fault = s.fault
  memCapacity : t.memCapacity = s.memCapacity
  enabled     : t.cache.isSome = s.cache.isSome

theorem memRead_core {s t : State} {a v : Word} {n : Nat} (h : s.memRead a n = some (v, t)) : SameCore s t := by
  have hr : a.toNat + n ≤ s.memCapacity := by
    by_contra hh
    rw [memRead_none.2 (by omega)] at h
    cases h
  cases hc : s.cache with
  | none =>
    rw [memRead_uncached hc hr] at h
    cases h
    exact ⟨rfl, rfl, rfl, rfl, rfl, rfl⟩
  | some c =>
    rw [memRead_cached hc hr] at h
    cases h
    exact ⟨rfl, rfl, rfl, rfl, rfl, by simp [hc]⟩

theorem memWrite_core {s t : State} {a v : Word} {n : Nat} (h : s.memWrite a n v = some t) : SameCore s t := by
  have hr : a.toNat + n ≤ s.memCapacity := by
    by_contra hh
    rw [memWrite_none.2 (by omega)] at h
    cases h
  cases hc : s.cache with
  | none =>
    rw [memWrite_uncached hc hr] at h
    cases h
    exact ⟨rfl, rfl, rfl, rfl, rfl, rfl⟩
  | some c =>
    rw [memWrite_cached hc hr] at h
    cases h
    exact ⟨rfl, rfl, rfl, rfl, rfl, by simp [hc]⟩

theorem readReg_of_x {s t : State} (h : t.x = s.x) (r : Reg) : t.readReg r = s.readReg r := by simp [State.readReg, h]

theorem SameCore.readReg {s t : State} (h : SameCore s t) (r : Reg) : t.readReg r = s.readReg r := readReg_of_x h.x r

/-! ## The memory part of the invariant -/

/-- Capacity, MemoryImage and the cache are legal (Safety.lean). -/
structure State.MemLegal (s : State) : Prop where
  capacity : capacityLegal s.memCapacity
  memory   : memoryLegal s.memCapacity s.mem
  cached   : cacheLegal s.memCapacity s.cache

theorem State.MemLegal.hierarchy {s : State} (h : s.MemLegal) {c : Cache} (hc : s.cache = some c) :
    (s.hierarchy c).Legal s.memCapacity := ⟨h.memory, legal_iff_slots.1 (h.cached c hc)⟩

theorem memLegal_withHierarchy {s : State} (h : s.MemLegal) {y : Hierarchy} (hy : y.Legal s.memCapacity) :
    (s.withHierarchy y).MemLegal := by
  refine ⟨h.capacity, hy.memory, fun c hc => ?_⟩
  cases hc
  exact legal_iff_slots.2 hy.slots

/-- A read keeps the memory part of the invariant. -/
theorem memRead_legal {s t : State} (h : s.MemLegal) {a v : Word} {n : Nat} (hn : 0 < n)
    (hm : s.memRead a n = some (v, t)) : t.MemLegal := by
  have hr : a.toNat + n ≤ s.memCapacity := by
    by_contra hh
    rw [memRead_none.2 (by omega)] at hm
    cases hm
  cases hc : s.cache with
  | none =>
    rw [memRead_uncached hc hr] at hm
    cases hm
    exact h
  | some c =>
    rw [memRead_cached hc hr] at hm
    cases hm
    exact memLegal_withHierarchy h (cacheRead_legal (h.hierarchy hc) h.capacity.2.1 hr hn)

/-- A write keeps the memory part of the invariant. -/
theorem memWrite_legal {s t : State} (h : s.MemLegal) {a v : Word} {n : Nat} (hn : 0 < n)
    (hm : s.memWrite a n v = some t) : t.MemLegal := by
  have hr : a.toNat + n ≤ s.memCapacity := by
    by_contra hh
    rw [memWrite_none.2 (by omega)] at hm
    cases hm
  cases hc : s.cache with
  | none =>
    rw [memWrite_uncached hc hr] at hm
    cases hm
    exact ⟨h.capacity, legal_rawWrite h.memory v hr, by rw [hc]; exact fun c hc => by cases hc⟩
  | some c =>
    rw [memWrite_cached hc hr] at hm
    cases hm
    exact memLegal_withHierarchy h (cacheWrite_legal (h.hierarchy hc) h.capacity.2.1 hr hn v)

/-! ## The data view (20_memory R100) -/

theorem dataView_uncached {s : State} (hc : s.cache = none) (b : Nat) : s.dataView b = s.mem.read b := by
  simp [State.dataView, hc]

theorem dataView_cached {s : State} {c : Cache} (hc : s.cache = some c) (b : Nat) :
    s.dataView b = (s.hierarchy c).view b := by
  simp [State.dataView, hc, Hierarchy.view]

theorem withHierarchy_dataView (s : State) (y : Hierarchy) (b : Nat) : (s.withHierarchy y).dataView b = y.view b := rfl

theorem bypasses_cached {s : State} {c : Cache} (hc : s.cache = some c) (a : Word) (n : Nat) :
    s.bypasses a n = c.spans a.toNat n := by simp [State.bypasses, hc]

/-- The value of an access that does not go around the cache: the data view's bytes. -/
theorem memRead_value {s t : State} (h : s.MemLegal) {a v : Word} {n : Nat} (hn : 0 < n)
    (hm : s.memRead a n = some (v, t)) : v = leWord (s.accessBytes a n) := by
  have hr : a.toNat + n ≤ s.memCapacity := by
    by_contra hh
    rw [memRead_none.2 (by omega)] at hm
    cases hm
  unfold State.accessBytes
  cases hc : s.cache with
  | none =>
    rw [memRead_uncached hc hr] at hm
    cases hm
    simp [State.bypasses, hc, dataView_uncached hc, Memory.rawRead, Memory.readBytes]
  | some c =>
    rw [memRead_cached hc hr] at hm
    cases hm
    rw [bypasses_cached hc]
    cases hs : c.spans a.toNat n with
    | true =>
      have hs' : (s.hierarchy c).cache.spans a.toNat n = true := hs
      unfold Hierarchy.cacheRead
      rw [if_pos hs']
      rfl
    | false =>
      rw [cacheRead_value (h.hierarchy hc) h.capacity.2.1 hr hn hs]
      simp [Hierarchy.viewBytes, dataView_cached hc]

/-- A read that does not go around a coherent cache changes no byte of the data view, and the cache stays coherent. -/
theorem memRead_dataView {s t : State} (h : s.MemLegal) (g : s.coherent) {a v : Word} {n : Nat} (hn : 0 < n)
    (hb : s.bypasses a n = false) (hm : s.memRead a n = some (v, t)) :
    (∀ b < 2 ^ 64, t.dataView b = s.dataView b) ∧ t.coherent ∧ t.events = s.events := by
  have hr : a.toNat + n ≤ s.memCapacity := by
    by_contra hh
    rw [memRead_none.2 (by omega)] at hm
    cases hm
  cases hc : s.cache with
  | none =>
    rw [memRead_uncached hc hr] at hm
    cases hm
    exact ⟨fun _ _ => rfl, g, rfl⟩
  | some c =>
    rw [memRead_cached hc hr] at hm
    cases hm
    rw [bypasses_cached hc] at hb
    have hv := cacheRead_view (h.hierarchy hc) h.capacity.2.1 hr hn hb (g c hc)
    refine ⟨fun b hb' => ?_, fun d hd => ?_, ?_⟩
    · rw [dataView_cached hc]
      exact hv.1 b hb'
    · cases hd
      exact hv.2
    · rw [withHierarchy_events, cacheRead_state hb]
      unfold Hierarchy.obtain
      split
      · rfl
      · show (Hierarchy.install _ _ _).events = _
        unfold Hierarchy.install Hierarchy.writeBackVictim Hierarchy.countDraw
        dsimp only
        repeat' split
        all_goals rfl

/-- A write that does not go around a coherent cache stores its bytes in the data view and changes no other byte of it,
and the cache stays coherent. -/
theorem memWrite_dataView {s t : State} (h : s.MemLegal) (g : s.coherent) {a v : Word} {n : Nat} (hn : 0 < n)
    (hb : s.bypasses a n = false) (hm : s.memWrite a n v = some t) :
    (∀ b < 2 ^ 64, t.dataView b = storedByte s.dataView a.toNat n v b) ∧ t.coherent ∧ t.events = s.events := by
  have hr : a.toNat + n ≤ s.memCapacity := by
    by_contra hh
    rw [memWrite_none.2 (by omega)] at hm
    cases hm
  cases hc : s.cache with
  | none =>
    rw [memWrite_uncached hc hr] at hm
    cases hm
    refine ⟨fun b _ => ?_, ?_, rfl⟩
    · rw [dataView_uncached (s := { s with mem := s.mem.rawWrite a.toNat n v }) hc]
      refine (read_rawWrite h.memory.1 a.toNat n v b).trans ?_
      unfold storedByte
      rw [dataView_uncached hc]
    · intro d hd
      rw [show ({ s with mem := s.mem.rawWrite a.toNat n v } : State).cache = s.cache from rfl, hc] at hd
      cases hd
  | some c =>
    rw [memWrite_cached hc hr] at hm
    cases hm
    rw [bypasses_cached hc] at hb
    refine ⟨fun b hb' => ?_, fun d hd => ?_, ?_⟩
    · rw [withHierarchy_dataView, cacheWrite_view (h.hierarchy hc) h.capacity.2.1 hr hn hb (g c hc) v b hb']
      unfold storedByte
      rw [dataView_cached hc]
    · cases hd
      exact cacheWrite_coherent (h.hierarchy hc) h.capacity.2.1 hr hn hb (g c hc) v
    · rw [withHierarchy_events]
      have hb' : (s.hierarchy c).cache.spans a.toNat n = false := hb
      unfold Hierarchy.cacheWrite
      simp only [hb', Bool.false_eq_true, if_false]
      split
      · unfold Hierarchy.writeThrough
        dsimp only
        split <;> rfl
      · show ((s.hierarchy c).obtain a.toNat).2.events = _
        unfold Hierarchy.obtain
        split
        · rfl
        · show (Hierarchy.install _ _ _).events = _
          unfold Hierarchy.install Hierarchy.writeBackVictim Hierarchy.countDraw
          dsimp only
          repeat' split
          all_goals rfl

end Sys2Proof.Machine
end

