-- ==== Sys2Proof/Laws/Counters.lean ====
section
/-! SUPPORT. What an access counts (20_memory R79 to R86), said once for each operation of the cache controller. -/
namespace Sys2Proof.Machine

theorem writeBackVictim_counters (y : Hierarchy) (i k : Nat) :
    (y.writeBackVictim i k).cache.hits = y.cache.hits ∧ (y.writeBackVictim i k).cache.misses = y.cache.misses ∧
      (y.writeBackVictim i k).cache.logicalClock = y.cache.logicalClock := by
  unfold Hierarchy.writeBackVictim
  dsimp only
  split <;> exact ⟨rfl, rfl, rfl⟩

/-- A fill counts nothing and stamps once (20_memory R79). -/
theorem fill_counters (y : Hierarchy) (a : Nat) :
    (y.fill a).2.cache.hits = y.cache.hits ∧ (y.fill a).2.cache.misses = y.cache.misses ∧
      (y.fill a).2.cache.logicalClock = y.cache.logicalClock + 1 := by
  have h := writeBackVictim_counters (y.countDraw (y.cache.index a)) (y.cache.index a) (y.fill a).1
  rw [countDraw_cache] at h
  rw [fill_eq]
  exact ⟨(stamp_hits ..).trans h.1, (stamp_misses ..).trans h.2.1,
    (stamp_logicalClock ..).trans (congrArg (· + 1) h.2.2)⟩

/-- A hit counts one hit (20_memory R81). -/
theorem hit_counters (y : Hierarchy) (i k : Nat) :
    (y.hit i k).cache.cfg = y.cache.cfg ∧ (y.hit i k).cache.hits = y.cache.hits + 1 ∧
      (y.hit i k).cache.misses = y.cache.misses := by
  unfold Hierarchy.hit Cache.touch
  dsimp only
  split <;> exact ⟨rfl, rfl, rfl⟩

/-- A counted access at `a`: one hit where a valid entry holds `a`, else one miss; the configuration stays (20_memory
R81, R85, R86). -/
structure Counted (c d : Cache) (a : Nat) : Prop where
  cfg    : d.cfg = c.cfg
  counts : if (c.holding a).isSome = true then d.hits = c.hits + 1 ∧ d.misses = c.misses
    else d.hits = c.hits ∧ d.misses = c.misses + 1

theorem obtain_counted (y : Hierarchy) (a : Nat) : Counted y.cache (y.obtain a).2.cache a := by
  unfold Hierarchy.obtain
  cases hl : y.cache.lookup (y.cache.index a) (y.cache.tag a) with
  | some k =>
    obtain ⟨h1, h2, h3⟩ := hit_counters y (y.cache.index a) k
    exact ⟨h1, by rw [if_pos (by simp [Cache.holding, hl])]; exact ⟨h2, h3⟩⟩
  | none =>
    obtain ⟨h1, h2, _⟩ := fill_counters y.miss a
    exact ⟨fill_cfg .., by rw [if_neg (by simp [Cache.holding, hl])]; exact ⟨h1, h2⟩⟩

theorem writeThrough_counted (y : Hierarchy) (a n : Nat) (v : Word) : Counted y.cache (y.writeThrough a n v).cache a := by
  unfold Hierarchy.writeThrough
  dsimp only
  cases hl : y.cache.lookup (y.cache.index a) (y.cache.tag a) with
  | some k =>
    obtain ⟨h1, h2, h3⟩ := hit_counters
      { y with
        mem := y.mem.rawWrite a n v
        cache := y.cache.updateEntry (y.cache.index a) k fun e =>
          { e with block := blockWrite e.block (y.cache.offset a) (leBytes n v) } } (y.cache.index a) k
    exact ⟨h1, by rw [if_pos (by simp [Cache.holding, hl])]; exact ⟨h2, h3⟩⟩
  | none =>
    exact ⟨rfl, by rw [if_neg (by simp [Cache.holding, hl])]; exact ⟨rfl, rfl⟩⟩

theorem writeBack_counted (y : Hierarchy) (a n : Nat) (v : Word) : Counted y.cache (y.writeBack a n v).cache a := by
  have h := obtain_counted y a
  exact ⟨h.cfg, h.counts⟩

theorem cacheWrite_counted (y : Hierarchy) {a : Word} {n : Nat} (v : Word) (hs : y.cache.spans a.toNat n = false) :
    Counted y.cache (y.cacheWrite a n v).cache a.toNat := by
  unfold Hierarchy.cacheWrite
  rw [if_neg (by simp [hs])]
  split
  · exact writeThrough_counted ..
  · exact writeBack_counted ..

theorem cacheWrite_cfg (y : Hierarchy) (a : Word) (n : Nat) (v : Word) : (y.cacheWrite a n v).cache.cfg = y.cache.cfg := by
  cases hs : y.cache.spans a.toNat n with
  | false => exact (cacheWrite_counted y v hs).cfg
  | true => unfold Hierarchy.cacheWrite; rw [if_pos hs]; rfl

/-! ## Invalidation (20_memory R92) -/

theorem flushSet_count (c : Cache) (i : Nat) (es : List CacheEntry) (acc : Memory × Word) :
    (flushSet c i es acc).2 = acc.2 + BitVec.ofNat 64 (es.countP fun e => e.valid && e.dirty) := by
  induction es generalizing acc with
  | nil => simp [flushSet]
  | cons e es ih =>
    unfold flushSet
    rw [ih, List.countP_cons]
    split
    · simp [BitVec.ofNat_add, BitVec.add_assoc, BitVec.add_comm]
    · simp

/-- A flush counts each valid dirty entry once. -/
theorem flushSets_count (c : Cache) (i : Nat) (ls : List (List CacheEntry)) (acc : Memory × Word) :
    (flushSets c i ls acc).2 = acc.2 + BitVec.ofNat 64 (ls.flatten.countP fun e => e.valid && e.dirty) := by
  induction ls generalizing i acc with
  | nil => simp [flushSets]
  | cons e es ih =>
    unfold flushSets
    rw [ih, flushSet_count, List.flatten_cons, List.countP_append, BitVec.ofNat_add, BitVec.add_assoc]

end Sys2Proof.Machine
end

