-- ==== Sys2Proof/Laws/Debug.lean ====
section
/-! SUPPORT. What each operation of the DebugController does to the call stack (60_exceptions R246, R247). -/
namespace Sys2Proof.Machine

@[simp] theorem push_callStack (d : DebugController) (f : Frame) : (d.push f).callStack = f :: d.callStack := rfl
@[simp] theorem push_root (d : DebugController) (f : Frame) : (d.push f).root = d.root := rfl
@[simp] theorem push_pushed (d : DebugController) (f : Frame) : (d.push f).pushed = f :: d.pushed := rfl

@[simp] theorem popRoot_callStack (d : DebugController) : d.popRoot.callStack = d.pushed := List.append_nil d.pushed
@[simp] theorem popRoot_root (d : DebugController) : d.popRoot.root = none := rfl
@[simp] theorem popRoot_pushed (d : DebugController) : d.popRoot.pushed = d.pushed := rfl

/-- A pop drops the top frame, whichever it is, and does nothing to an empty stack. -/
@[simp] theorem pop_callStack (d : DebugController) : d.pop.callStack = d.callStack.tail := by
  obtain ⟨breakpoints, pushed, root, labels, lines⟩ := d
  cases pushed with
  | cons f fs => rfl
  | nil => cases root <;> rfl

/-- Recording a line rewrites the top frame's line and nothing else. -/
@[simp] theorem recordLine_callStack (d : DebugController) (line : Option Nat) :
    (d.recordLine line).callStack = d.callStack.modifyHead fun f => { f with line := line } := by
  obtain ⟨breakpoints, pushed, root, labels, lines⟩ := d
  cases pushed with
  | cons f fs => rfl
  | nil => cases root <;> rfl

@[simp] theorem recordLine_pushed_length (d : DebugController) (line : Option Nat) :
    (d.recordLine line).pushed.length = d.pushed.length := by
  obtain ⟨breakpoints, pushed, root, labels, lines⟩ := d
  cases pushed <;> rfl

@[simp] theorem recordLine_root_isSome (d : DebugController) (line : Option Nat) :
    (d.recordLine line).root.isSome = d.root.isSome := by
  obtain ⟨breakpoints, pushed, root, labels, lines⟩ := d
  cases pushed <;> cases root <;> rfl

/-- What an observation and a recorded line leave alone. -/
structure SameMetadata (d d' : DebugController) : Prop where
  breakpoints : d'.breakpoints = d.breakpoints
  labels      : d'.labels = d.labels
  lines       : d'.lines = d.lines

theorem recordLine_metadata (d : DebugController) (line : Option Nat) : SameMetadata d (d.recordLine line) := by
  unfold DebugController.recordLine
  split <;> exact ⟨rfl, rfl, rfl⟩

theorem observe_metadata (d : DebugController) (e : Event) : SameMetadata d (d.observe e) := by
  unfold DebugController.observe DebugController.pop
  split
  case h_2 => split <;> exact ⟨rfl, rfl, rfl⟩
  all_goals exact ⟨rfl, rfl, rfl⟩

/-- Any run of events leaves the breakpoints and the metadata. -/
theorem foldl_observe_metadata (es : List Event) (d : DebugController) :
    SameMetadata d (es.foldl DebugController.observe d) := by
  induction es generalizing d with
  | nil => exact ⟨rfl, rfl, rfl⟩
  | cons e es ih =>
    have h := observe_metadata d e
    have g := ih (d.observe e)
    exact ⟨g.breakpoints.trans h.breakpoints, g.labels.trans h.labels, g.lines.trans h.lines⟩

/-- The message exactly when there is no frame, else the frames. -/
theorem showStack_spec (d : DebugController) :
    (d.showStack = .executionComplete ↔ d.callStack = []) ∧ ∀ fs, d.showStack = .frames fs → fs = d.callStack := by
  unfold DebugController.showStack
  cases d.callStack with
  | nil => simp
  | cons f fs => simp

/-- A step that reports one event is observed as that event; one that reports none as nothing. -/
theorem newEvents_one {s t : State} {e : Event} (h : t.events = e :: s.events) : newEvents s t = [e] := by
  unfold newEvents
  rw [h]
  simp

theorem newEvents_none {s t : State} (h : t.events = s.events) : newEvents s t = [] := by
  unfold newEvents
  rw [h]
  simp

end Sys2Proof.Machine
end

