-- ==== Sys2Proof/Laws/Decode.lean ====
section
/-! SUPPORT. Decoding is unambiguous: no two rows of the table share a word (30_encoding R121), so a word that selects
a row decodes by it; and the decoder on bytes is the decoder on the word they make. -/
namespace Sys2Proof

/-- What two rows that share a word agree on. -/
theorem shared_word_agrees {w m p m' p' : InstrWord} (h : w &&& m = p) (h' : w &&& m' = p') :
    (p ^^^ p') &&& (m &&& m') = 0#32 := by
  subst h h'
  ext i hi
  simp only [BitVec.getElem_and, BitVec.getElem_xor, BitVec.getElem_zero]
  cases w[i] <;> cases m[i] <;> cases m'[i] <;> rfl

/-- The rows differ pairwise in a bit both fix. -/
theorem rows_differ : rows.Pairwise fun r q => (r.pattern ^^^ q.pattern) &&& (r.mask &&& q.mask) ≠ 0#32 := by decide

/-- No word selects two rows (30_encoding R121). -/
theorem rows_disjoint : rows.Pairwise fun r q => ∀ w, r.selects w = true → q.selects w = false := by
  refine rows_differ.imp fun {r q} h w hr => ?_
  cases hq : q.selects w with
  | false => rfl
  | true => exact absurd (shared_word_agrees (by simpa [Row.selects] using hr) (by simpa [Row.selects] using hq)) h

/-- In a list of disjoint tests, the one that holds is the one found. -/
theorem find_of_disjoint {α : Type} (p : α → Bool) {l : List α} (hd : l.Pairwise fun a b => p a = true → p b = false)
    {a : α} (ha : a ∈ l) (hp : p a = true) : l.find? p = some a := by
  induction l with
  | nil => simp at ha
  | cons b l ih =>
    obtain ⟨h1, h2⟩ := List.pairwise_cons.1 hd
    rcases List.mem_cons.1 ha with rfl | ha
    · simp [hp]
    · cases hb : p b with
      | true => simp [h1 a ha hb] at hp
      | false => simp [hb, ih h2 ha]

/-- A word that selects a row decodes by it (30_encoding R121). -/
theorem decode_of_selects {r : Row} (hr : r ∈ rows) {w : InstrWord} (h : w &&& r.mask = r.pattern) :
    decode w = .ok (r.build w) := by
  have hf := find_of_disjoint (·.selects w) (rows_disjoint.imp fun h => h w) hr (by simpa [Row.selects] using h)
  simp only [decode, hf]

/-- A word decodes exactly when it selects a row, and then by that row (30_encoding R121). -/
theorem decode_ok_iff {w : InstrWord} {i : Instr} :
    decode w = .ok i ↔ ∃ r ∈ rows, w &&& r.mask = r.pattern ∧ i = r.build w := by
  constructor
  · intro h
    unfold decode at h
    split at h
    · rename_i r hr
      have hs := List.find?_some hr
      exact ⟨r, List.mem_of_find?_eq_some hr, by simpa [Row.selects] using hs, by simpa using h.symm⟩
    · simp at h
  · rintro ⟨r, hr, hs, rfl⟩
    exact decode_of_selects hr hs

/-- A word is rejected exactly when it selects no row (30_encoding R124). -/
theorem decode_error_iff {w : InstrWord} :
    (∃ e, decode w = .error e) ↔ ∀ r ∈ rows, w &&& r.mask ≠ r.pattern := by
  constructor
  · rintro ⟨e, he⟩ r hr hs
    simp [decode_of_selects hr hs] at he
  · intro h
    cases hd : decode w with
    | error e => exact ⟨e, rfl⟩
    | ok i =>
      obtain ⟨r, hr, hs, -⟩ := decode_ok_iff.1 hd
      exact absurd hs (h r hr)

/-- The bytes of a word make the word (20_memory R50). -/
theorem wordOfBytes_bytesOfWord (w : InstrWord) :
    wordOfBytes (w.extractLsb' 0 8) (w.extractLsb' 8 8) (w.extractLsb' 16 8) (w.extractLsb' 24 8) = w := by
  apply BitVec.eq_of_getLsbD_eq
  intro i hi
  simp only [wordOfBytes, BitVec.getLsbD_append, BitVec.getLsbD_extractLsb']
  split
  · simp_all
  · split
    · simp_all
    · split
      · simp_all [show 16 + (i - 8 - 8) = i by omega]
      · simp_all [show 24 + (i - 8 - 8 - 8) = i by omega, show i - 8 - 8 - 8 < 8 by omega]

/-- Decoding the bytes of a word is decoding the word. -/
theorem decodeBytes_bytesOfWord (w : InstrWord) (rest : List Byte) :
    decodeBytes (bytesOfWord w ++ rest) = (decode w).map fun i => (i, rest) := by
  simp only [bytesOfWord, List.cons_append, List.nil_append, decodeBytes, wordOfBytes_bytesOfWord]
  cases decode w <;> rfl

end Sys2Proof
end

