-- ==== Sys2Proof/Laws/Encoding.lean ====
section
/-! SUPPORT. The masks of the opcode table read field by field, and what each encoder puts into each field
(30_encoding R111 to R121). -/
namespace Sys2Proof

/-! ## Masks -/

/-- A masked comparison, bit by bit. -/
theorem and_eq_iff_bits {w m p : InstrWord} (hp : p &&& m = p) :
    w &&& m = p ↔ ∀ i < 32, m.getLsbD i = true → w.getLsbD i = p.getLsbD i := by
  constructor
  · rintro h i - hm
    rw [← h, BitVec.getLsbD_and, hm, Bool.and_true]
  · intro h
    apply BitVec.eq_of_getLsbD_eq
    intro i hi
    rw [← hp, BitVec.getLsbD_and, BitVec.getLsbD_and]
    cases hm : m.getLsbD i with
    | false => simp
    | true => rw [h i hi hm]

theorem extract_eq_iff {w p : InstrWord} {lo n : Nat} :
    w.extractLsb' lo n = p.extractLsb' lo n ↔ ∀ i < n, w.getLsbD (lo + i) = p.getLsbD (lo + i) := by
  constructor
  · intro h i hi
    have := congrArg (fun v => BitVec.getLsbD v i) h
    simpa [hi] using this
  · intro h
    apply BitVec.eq_of_getLsbD_eq
    intro i hi
    simpa [hi] using h i hi

/-- The opcode alone. -/
theorem selects_opcode {w p : InstrWord} (hp : p &&& maskOpcode = p) :
    w &&& maskOpcode = p ↔ w.extractLsb' 0 7 = p.extractLsb' 0 7 := by
  rw [and_eq_iff_bits hp, extract_eq_iff]
  have hm : ∀ i < 32, maskOpcode.getLsbD i = true → i < 7 := by decide
  have hm' : ∀ i < 7, maskOpcode.getLsbD i = true := by decide
  constructor
  · intro h i hi
    rw [Nat.zero_add]
    exact h i (by omega) (hm' i hi)
  · intro h i hi hb
    have := h i (hm i hi hb)
    rwa [Nat.zero_add] at this

/-- The opcode and funct3. -/
theorem selects_funct3 {w p : InstrWord} (hp : p &&& maskFunct3 = p) :
    w &&& maskFunct3 = p ↔ w.extractLsb' 0 7 = p.extractLsb' 0 7 ∧ w.extractLsb' 12 3 = p.extractLsb' 12 3 := by
  rw [and_eq_iff_bits hp, extract_eq_iff, extract_eq_iff]
  have hm : ∀ i < 32, maskFunct3.getLsbD i = true → i < 7 ∨ 12 ≤ i ∧ i < 15 := by decide
  have h0 : ∀ i < 7, maskFunct3.getLsbD i = true := by decide
  have h3 : ∀ i < 3, maskFunct3.getLsbD (12 + i) = true := by decide
  constructor
  · intro h
    refine ⟨fun i hi => ?_, fun i hi => h _ (by omega) (h3 i hi)⟩
    rw [Nat.zero_add]
    exact h i (by omega) (h0 i hi)
  · rintro ⟨h1, h2⟩ i hi hb
    rcases hm i hi hb with h | h
    · have := h1 i h
      rwa [Nat.zero_add] at this
    · have := h2 (i - 12) (by omega)
      rwa [show 12 + (i - 12) = i by omega] at this

/-- The opcode, funct3 and bits 31:26. -/
theorem selects_shift {w p : InstrWord} (hp : p &&& maskShift = p) :
    w &&& maskShift = p ↔ w.extractLsb' 0 7 = p.extractLsb' 0 7 ∧ w.extractLsb' 12 3 = p.extractLsb' 12 3 ∧
      w.extractLsb' 26 6 = p.extractLsb' 26 6 := by
  rw [and_eq_iff_bits hp, extract_eq_iff, extract_eq_iff, extract_eq_iff]
  have hm : ∀ i < 32, maskShift.getLsbD i = true → i < 7 ∨ 12 ≤ i ∧ i < 15 ∨ 26 ≤ i := by decide
  have h0 : ∀ i < 7, maskShift.getLsbD i = true := by decide
  have h3 : ∀ i < 3, maskShift.getLsbD (12 + i) = true := by decide
  have h6 : ∀ i < 6, maskShift.getLsbD (26 + i) = true := by decide
  constructor
  · intro h
    refine ⟨fun i hi => ?_, fun i hi => h _ (by omega) (h3 i hi), fun i hi => h _ (by omega) (h6 i hi)⟩
    rw [Nat.zero_add]
    exact h i (by omega) (h0 i hi)
  · rintro ⟨h1, h2, h4⟩ i hi hb
    rcases hm i hi hb with h | h | h
    · have := h1 i h
      rwa [Nat.zero_add] at this
    · have := h2 (i - 12) (by omega)
      rwa [show 12 + (i - 12) = i by omega] at this
    · have := h4 (i - 26) (by omega)
      rwa [show 26 + (i - 26) = i by omega] at this

/-- The opcode, funct3 and funct7. -/
theorem selects_funct7 {w p : InstrWord} (hp : p &&& maskR = p) :
    w &&& maskR = p ↔ w.extractLsb' 0 7 = p.extractLsb' 0 7 ∧ w.extractLsb' 12 3 = p.extractLsb' 12 3 ∧
      w.extractLsb' 25 7 = p.extractLsb' 25 7 := by
  rw [and_eq_iff_bits hp, extract_eq_iff, extract_eq_iff, extract_eq_iff]
  have hm : ∀ i < 32, maskR.getLsbD i = true → i < 7 ∨ 12 ≤ i ∧ i < 15 ∨ 25 ≤ i := by decide
  have h0 : ∀ i < 7, maskR.getLsbD i = true := by decide
  have h3 : ∀ i < 3, maskR.getLsbD (12 + i) = true := by decide
  have h7 : ∀ i < 7, maskR.getLsbD (25 + i) = true := by decide
  constructor
  · intro h
    refine ⟨fun i hi => ?_, fun i hi => h _ (by omega) (h3 i hi), fun i hi => h _ (by omega) (h7 i hi)⟩
    rw [Nat.zero_add]
    exact h i (by omega) (h0 i hi)
  · rintro ⟨h1, h2, h4⟩ i hi hb
    rcases hm i hi hb with h | h | h
    · have := h1 i h
      rwa [Nat.zero_add] at this
    · have := h2 (i - 12) (by omega)
      rwa [show 12 + (i - 12) = i by omega] at this
    · have := h4 (i - 25) (by omega)
      rwa [show 25 + (i - 25) = i by omega] at this

/-! ## What the encoders put where -/

/-- Masking an R-format word keeps funct7, funct3 and the opcode. -/
theorem encodeR_masked (f7 : BitVec 7) (f3 : BitVec 3) (rd rs1 rs2 : Reg) :
    encodeR f7 f3 rd rs1 rs2 &&& maskR = encodeR f7 f3 0#5 0#5 0#5 := by
  have hm : maskR = ((127#7 ++ 0#5 ++ 0#5 ++ 7#3 ++ 0#5 ++ 127#7 : BitVec (7 + 5 + 5 + 3 + 5 + 7))) := by decide
  have h7 : ∀ x : BitVec 7, x &&& 127#7 = x := by decide
  have h3 : ∀ x : BitVec 3, x &&& 7#3 = x := by decide
  rw [hm]
  unfold encodeR
  erw [BitVec.and_append]
  simp only [BitVec.and_append, h7, h3, BitVec.and_zero]

theorem encodeI_masked (op : BitVec 7) (f3 : BitVec 3) (rd rs1 : Reg) (imm : BitVec 12) :
    encodeI op f3 rd rs1 imm &&& maskFunct3 = encodeI op f3 0#5 0#5 0#12 := by
  have hm : maskFunct3 = ((0#12 ++ 0#5 ++ 7#3 ++ 0#5 ++ 127#7 : BitVec (12 + 5 + 3 + 5 + 7))) := by decide
  have h7 : ∀ x : BitVec 7, x &&& 127#7 = x := by decide
  have h3 : ∀ x : BitVec 3, x &&& 7#3 = x := by decide
  rw [hm]
  unfold encodeI
  erw [BitVec.and_append]
  simp only [BitVec.and_append, h7, h3, BitVec.and_zero]

theorem encodeShift_masked (sel : BitVec 6) (f3 : BitVec 3) (rd rs1 : Reg) (shamt : BitVec 6) :
    encodeShift sel f3 rd rs1 shamt &&& maskShift = encodeShift sel f3 0#5 0#5 0#6 := by
  have hm : maskShift = ((63#6 ++ 0#6 ++ 0#5 ++ 7#3 ++ 0#5 ++ 127#7 : BitVec (6 + 6 + 5 + 3 + 5 + 7))) := by decide
  have h7 : ∀ x : BitVec 7, x &&& 127#7 = x := by decide
  have h6 : ∀ x : BitVec 6, x &&& 63#6 = x := by decide
  have h3 : ∀ x : BitVec 3, x &&& 7#3 = x := by decide
  rw [hm]
  unfold encodeShift
  erw [BitVec.and_append]
  simp only [BitVec.and_append, h7, h6, h3, BitVec.and_zero]

theorem encodeS_masked (f3 : BitVec 3) (rs1 rs2 : Reg) (imm : BitVec 12) :
    encodeS f3 rs1 rs2 imm &&& maskFunct3 = encodeS f3 0#5 0#5 0#12 := by
  have hm : maskFunct3 = ((0#7 ++ 0#5 ++ 0#5 ++ 7#3 ++ 0#5 ++ 127#7 : BitVec (7 + 5 + 5 + 3 + 5 + 7))) := by decide
  have h7 : ∀ x : BitVec 7, x &&& 127#7 = x := by decide
  have h3 : ∀ x : BitVec 3, x &&& 7#3 = x := by decide
  rw [hm]
  unfold encodeS
  erw [BitVec.and_append]
  simp only [BitVec.and_append, h7, h3, BitVec.and_zero]
  rfl

theorem encodeB_masked (f3 : BitVec 3) (rs1 rs2 : Reg) (imm : BitVec 13) :
    encodeB f3 rs1 rs2 imm &&& maskFunct3 = encodeB f3 0#5 0#5 0#13 := by
  have hm : maskFunct3 = ((0#1 ++ 0#6 ++ 0#5 ++ 0#5 ++ 7#3 ++ 0#4 ++ 0#1 ++ 127#7 :
    BitVec (1 + 6 + 5 + 5 + 3 + 4 + 1 + 7))) := by decide
  have h7 : ∀ x : BitVec 7, x &&& 127#7 = x := by decide
  have h3 : ∀ x : BitVec 3, x &&& 7#3 = x := by decide
  rw [hm]
  unfold encodeB
  erw [BitVec.and_append]
  simp only [BitVec.and_append, h7, h3, BitVec.and_zero]
  rfl

theorem encodeU_masked (op : BitVec 7) (rd : Reg) (imm : BitVec 20) :
    encodeU op rd imm &&& maskOpcode = encodeU op 0#5 0#20 := by
  have hm : maskOpcode = ((0#20 ++ 0#5 ++ 127#7 : BitVec (20 + 5 + 7))) := by decide
  have h7 : ∀ x : BitVec 7, x &&& 127#7 = x := by decide
  rw [hm]
  unfold encodeU
  erw [BitVec.and_append]
  simp only [BitVec.and_append, h7, BitVec.and_zero]

theorem encodeJ_masked (rd : Reg) (imm : BitVec 21) : encodeJ rd imm &&& maskOpcode = 0x6F#32 := by
  have hm : maskOpcode = ((0#1 ++ 0#10 ++ 0#1 ++ 0#8 ++ 0#5 ++ 127#7 : BitVec (1 + 10 + 1 + 8 + 5 + 7))) := by decide
  rw [hm]
  unfold encodeJ
  erw [BitVec.and_append]
  simp only [BitVec.and_append, BitVec.and_zero]
  rfl

/-! ## Fields of an encoded word, and a word of its fields -/

theorem buildR_encodeR (op : Reg → Reg → Reg → Instr) (f7 : BitVec 7) (f3 : BitVec 3) (rd rs1 rs2 : Reg) :
    buildR op (encodeR f7 f3 rd rs1 rs2) = op rd rs1 rs2 := by
  unfold buildR
  congr 1 <;>
  · apply BitVec.eq_of_getLsbD_eq
    intro i hi
    unfold encodeR
    first
      | unfold fieldRd
      | unfold fieldRs1
      | unfold fieldRs2
    simp only [BitVec.getLsbD_append, BitVec.getLsbD_extractLsb']
    interval_cases i <;> simp

theorem buildI_encodeI (op : Reg → Reg → BitVec 12 → Instr) (opc : BitVec 7) (f3 : BitVec 3) (rd rs1 : Reg)
    (imm : BitVec 12) : buildI op (encodeI opc f3 rd rs1 imm) = op rd rs1 imm := by
  unfold buildI
  congr 1 <;>
  · apply BitVec.eq_of_getLsbD_eq
    intro i hi
    unfold encodeI
    first
      | unfold fieldRd
      | unfold fieldRs1
      | unfold fieldImmI
    simp only [BitVec.getLsbD_append, BitVec.getLsbD_extractLsb']
    interval_cases i <;> simp

theorem buildShift_encodeShift (op : Reg → Reg → BitVec 6 → Instr) (sel : BitVec 6) (f3 : BitVec 3) (rd rs1 : Reg)
    (shamt : BitVec 6) : buildShift op (encodeShift sel f3 rd rs1 shamt) = op rd rs1 shamt := by
  unfold buildShift
  congr 1 <;>
  · apply BitVec.eq_of_getLsbD_eq
    intro i hi
    unfold encodeShift
    first
      | unfold fieldRd
      | unfold fieldRs1
      | unfold fieldShamt
    simp only [BitVec.getLsbD_append, BitVec.getLsbD_extractLsb']
    interval_cases i <;> simp

theorem buildS_encodeS (op : Reg → Reg → BitVec 12 → Instr) (f3 : BitVec 3) (rs1 rs2 : Reg) (imm : BitVec 12) :
    buildS op (encodeS f3 rs1 rs2 imm) = op rs1 rs2 imm := by
  unfold buildS
  congr 1 <;>
  · apply BitVec.eq_of_getLsbD_eq
    intro i hi
    unfold encodeS
    first
      | unfold fieldRs1
      | unfold fieldRs2
      | unfold fieldImmS
    simp only [BitVec.getLsbD_append, BitVec.getLsbD_extractLsb']
    interval_cases i <;> simp

theorem buildB_encodeB (op : Reg → Reg → BitVec 13 → Instr) (f3 : BitVec 3) (rs1 rs2 : Reg) (imm : BitVec 13)
    (h : evenOffset13 imm = true) : buildB op (encodeB f3 rs1 rs2 imm) = op rs1 rs2 imm := by
  have h0 : imm[0] = false := by simpa [evenOffset13] using h
  unfold buildB
  congr 1 <;>
  · apply BitVec.eq_of_getLsbD_eq
    intro i hi
    unfold encodeB
    first
      | unfold fieldRs1
      | unfold fieldRs2
      | unfold fieldImmB
    simp only [BitVec.getLsbD_append, BitVec.getLsbD_extractLsb']
    interval_cases i <;> simp [h0]

theorem buildU_encodeU (op : Reg → BitVec 20 → Instr) (opc : BitVec 7) (rd : Reg) (imm : BitVec 20) :
    buildU op (encodeU opc rd imm) = op rd imm := by
  unfold buildU
  congr 1 <;>
  · apply BitVec.eq_of_getLsbD_eq
    intro i hi
    unfold encodeU
    first
      | unfold fieldRd
      | unfold fieldImmU
    simp only [BitVec.getLsbD_append, BitVec.getLsbD_extractLsb']
    interval_cases i <;> simp

theorem buildJ_encodeJ (op : Reg → BitVec 21 → Instr) (rd : Reg) (imm : BitVec 21) (h : evenOffset21 imm = true) :
    buildJ op (encodeJ rd imm) = op rd imm := by
  have h0 : imm[0] = false := by simpa [evenOffset21] using h
  unfold buildJ
  congr 1 <;>
  · apply BitVec.eq_of_getLsbD_eq
    intro i hi
    unfold encodeJ
    first
      | unfold fieldRd
      | unfold fieldImmJ
    simp only [BitVec.getLsbD_append, BitVec.getLsbD_extractLsb']
    interval_cases i <;> simp [h0]

/-! ## A word is the encoding of its own fields -/

theorem encodeR_fields {w : InstrWord} (h : w.extractLsb' 0 7 = 0x33#7) :
    encodeR (w.extractLsb' 25 7) (w.extractLsb' 12 3) (fieldRd w) (fieldRs1 w) (fieldRs2 w) = w := by
  rw [encodeR, ← h]
  apply BitVec.eq_of_getLsbD_eq
  intro i hi
  simp only [BitVec.getLsbD_append, BitVec.getLsbD_extractLsb', fieldRd, fieldRs1, fieldRs2]
  interval_cases i <;> simp

theorem encodeI_fields (w : InstrWord) :
    encodeI (w.extractLsb' 0 7) (w.extractLsb' 12 3) (fieldRd w) (fieldRs1 w) (fieldImmI w) = w := by
  rw [encodeI]
  apply BitVec.eq_of_getLsbD_eq
  intro i hi
  simp only [BitVec.getLsbD_append, BitVec.getLsbD_extractLsb', fieldRd, fieldRs1, fieldImmI]
  interval_cases i <;> simp

theorem encodeShift_fields {w : InstrWord} (h : w.extractLsb' 0 7 = 0x13#7) :
    encodeShift (w.extractLsb' 26 6) (w.extractLsb' 12 3) (fieldRd w) (fieldRs1 w) (fieldShamt w) = w := by
  rw [encodeShift, ← h]
  apply BitVec.eq_of_getLsbD_eq
  intro i hi
  simp only [BitVec.getLsbD_append, BitVec.getLsbD_extractLsb', fieldRd, fieldRs1, fieldShamt]
  interval_cases i <;> simp

theorem encodeS_fields {w : InstrWord} (h : w.extractLsb' 0 7 = 0x23#7) :
    encodeS (w.extractLsb' 12 3) (fieldRs1 w) (fieldRs2 w) (fieldImmS w) = w := by
  rw [encodeS, ← h]
  apply BitVec.eq_of_getLsbD_eq
  intro i hi
  simp only [BitVec.getLsbD_append, BitVec.getLsbD_extractLsb', fieldRs2, fieldRs1, fieldImmS]
  interval_cases i <;> simp

theorem encodeB_fields {w : InstrWord} (h : w.extractLsb' 0 7 = 0x63#7) :
    encodeB (w.extractLsb' 12 3) (fieldRs1 w) (fieldRs2 w) (fieldImmB w) = w := by
  rw [encodeB, ← h]
  apply BitVec.eq_of_getLsbD_eq
  intro i hi
  simp only [BitVec.getLsbD_append, BitVec.getLsbD_extractLsb', fieldRs2, fieldRs1, fieldImmB]
  interval_cases i <;> simp

theorem encodeU_fields (w : InstrWord) :
    encodeU (w.extractLsb' 0 7) (fieldRd w) (fieldImmU w) = w := by
  rw [encodeU]
  apply BitVec.eq_of_getLsbD_eq
  intro i hi
  simp only [BitVec.getLsbD_append, BitVec.getLsbD_extractLsb', fieldRd, fieldImmU]
  interval_cases i <;> simp

theorem encodeJ_fields {w : InstrWord} (h : w.extractLsb' 0 7 = 0x6F#7) :
    encodeJ (fieldRd w) (fieldImmJ w) = w := by
  rw [encodeJ, ← h]
  apply BitVec.eq_of_getLsbD_eq
  intro i hi
  simp only [BitVec.getLsbD_append, BitVec.getLsbD_extractLsb', fieldRd, fieldImmJ]
  interval_cases i <;> simp

theorem fieldImmB_even (w : InstrWord) : evenOffset13 (fieldImmB w) = true := by
  unfold evenOffset13 fieldImmB
  simp only [BitVec.getLsbD_append]
  simp

theorem fieldImmJ_even (w : InstrWord) : evenOffset21 (fieldImmJ w) = true := by
  unfold evenOffset21 fieldImmJ
  simp only [BitVec.getLsbD_append]
  simp

end Sys2Proof
end

