-- ==== Sys2Proof/Laws/Step.lean ====
section
/-! SUPPORT. Everything an instruction, a step and the host's transactions can do: one inversion lemma each, cited by
the proofs instead of unfolding (60_exceptions R230). -/
namespace Sys2Proof.Machine

/-! ## Execute -/

/-- What `exec` leaves, whatever the instruction. -/
inductive ExecShape (s : State) : State → Prop where
  | computes (rd : Reg) (v : Word) : ExecShape s (s.retire rd v)
  | branches (t : Word) : ExecShape s (s.setPc t)
  | jumps (rd : Reg) (t : Word) (e : Event) : ExecShape s (linkAndJump rd t e s)
  | loads (a v w : Word) (n : Nat) (rd : Reg) (u : State) (hn : 0 < n) (h : s.memRead a n = some (v, u)) :
      ExecShape s (u.retire rd w)
  | stores (a v : Word) (n : Nat) (u : State) (hn : 0 < n) (h : s.memWrite a n v = some u) : ExecShape s u.advance
  | faults (a : Word) (n : Nat) (h : s.memCapacity < a.toNat + n) :
      ExecShape s (s.raise .memoryFault (.address a))

theorem loadOp_shape (n : Nat) (hn : 0 < n) (ext : Word → Word) (rd rs1 : Reg) (imm : BitVec 12) (s : State) :
    ∃ t, loadOp n ext rd rs1 imm s = .next t ∧ ExecShape s t := by
  unfold loadOp
  cases h : s.memRead (s.baseDisp rs1 imm) n with
  | none => exact ⟨_, rfl, .faults _ n (memRead_none.1 h)⟩
  | some p => exact ⟨_, rfl, .loads _ _ _ n rd _ hn h⟩

theorem storeOp_shape (n : Nat) (hn : 0 < n) (rs1 rs2 : Reg) (imm : BitVec 12) (s : State) :
    ∃ t, storeOp n rs1 rs2 imm s = .next t ∧ ExecShape s t := by
  unfold storeOp
  cases h : s.memWrite (s.baseDisp rs1 imm) n (s.readReg rs2) with
  | none => exact ⟨_, rfl, .faults _ n (memWrite_none.1 h)⟩
  | some p => exact ⟨_, rfl, .stores _ _ n _ hn h⟩

/-- A branch sets the pc and nothing else (44_branches R200). -/
theorem branchOp_next (cond : Word → Word → Bool) (rs1 rs2 : Reg) (imm : BitVec 13) (s : State) :
    branchOp cond rs1 rs2 imm s =
      .next (s.setPc (if cond (s.readReg rs1) (s.readReg rs2) then s.branchTarget imm else s.pc + 4)) := by
  unfold branchOp
  split <;> rfl

theorem branchOp_shape (cond : Word → Word → Bool) (rs1 rs2 : Reg) (imm : BitVec 13) (s : State) :
    ∃ t, branchOp cond rs1 rs2 imm s = .next t ∧ ExecShape s t := ⟨_, branchOp_next .., .branches _⟩

/-- Every instruction answers a next state of one of the six shapes. -/
theorem exec_shape (i : Instr) (s : State) : ∃ t, exec i s = .next t ∧ ExecShape s t := by
  cases i
  case beq | bne | blt | bge | bltu | bgeu => exact branchOp_shape _ _ _ _ _
  case lb | lh | lw | ld | lbu | lhu | lwu => exact loadOp_shape _ (by decide) _ _ _ _ _
  case sb | sh | sw | sd => exact storeOp_shape _ (by decide) _ _ _ _
  case jal | jalr => exact ⟨_, rfl, .jumps _ _ _⟩
  all_goals exact ⟨_, rfl, .computes _ _⟩

/-! ## The step -/

theorem pcAligned_iff {pc : Word} : pcAligned pc = true ↔ pc.toNat % 4 = 0 := by
  unfold pcAligned
  rw [beq_iff_eq]
  constructor
  · intro h
    have := congrArg BitVec.toNat h
    simpa [BitVec.extractLsb'_toNat] using this
  · intro h
    apply BitVec.eq_of_toNat_eq
    simpa [BitVec.extractLsb'_toNat] using h

/-- Everything a step can do. -/
inductive StepShape (s : State) : State → Prop where
  | stays (h : s.runState ≠ .running) : StepShape s s
  | misaligned (h : s.runState = .running) (ha : s.pc.toNat % 4 ≠ 0) :
      StepShape s (s.raise .misalignedPC (.address s.pc))
  | outside (h : s.runState = .running) (ha : s.pc.toNat % 4 = 0) (hr : s.memCapacity < s.pc.toNat + 4) :
      StepShape s (s.raise .memoryFault (.address s.pc))
  | halts (h : s.runState = .running) (ha : s.pc.toNat % 4 = 0) (hr : s.pc.toNat + 4 ≤ s.memCapacity)
      (hw : s.fetchWord = 0) : StepShape s s.halt
  | illegal (h : s.runState = .running) (ha : s.pc.toNat % 4 = 0) (hr : s.pc.toNat + 4 ≤ s.memCapacity)
      (hw : s.fetchWord ≠ 0) (e : Reject) (hd : decode s.fetchWord = .error e) :
      StepShape s (s.raise .illegalInstruction (.word s.fetchWord))
  | runs (h : s.runState = .running) (ha : s.pc.toNat % 4 = 0) (hr : s.pc.toNat + 4 ≤ s.memCapacity)
      (hw : s.fetchWord ≠ 0) (i : Instr) (hd : decode s.fetchWord = .ok i) (t : State) (he : exec i s = .next t)
      (hs : ExecShape s t) : StepShape s t

/-- Every step answers a next state of one of the six shapes. -/
theorem step_shape (s : State) : ∃ t, step s = .next t ∧ StepShape s t := by
  unfold step State.fetchStage
  cases h : s.runState with
  | halted => exact ⟨s, rfl, .stays (by simp [h])⟩
  | faulted => exact ⟨s, rfl, .stays (by simp [h])⟩
  | running =>
    dsimp only
    cases ha : pcAligned s.pc with
    | false => exact ⟨_, rfl, .misaligned h fun e => by simp [pcAligned_iff.2 e] at ha⟩
    | true =>
      have ha' := pcAligned_iff.1 ha
      cases hr : inRange s.memCapacity s.pc.toNat 4 with
      | false => exact ⟨_, rfl, .outside h ha' (by
          by_contra hh
          rw [inRange_iff.2 (by omega)] at hr
          cases hr)⟩
      | true =>
        have hr' := inRange_iff.1 hr
        simp only [Bool.not_true, Bool.false_eq_true, if_false]
        unfold State.decodeStage
        by_cases hw : s.fetchWord = 0
        · rw [if_pos hw]
          exact ⟨_, rfl, .halts h ha' hr' hw⟩
        · rw [if_neg hw]
          cases hd : decode s.fetchWord with
          | error e => exact ⟨_, rfl, .illegal h ha' hr' hw e hd⟩
          | ok i =>
            obtain ⟨t, ht, hs⟩ := exec_shape i s
            exact ⟨t, ht, .runs h ha' hr' hw i hd t ht hs⟩

/-- A step that runs an instruction is its `exec`. -/
theorem step_runs {s : State} (h : s.runState = .running) (ha : s.pc.toNat % 4 = 0)
    (hr : s.pc.toNat + 4 ≤ s.memCapacity) {i : Instr} (hd : decode s.fetchWord = .ok i) : step s = exec i s := by
  have hw : s.fetchWord ≠ 0 := by
    intro e
    rw [e, show decode 0 = .error .unlistedOpcode by rfl] at hd
    cases hd
  unfold step State.fetchStage State.decodeStage
  rw [h]
  simp only [pcAligned_iff.2 ha, inRange_iff.2 hr, Bool.not_true, Bool.false_eq_true, if_false]
  rw [if_neg hw, hd]

/-- The fetched word is the four bytes at the pc, the first least significant (20_memory R50, R60). -/
theorem fetchWord_eq (s : State) :
    s.fetchWord = wordOfBytes (s.mem.read s.pc.toNat) (s.mem.read (s.pc.toNat + 1)) (s.mem.read (s.pc.toNat + 2))
      (s.mem.read (s.pc.toNat + 3)) := by
  apply BitVec.eq_of_getLsbD_eq
  intro i hi
  unfold State.fetchWord Memory.rawRead
  rw [BitVec.getLsbD_setWidth, leWord_getLsbD _ (by simp)]
  have h4 : s.mem.readBytes s.pc.toNat 4 = [s.mem.read s.pc.toNat, s.mem.read (s.pc.toNat + 1),
    s.mem.read (s.pc.toNat + 2), s.mem.read (s.pc.toNat + 3)] := rfl
  rw [h4]
  unfold wordOfBytes
  simp only [BitVec.getLsbD_append, hi, decide_true, Bool.true_and]
  have : i / 8 = 0 ∨ i / 8 = 1 ∨ i / 8 = 2 ∨ i / 8 = 3 := by omega
  rcases this with e | e | e | e <;> rw [e]
  · rw [show i % 8 = i by omega]
    simp [show i < 8 by omega]
  · rw [show i % 8 = i - 8 by omega]
    simp [show ¬ i < 8 by omega, show i - 8 < 8 by omega]
  · rw [show i % 8 = i - 8 - 8 by omega]
    simp [show ¬ i < 8 by omega, show ¬ i - 8 < 8 by omega, show i - 8 - 8 < 8 by omega]
  · rw [show i % 8 = i - 8 - 8 - 8 by omega]
    simp [show ¬ i < 8 by omega, show ¬ i - 8 < 8 by omega, show ¬ i - 8 - 8 < 8 by omega]

/-! ## A new cache (20_memory R75) -/

theorem construct_set {g : CacheCfg} {draw i : Nat} (hi : i < cfgNumLines g) :
    (Cache.construct g draw).set i = (List.range (cfgWays g)).map fun k => freshEntry g.blockSize draw i k := by
  simp [Cache.set, Cache.construct, hi]

theorem construct_entry {g : CacheCfg} {draw i k : Nat} (hi : i < cfgNumLines g) (hk : k < cfgWays g) :
    (Cache.construct g draw).entry i k = freshEntry g.blockSize draw i k := by
  unfold Cache.entry
  rw [construct_set hi]
  simp [hk]

/-- A newly constructed cache is legal and empty. -/
theorem construct_slots {capacity : Nat} {g : CacheCfg} (h : cfgLegal capacity g = true) (draw : Nat) :
    (Cache.construct g draw).Slots capacity := by
  refine ⟨h, rfl, rfl, by simp [Cache.construct], ?_, ?_, ?_, ?_, ?_⟩
  · intro i hi
    rw [construct_set hi]
    simp [Cache.construct]
  all_goals
    intros
    rw [construct_entry ‹_› ‹_›] at *
    simp_all [freshEntry, Cache.construct]

end Sys2Proof.Machine
end

