-- ==== Sys2Proof/Laws/Frames.lean ====
section
/-! SUPPORT. What completing, faulting, loading and storing do, in the terms of Safety.lean: one lemma each, cited by the
proofs instead of unfolding the meanings (10_state R22, R25; 20_memory R56 to R59; 60_exceptions R239). -/
namespace Sys2Proof.Machine

/-! ## Completing and faulting -/

/-- `raise` has its whole effect (60_exceptions R239). -/
theorem raise_raised (s : State) (cause : FaultCause) (info : FaultInfo) :
    Raised s (s.raise cause info) cause info :=
  ⟨rfl, rfl, rfl, fun _ => rfl, rfl, ⟨fun _ => rfl, rfl, rfl⟩, rfl⟩

/-- `retire` after an operation that kept the core writes its destination only (10_state R22). -/
theorem retire_writesOnly {s u : State} (h : SameCore s u) (rd : Reg) (v : Word) : WritesOnly s (u.retire rd v) rd v := by
  refine ⟨?_, fun r hr => ?_, by simp [h.runState], by simp [h.fault], by simp [h.memCapacity]⟩
  · rw [retire_readReg, h.readReg]
    by_cases hz : rd = 0#5 <;> simp [hz]
  · rw [retire_readReg, h.readReg]
    simp [hr]

theorem sameCore_refl (s : State) : SameCore s s := ⟨rfl, rfl, rfl, rfl, rfl, rfl⟩

/-- `retire` alone is the whole effect of an instruction that only computes (40_integer_register R140). -/
theorem retire_computes (s : State) (rd : Reg) (v : Word) : Computes s (s.retire rd v) rd v :=
  ⟨retire_writesOnly (sameCore_refl s) rd v, rfl, ⟨by simp, by simp, by simp⟩, by simp⟩

/-- An operation that kept the core, then `advance`, writes no register. -/
theorem advance_writesNone {s u : State} (h : SameCore s u) : WritesNone s u.advance :=
  ⟨h.readReg, h.runState, h.fault, h.memCapacity⟩

/-! ## Loads and stores -/

/-- A load out of range faults (60_exceptions R237). -/
theorem loadOp_fault {n : Nat} {ext : Word → Word} {rd rs1 : Reg} {imm : BitVec 12} {s : State}
    (h : s.memCapacity < (s.baseDisp rs1 imm).toNat + n) :
    loadOp n ext rd rs1 imm s = .next (s.raise .memoryFault (.address (s.baseDisp rs1 imm))) := by
  unfold loadOp
  rw [memRead_none.2 h]

/-- A store out of range faults (60_exceptions R237). -/
theorem storeOp_fault {n : Nat} {rs1 rs2 : Reg} {imm : BitVec 12} {s : State}
    (h : s.memCapacity < (s.baseDisp rs1 imm).toNat + n) :
    storeOp n rs1 rs2 imm s = .next (s.raise .memoryFault (.address (s.baseDisp rs1 imm))) := by
  unfold storeOp
  rw [memWrite_none.2 h]

/-- A load in range completes with what `MemRead` gives (42_loads R180). -/
theorem loadOp_completes {n : Nat} {ext : Word → Word} {rd rs1 : Reg} {imm : BitVec 12} {s : State}
    (h : (s.baseDisp rs1 imm).toNat + n ≤ s.memCapacity) :
    ∃ v u, s.memRead (s.baseDisp rs1 imm) n = some (v, u) ∧
      loadOp n ext rd rs1 imm s = .next (u.retire rd (ext v)) := by
  cases hm : s.memRead (s.baseDisp rs1 imm) n with
  | none =>
    have := memRead_none.1 hm
    omega
  | some p =>
    refine ⟨p.1, p.2, rfl, ?_⟩
    unfold loadOp
    rw [hm]

/-- A store in range completes with what `MemWrite` leaves (43_stores R190). -/
theorem storeOp_completes {n : Nat} {rs1 rs2 : Reg} {imm : BitVec 12} {s : State}
    (h : (s.baseDisp rs1 imm).toNat + n ≤ s.memCapacity) :
    ∃ u, s.memWrite (s.baseDisp rs1 imm) n (s.readReg rs2) = some u ∧
      storeOp n rs1 rs2 imm s = .next u.advance := by
  cases hm : s.memWrite (s.baseDisp rs1 imm) n (s.readReg rs2) with
  | none =>
    have := memWrite_none.1 hm
    omega
  | some u =>
    refine ⟨u, rfl, ?_⟩
    unfold storeOp
    rw [hm]

/-- An instruction with a data access is a load or a store of that access. -/
inductive IsAccess (i : Instr) (rs1 : Reg) (imm : BitVec 12) (n : Nat) : Prop where
  | load (rd : Reg) (ext : Word → Word) (hn : 0 < n) (hd : i.dest = some rd)
      (h : ∀ s, exec i s = loadOp n ext rd rs1 imm s)
  | store (rs2 : Reg) (hn : 0 < n) (hd : i.dest = none) (h : ∀ s, exec i s = storeOp n rs1 rs2 imm s)

theorem isAccess {i : Instr} {rs1 : Reg} {imm : BitVec 12} {n : Nat} (h : i.dataAccess = some (rs1, imm, n)) :
    IsAccess i rs1 imm n := by
  cases i <;> cases h
  all_goals
    first
    | exact .load _ _ (by decide) rfl (fun _ => rfl)
    | exact .store _ (by decide) rfl (fun _ => rfl)

/-- An instruction without a data access leaves the memory, the cache, the capacity and the draws. -/
theorem exec_no_access {i : Instr} {s t : State} (h : i.dataAccess = none) (he : exec i s = .next t) :
    t.mem = s.mem ∧ t.cache = s.cache ∧ t.memCapacity = s.memCapacity ∧ t.draws = s.draws := by
  cases i <;> simp only [Instr.dataAccess] at h <;> cases h
  case beq | bne | blt | bge | bltu | bgeu =>
    cases (branchOp_next _ _ _ _ _).symm.trans he
    exact ⟨rfl, rfl, rfl, rfl⟩
  case jal | jalr =>
    cases he
    refine ⟨?_, ?_, ?_, ?_⟩ <;> simp [linkAndJump]
  all_goals
    cases he
    refine ⟨?_, ?_, ?_, ?_⟩ <;> simp

/-! ## The value of a load -/

/-- The little-endian word of at most eight bytes is their number (20_memory R50). -/
theorem leWord_toNat (bs : List Byte) (h : bs.length ≤ 8) : (leWord bs).toNat = leNat bs := by
  induction bs with
  | nil => rfl
  | cons b bs ih =>
    simp only [List.length_cons] at h
    rw [leWord_toNat_cons _ _ (by omega), ih (by omega)]
    rfl

theorem leNat_lt (bs : List Byte) : leNat bs < 2 ^ (8 * bs.length) := by
  induction bs with
  | nil => simp [leNat]
  | cons b bs ih =>
    have := b.isLt
    simp only [leNat, List.length_cons]
    rw [show 8 * (bs.length + 1) = 8 * bs.length + 8 by ring, Nat.pow_add]
    omega

/-- A sign-extending load of `n` bytes gives their signed number (42_loads R180). -/
theorem signExtend_loaded (n : Nat) (hn : 0 < n) (h8 : n ≤ 8) (bs : List Byte) (hl : bs.length = n) :
    signExtendFrom (8 * n) (leWord bs) = loadedValue true bs := by
  have h1 := leWord_toNat bs (by omega)
  have h2 := leNat_lt bs
  rw [hl] at h2
  unfold signExtendFrom loadedValue
  apply BitVec.eq_of_toInt_eq
  rw [BitVec.toInt_signExtend_of_le (by omega), hl]
  have h3 : ((leWord bs).setWidth (8 * n)).toNat = leNat bs := by
    rw [BitVec.toNat_setWidth, h1, Nat.mod_eq_of_lt h2]
  rw [BitVec.toInt_eq_toNat_cond, h3]
  have h5 : (2 : Nat) ^ (8 * n) = 2 * 2 ^ (8 * n - 1) := by
    rw [← Nat.pow_succ']
    congr 1
    omega
  have h6 : 2 ^ (8 * n - 1) ≤ 2 ^ 63 := Nat.pow_le_pow_right (by omega) (by omega)
  simp only [Bool.true_and, decide_eq_true_eq]
  rw [h5] at h2 ⊢
  generalize 2 ^ (8 * n - 1) = P at *
  have h7 : ((2 : Int) ^ (8 * n)) = 2 * P := by
    have := congrArg (Nat.cast : Nat → Int) h5
    push_cast at this
    exact this
  rw [h7]
  generalize leNat bs = x at *
  by_cases hP : P ≤ x
  · rw [if_neg (by omega), if_pos hP, BitVec.toInt_ofInt, Int.bmod_eq_of_le (by simp; omega) (by simp; omega)]
    push_cast
    ring
  · rw [if_pos (by omega), if_neg hP, BitVec.toInt_eq_toNat_cond, BitVec.toNat_ofNat, Nat.mod_eq_of_lt (by omega),
      if_pos (by omega)]

/-- A zero-extending load of `n` bytes gives their number (42_loads R180). -/
theorem zeroExtend_loaded (n : Nat) (h8 : n ≤ 8) (bs : List Byte) (hl : bs.length = n) :
    zeroExtendFrom (8 * n) (leWord bs) = loadedValue false bs := by
  have h1 := leWord_toNat bs (by omega)
  have h2 := leNat_lt bs
  rw [hl] at h2
  have h6 : 2 ^ (8 * n) ≤ 2 ^ 64 := Nat.pow_le_pow_right (by omega) (by omega)
  unfold zeroExtendFrom loadedValue
  apply BitVec.eq_of_toNat_eq
  simp [h1, Nat.mod_eq_of_lt h2]

/-- Eight bytes need no extension (42_loads R181). -/
theorem dword_loaded (bs : List Byte) (hl : bs.length = 8) : leWord bs = loadedValue true bs := by
  rw [← signExtend_loaded 8 (by omega) (by omega) bs hl]
  simp [signExtendFrom]

/-- A load form: `exec` is `loadOp`, and its extension gives `loadedValue`. -/
def IsLoad (i : Instr) (n : Nat) (signed : Bool) (rd rs1 : Reg) (imm : BitVec 12) : Prop :=
  0 < n ∧ n ≤ 8 ∧ ∃ ext, (∀ s, exec i s = loadOp n ext rd rs1 imm s) ∧
    ∀ bs : List Byte, bs.length = n → ext (leWord bs) = loadedValue signed bs

theorem isLoad {rd rs1 : Reg} {imm : BitVec 12} {f : Instr × Nat × Bool} (h : f ∈ loadForms rd rs1 imm) :
    IsLoad f.1 f.2.1 f.2.2 rd rs1 imm := by
  simp only [loadForms, List.mem_cons, List.not_mem_nil, or_false] at h
  rcases h with rfl | rfl | rfl | rfl | rfl | rfl | rfl
  · exact ⟨by simp, by simp, _, fun _ => rfl, fun bs h => signExtend_loaded 1 (by decide) (by decide) bs h⟩
  · exact ⟨by simp, by simp, _, fun _ => rfl, fun bs h => signExtend_loaded 2 (by decide) (by decide) bs h⟩
  · exact ⟨by simp, by simp, _, fun _ => rfl, fun bs h => signExtend_loaded 4 (by decide) (by decide) bs h⟩
  · exact ⟨by simp, by simp, _, fun _ => rfl, fun bs h => dword_loaded bs h⟩
  · exact ⟨by simp, by simp, _, fun _ => rfl, fun bs h => zeroExtend_loaded 1 (by decide) bs h⟩
  · exact ⟨by simp, by simp, _, fun _ => rfl, fun bs h => zeroExtend_loaded 2 (by decide) bs h⟩
  · exact ⟨by simp, by simp, _, fun _ => rfl, fun bs h => zeroExtend_loaded 4 (by decide) bs h⟩

/-- A store form: `exec` is `storeOp`. -/
theorem isStore {rs1 rs2 : Reg} {imm : BitVec 12} {f : Instr × Nat} (h : f ∈ storeForms rs1 rs2 imm) :
    0 < f.2 ∧ f.2 ≤ 8 ∧ ∀ s, exec f.1 s = storeOp f.2 rs1 rs2 imm s := by
  simp only [storeForms, List.mem_cons, List.not_mem_nil, or_false] at h
  rcases h with rfl | rfl | rfl | rfl <;> exact ⟨by simp, by simp, fun _ => rfl⟩

@[simp] theorem accessBytes_length (s : State) (a : Word) (n : Nat) : (s.accessBytes a n).length = n := by
  unfold State.accessBytes
  split <;> simp

theorem memLegal_of_inv {s : State} (h : s.Inv) : s.MemLegal := ⟨h.capacity, h.memory, h.cached⟩

/-- The low bytes of a value denote it modulo their range (20_memory R53, D29). -/
theorem leNat_leBytes (n : Nat) (v : Word) (h : n ≤ 8) : leNat (leBytes n v) = v.toNat % 2 ^ (8 * n) := by
  rw [← leWord_toNat _ (by simp [h])]
  have hw : leWord (leBytes n v) = (v.setWidth (8 * n)).setWidth 64 := by
    apply BitVec.eq_of_getLsbD_eq
    intro i hi
    rw [leWord_getLsbD _ (by simp [h])]
    by_cases hin : i / 8 < n
    · rw [leBytes_getD n v hin]
      simp [hi, show i < 8 * n by omega, show i % 8 < 8 by omega, show 8 * (i / 8) + i % 8 = i by omega]
    · rw [List.getD_eq_default _ _ (by simp; omega)]
      simp [hi]
      omega
  rw [hw]
  simp only [BitVec.toNat_setWidth]
  exact Nat.mod_eq_of_lt (lt_of_le_of_lt (Nat.mod_le _ _) v.isLt)

end Sys2Proof.Machine
end

