-- ==== Sys2Proof/Laws/Transactions.lean ====
section
/-! SUPPORT. What the host's transactions do, one lemma each (20_memory R75, R94; 60_exceptions R244; 70 R261, R262,
R266). -/
namespace Sys2Proof.Machine

/-! ## Dump (20_memory R94) -/

/-- The dump lists exactly the valid entries. -/
theorem dumpSets_mem (ls : List (List CacheEntry)) (n : Nat) (l : DumpLine) :
    l ∈ dumpSets n ls ↔ ∃ p, ∃ h : p < ls.length, ∃ e ∈ ls[p], e.valid = true ∧
      l = { index := n + p, tag := e.tag, dirty := e.dirty } := by
  induction ls generalizing n with
  | nil => simp [dumpSets]
  | cons es rest ih =>
    unfold dumpSets
    rw [List.mem_append, ih]
    constructor
    · rintro (h | ⟨p, hp, e, he, hv, rfl⟩)
      · unfold dumpSet at h
        obtain ⟨e, he, rfl⟩ := List.mem_map.1 h
        rw [List.mem_filter] at he
        exact ⟨0, by simp, e, he.1, he.2, rfl⟩
      · exact ⟨p + 1, by simpa using hp, e, he, hv, by simp; omega⟩
    · rintro ⟨p, hp, e, he, hv, rfl⟩
      cases p with
      | zero =>
        left
        unfold dumpSet
        exact List.mem_map.2 ⟨e, List.mem_filter.2 ⟨he, hv⟩, rfl⟩
      | succ p =>
        right
        exact ⟨p, by simpa using hp, e, he, hv, by simp; omega⟩

/-- The dump lists the sets in ascending order. -/
theorem dumpSets_sorted (ls : List (List CacheEntry)) (n : Nat) :
    (dumpSets n ls).Pairwise fun l m => l.index ≤ m.index := by
  induction ls generalizing n with
  | nil => simp [dumpSets]
  | cons es rest ih =>
    unfold dumpSets
    rw [List.pairwise_append]
    refine ⟨?_, ih _, ?_⟩
    · unfold dumpSet
      rw [List.pairwise_map]
      exact List.pairwise_of_forall (fun _ _ => Nat.le_refl _)
    · intro l hl m hm
      unfold dumpSet at hl
      obtain ⟨e, he, rfl⟩ := List.mem_map.1 hl
      obtain ⟨p, hp, e, he, hv, rfl⟩ := (dumpSets_mem ..).1 hm
      simp
      omega

/-! ## Enable, reset and load -/

/-- A newly constructed cache holds nothing (20_memory R75). -/
theorem construct_view {cap : Nat} {g : CacheCfg} {d : Nat} (h : cfgLegal cap g = true) (m : Memory) (a : Nat) :
    cachedView (Cache.construct g d) m a = m.read a := by
  have s := construct_slots h d
  apply view_of_none
  rw [lookup_none]
  intro k hk hv
  have hi : (Cache.construct g d).index a < cfgNumLines g := s.index_lt a
  rw [s.slots _ (s.index_lt a)] at hk
  rw [construct_entry hi hk] at hv
  cases hv

/-- The fields of the core after `Reset` (70 R261). -/
theorem reset_fields (s : State) :
    s.resetTransaction.x = Vector.replicate 31 0 ∧ s.resetTransaction.pc = 0 ∧
      s.resetTransaction.runState = .running ∧ s.resetTransaction.fault = none ∧ s.resetTransaction.mem = [] ∧
      s.resetTransaction.memCapacity = s.memCapacity := by
  unfold State.resetTransaction State.cacheEnable
  split
  · split <;> exact ⟨rfl, rfl, rfl, rfl, rfl, rfl⟩
  · exact ⟨rfl, rfl, rfl, rfl, rfl, rfl⟩

theorem reset_reg (s : State) (r : Reg) : s.resetTransaction.readReg r = 0 := by
  unfold State.readReg
  simp [(reset_fields s).1]

/-- What an image without repeats leaves in MemoryImage (70 R262). -/
theorem read_writeImage (image : List Host.Cell) :
    ∀ m : Memory, m.wf = true → (image.map fun cell => cell.1).Nodup →
      (∀ cell ∈ image, (writeImage m image).read cell.1 = cell.2) ∧
      (∀ a, (∀ cell ∈ image, cell.1 ≠ a) → (writeImage m image).read a = m.read a) ∧
      (writeImage m image).wf = true := by
  induction image with
  | nil =>
    intro m hm _
    exact ⟨by simp, fun _ _ => rfl, hm⟩
  | cons c rest ih =>
    intro m hm hn
    obtain ⟨a, b⟩ := c
    simp only [List.map_cons, List.nodup_cons] at hn
    obtain ⟨h1, h2, h3⟩ := ih (m.write a b) (wf_write a b hm) hn.2
    refine ⟨?_, ?_, h3⟩
    · intro cell hc
      rcases List.mem_cons.1 hc with rfl | hc
      · refine (h2 a (fun cell hc he => hn.1 ?_)).trans ?_
        · rw [← he]
          exact List.mem_map_of_mem hc
        · rw [read_write hm, if_pos rfl]
      · exact h1 cell hc
    · intro x hx
      refine (h2 x (fun cell hc => hx cell (List.mem_cons_of_mem _ hc))).trans ?_
      exact read_write_other m (Ne.symm (hx (a, b) (by simp))) b

theorem imageFits_iff {cap : Nat} {image : List Host.Cell} : imageFits cap image = true ↔ ∀ cell ∈ image, cell.1 < cap := by
  unfold imageFits
  simp

theorem load_eq (s : State) (image : List Host.Cell) :
    s.load image =
      if imageFits s.memCapacity image then { s.resetTransaction with mem := writeImage [] image }
      else s.resetTransaction := by
  unfold State.load
  dsimp only
  rw [(reset_fields s).2.2.2.2.2, (reset_fields s).2.2.2.2.1]

/-- An image that fits keeps MemoryImage legal (70 R262). -/
theorem writeImage_legal {cap : Nat} (image : List Host.Cell) :
    ∀ m : Memory, memoryLegal cap m → (∀ cell ∈ image, cell.1 < cap) → memoryLegal cap (writeImage m image) := by
  induction image with
  | nil =>
    intro m h _
    exact h
  | cons c rest ih =>
    intro m h hf
    obtain ⟨a, b⟩ := c
    refine ih _ ⟨wf_write a b h.1, fun c hc => ?_⟩ (fun c hc => hf c (List.mem_cons_of_mem _ hc))
    rcases mem_write hc with h1 | h1
    · rw [h1]
      exact hf (a, b) (by simp)
    · exact h.2 c h1

/-- The addresses of a text segment: in range and without repeats (70 R266). -/
theorem textImage_addr (ws : List InstrWord) :
    ∀ a, (∀ cell ∈ textImage a ws, a ≤ cell.1 ∧ cell.1 < a + 4 * ws.length) ∧
      ((textImage a ws).map fun cell => cell.1).Nodup := by
  induction ws with
  | nil =>
    intro a
    simp [textImage]
  | cons w ws ih =>
    intro a
    obtain ⟨h1, h2⟩ := ih (a + 4)
    refine ⟨?_, ?_⟩
    · intro cell hc
      unfold textImage at hc
      simp only [List.cons_append, List.nil_append, List.mem_cons] at hc
      simp only [List.length_cons]
      rcases hc with rfl | rfl | rfl | rfl | hc
      iterate 4
        · dsimp only
          omega
      · have := h1 cell hc
        omega
    · unfold textImage
      simp only [List.cons_append, List.nil_append, List.map_cons, List.nodup_cons, List.mem_cons, List.mem_map,
        not_or, not_exists, not_and]
      refine ⟨⟨by omega, by omega, by omega, fun c hc => ?_⟩, ⟨by omega, by omega, fun c hc => ?_⟩,
        ⟨by omega, fun c hc => ?_⟩, fun c hc => ?_, h2⟩
      all_goals
        have := h1 c hc
        omega
/-! ## Run -/

/-- `Run` does nothing in a state that is not Running (60_exceptions R244). -/
theorem runFuel_stop {s : State} (h : s.runState ≠ .running) (n : Nat) : runFuel n s = .next s := by
  cases n with
  | zero => rfl
  | succ n =>
    unfold runFuel
    rw [if_neg h]

end Sys2Proof.Machine
end

