-- ==== Sys2Proof/Tests/Slice0.lean ====
section
/-! SUPPORT. The author's own tests. Words and expected results are the spec's (95_test_vectors.md, the entries named in
the comments) or written out from 30_encoding.md; the last part meets the hypotheses of the statements. -/
namespace Sys2Proof.Tests

open Sys2Proof Sys2Proof.Machine

/-! ## Well-formed terms: an ill-formed term for each check -/

theorem test_odd_beq_offset_refused : (Instr.beq 1 2 7).wellFormed = false := by decide
theorem test_odd_bne_offset_refused : (Instr.bne 1 2 7).wellFormed = false := by decide
theorem test_odd_blt_offset_refused : (Instr.blt 1 2 7).wellFormed = false := by decide
theorem test_odd_bge_offset_refused : (Instr.bge 1 2 7).wellFormed = false := by decide
theorem test_odd_bltu_offset_refused : (Instr.bltu 1 2 7).wellFormed = false := by decide
theorem test_odd_bgeu_offset_refused : (Instr.bgeu 1 2 7).wellFormed = false := by decide
theorem test_odd_jal_offset_refused : (Instr.jal 1 7).wellFormed = false := by decide

/-! ## Decoding: one word of each family bit by bit from its format (30_encoding R111), then a word for every
constructor (95_test_vectors V1 to V7) -/

/-- R: funct7 rs2 rs1 funct3 rd opcode. -/
theorem test_decode_bits_sub : decode 0b0100000_00011_00010_000_00001_0110011 = .ok (.sub 1 2 3) := by decide
/-- I: imm[11:0] rs1 funct3 rd opcode. -/
theorem test_decode_bits_addi : decode 0b111111111111_00000_000_00001_0010011 = .ok (.addi 1 0 0xFFF) := by decide
/-- I shift: selector shamt rs1 funct3 rd opcode. -/
theorem test_decode_bits_srai : decode 0b010000_100000_00010_101_00001_0010011 = .ok (.srai 1 2 32) := by decide
/-- I, load. -/
theorem test_decode_bits_lbu : decode 0b000000001000_00101_100_00111_0000011 = .ok (.lbu 7 5 8) := by decide
/-- S: imm[11:5] rs2 rs1 funct3 imm[4:0] opcode. -/
theorem test_decode_bits_sw : decode 0b1111111_00110_00101_010_11100_0100011 = .ok (.sw 5 6 0xFFC) := by decide
/-- B: imm[12] imm[10:5] rs2 rs1 funct3 imm[4:1] imm[11] opcode. -/
theorem test_decode_bits_bge : decode 0b1_000001_00010_00001_101_0010_1_1100011 = .ok (.bge 1 2 0x1824) := by decide
/-- U: imm[31:12] rd opcode. -/
theorem test_decode_bits_auipc : decode 0b10000000000000000001_00101_0010111 = .ok (.auipc 5 0x80001) := by decide
/-- J: imm[20] imm[10:1] imm[11] imm[19:12] rd opcode. -/
theorem test_decode_bits_jal : decode 0b1_0000000001_1_10000000_00001_1101111 = .ok (.jal 1 0x180802) := by decide
/-- I, `jalr`. -/
theorem test_decode_bits_jalr : decode 0b111111111100_00101_000_00001_1100111 = .ok (.jalr 1 5 0xFFC) := by decide

theorem test_decode_add : decode 0x003100B3 = .ok (.add 1 2 3) := by decide
theorem test_decode_sub : decode 0x403100B3 = .ok (.sub 1 2 3) := by decide
theorem test_decode_xor : decode 0x003140B3 = .ok (.xor 1 2 3) := by decide
theorem test_decode_or : decode 0x003160B3 = .ok (.or 1 2 3) := by decide
theorem test_decode_and : decode 0x003170B3 = .ok (.and 1 2 3) := by decide
theorem test_decode_sll : decode 0x003110B3 = .ok (.sll 1 2 3) := by decide
theorem test_decode_srl : decode 0x003150B3 = .ok (.srl 1 2 3) := by decide
theorem test_decode_sra : decode 0x403150B3 = .ok (.sra 1 2 3) := by decide
theorem test_decode_slt : decode 0x003120B3 = .ok (.slt 1 2 3) := by decide
theorem test_decode_sltu : decode 0x003130B3 = .ok (.sltu 1 2 3) := by decide
theorem test_decode_addi : decode 0x80010093 = .ok (.addi 1 2 0x800) := by decide
theorem test_decode_xori : decode 0xFFF14093 = .ok (.xori 1 2 0xFFF) := by decide
theorem test_decode_ori : decode 0x80016093 = .ok (.ori 1 2 0x800) := by decide
theorem test_decode_andi : decode 0xF0017093 = .ok (.andi 1 2 0xF00) := by decide
theorem test_decode_slli : decode 0x03F11093 = .ok (.slli 1 2 63) := by decide
theorem test_decode_srli : decode 0x02015093 = .ok (.srli 1 2 32) := by decide
theorem test_decode_srai : decode 0x42015093 = .ok (.srai 1 2 32) := by decide
theorem test_decode_slti : decode 0x80012093 = .ok (.slti 1 2 0x800) := by decide
theorem test_decode_sltiu : decode 0xFFF13093 = .ok (.sltiu 1 2 0xFFF) := by decide
theorem test_decode_lui : decode 0x800002B7 = .ok (.lui 5 0x80000) := by decide
theorem test_decode_auipc : decode 0xFFFFF297 = .ok (.auipc 5 0xFFFFF) := by decide
theorem test_decode_lb : decode 0x00828383 = .ok (.lb 7 5 8) := by decide
theorem test_decode_lbu : decode 0x0082C383 = .ok (.lbu 7 5 8) := by decide
theorem test_decode_lh : decode 0x00829383 = .ok (.lh 7 5 8) := by decide
theorem test_decode_lhu : decode 0x0082D383 = .ok (.lhu 7 5 8) := by decide
theorem test_decode_lw : decode 0x0062A383 = .ok (.lw 7 5 6) := by decide
theorem test_decode_lwu : decode 0x0062E383 = .ok (.lwu 7 5 6) := by decide
theorem test_decode_ld : decode 0x0012B383 = .ok (.ld 7 5 1) := by decide
theorem test_decode_sb : decode 0x006283A3 = .ok (.sb 5 6 7) := by decide
theorem test_decode_sh : decode 0x006291A3 = .ok (.sh 5 6 3) := by decide
theorem test_decode_sw : decode 0xFE62AE23 = .ok (.sw 5 6 0xFFC) := by decide
theorem test_decode_sd : decode 0x0062B0A3 = .ok (.sd 5 6 1) := by decide
theorem test_decode_beq : decode 0x00208863 = .ok (.beq 1 2 16) := by decide
theorem test_decode_bne : decode 0x00209863 = .ok (.bne 1 2 16) := by decide
theorem test_decode_blt : decode 0x0020C863 = .ok (.blt 1 2 16) := by decide
theorem test_decode_bge : decode 0x0020D863 = .ok (.bge 1 2 16) := by decide
theorem test_decode_bltu : decode 0x0020E863 = .ok (.bltu 1 2 16) := by decide
theorem test_decode_bgeu : decode 0x0020F863 = .ok (.bgeu 1 2 16) := by decide
theorem test_decode_jal : decode 0x00C000EF = .ok (.jal 1 12) := by decide
theorem test_decode_jalr : decode 0xFFC280E7 = .ok (.jalr 1 5 0xFFC) := by decide

/-- The spec's illegal words (95_test_vectors V8). -/
theorem test_decode_rejects :
    (∀ w ∈ [0x00000073#32, 0x0000000F#32, 0x0031009B#32, 0x003100BB#32, 0x023100B3#32, 0x403110B3#32],
      ∃ e, decode w = .error e) := by
  intro w hw
  fin_cases hw <;> exact ⟨_, rfl⟩

/-! ## One step of each instruction (95_test_vectors V1 to V7), from pc 0x100 -/

/-- A Running state with these registers and this memory. -/
def start (pc : Word) (regs : List (Reg × Word)) (mem : Memory) : State :=
  regs.foldl (fun s r => s.writeReg r.1 r.2) { State.reset with pc := pc, mem := mem }

/-- The state after one step on this word at the pc. -/
def stepOn (w : InstrWord) (s : State) : Option State :=
  match step (s.placeWord w) with
  | .next t => some t
  | .fault _ => none
  | .refused _ => none

/-- A register, the pc and the run state after one step from pc 0x100. -/
def after (w : InstrWord) (regs : List (Reg × Word)) (mem : Memory) (r : Reg) : Option (Word × Word × RunState) :=
  (stepOn w (start 0x100 regs mem)).map fun t => (t.readReg r, t.pc, t.runState)

theorem test_add :
    after 0x003100B3 [(2, 0x7FFFFFFFFFFFFFFF), (3, 0x1)] [] 1 = some (0x8000000000000000, 0x104, .running) := by decide
theorem test_add_same_register : after 0x005282B3 [(5, 0x7)] [] 5 = some (0xE, 0x104, .running) := by decide
theorem test_sub : after 0x403100B3 [(2, 0xA), (3, 0x14)] [] 1 = some (0xFFFFFFFFFFFFFFF6, 0x104, .running) := by decide
theorem test_sub_wraps :
    after 0x403100B3 [(2, 0x0), (3, 0x8000000000000000)] [] 1 = some (0x8000000000000000, 0x104, .running) := by decide
theorem test_xor :
    after 0x003140B3 [(2, 0xFF00FF00FF00FF00), (3, 0xFF00FF00FF00FF0)] [] 1 = some (0xF0F0F0F0F0F0F0F0, 0x104, .running) := by decide
theorem test_or :
    after 0x003160B3 [(2, 0x8000000000000000), (3, 0x1)] [] 1 = some (0x8000000000000001, 0x104, .running) := by decide
theorem test_and :
    after 0x003170B3 [(2, 0xFF00FF00FF00FF00), (3, 0xFF00FF00FF00FF0)] [] 1 = some (0xF000F000F000F00, 0x104, .running) := by decide
theorem test_sll : after 0x003110B3 [(2, 0x3), (3, 0x7F)] [] 1 = some (0x8000000000000000, 0x104, .running) := by decide
theorem test_sll_by_64 : after 0x003110B3 [(2, 0x1), (3, 0x40)] [] 1 = some (0x1, 0x104, .running) := by decide
theorem test_srl :
    after 0x003150B3 [(2, 0xFFFFFFFFFFFFFFFF), (3, 0xFFFFFFFFFFFFFFC4)] [] 1 = some (0xFFFFFFFFFFFFFFF, 0x104, .running) := by decide
theorem test_sra :
    after 0x403150B3 [(2, 0x8000000000000000), (3, 0x1)] [] 1 = some (0xC000000000000000, 0x104, .running) := by decide
theorem test_sra_by_68 :
    after 0x403150B3 [(2, 0xFFFFFFFFFFFFFFF0), (3, 0x44)] [] 1 = some (0xFFFFFFFFFFFFFFFF, 0x104, .running) := by decide
theorem test_slt :
    after 0x003120B3 [(2, 0x8000000000000000), (3, 0x7FFFFFFFFFFFFFFF)] [] 1 = some (0x1, 0x104, .running) := by decide
theorem test_slt_equal : after 0x003120B3 [(1, 0x9), (2, 0x5), (3, 0x5)] [] 1 = some (0x0, 0x104, .running) := by decide
theorem test_sltu : after 0x003130B3 [(2, 0x0), (3, 0xFFFFFFFFFFFFFFFF)] [] 1 = some (0x1, 0x104, .running) := by decide
theorem test_sltu_not :
    after 0x003130B3 [(1, 0x9), (2, 0xFFFFFFFFFFFFFFFF), (3, 0x0)] [] 1 = some (0x0, 0x104, .running) := by decide
theorem test_addi : after 0x80010093 [] [] 1 = some (0xFFFFFFFFFFFFF800, 0x104, .running) := by decide
theorem test_addi_positive : after 0x7FF10093 [(2, 0x1)] [] 1 = some (0x800, 0x104, .running) := by decide
theorem test_xori :
    after 0xFFF14093 [(2, 0x123456789ABCDEF)] [] 1 = some (0xFEDCBA9876543210, 0x104, .running) := by decide
theorem test_ori : after 0x80016093 [(2, 0x1)] [] 1 = some (0xFFFFFFFFFFFFF801, 0x104, .running) := by decide
theorem test_andi :
    after 0xF0017093 [(2, 0x123456789ABCDEF)] [] 1 = some (0x123456789ABCD00, 0x104, .running) := by decide
theorem test_slli : after 0x03F11093 [(2, 0x1)] [] 1 = some (0x8000000000000000, 0x104, .running) := by decide
theorem test_srli : after 0x02015093 [(2, 0xFFFFFFFF00000000)] [] 1 = some (0xFFFFFFFF, 0x104, .running) := by decide
theorem test_srai :
    after 0x42015093 [(2, 0xFFFFFFFF00000000)] [] 1 = some (0xFFFFFFFFFFFFFFFF, 0x104, .running) := by decide
theorem test_srai_positive :
    after 0x40415093 [(2, 0x7FFFFFFFFFFFFFF0)] [] 1 = some (0x7FFFFFFFFFFFFFF, 0x104, .running) := by decide
theorem test_slti : after 0x80012093 [(2, 0x8000000000000000)] [] 1 = some (0x1, 0x104, .running) := by decide
theorem test_sltiu : after 0xFFF13093 [(2, 0x5)] [] 1 = some (0x1, 0x104, .running) := by decide
theorem test_sltiu_not :
    after 0xFFF13093 [(1, 0x9), (2, 0xFFFFFFFFFFFFFFFF)] [] 1 = some (0x0, 0x104, .running) := by decide
theorem test_lui : after 0x800002B7 [] [] 5 = some (0xFFFFFFFF80000000, 0x104, .running) := by decide
theorem test_auipc : after 0xFFFFF297 [] [] 5 = some (0xFFFFFFFFFFFFF100, 0x104, .running) := by decide
theorem test_add_to_x0 : after 0x00310033 [(2, 0xA), (3, 0x14)] [] 0 = some (0x0, 0x104, .running) := by decide

/-- The memory of V3. -/
def loadMem : Memory :=
  [(0x10000, 0x88), (0x10001, 0x77), (0x10002, 0x66), (0x10003, 0x55), (0x10004, 0x44), (0x10005, 0x33), (0x10006, 0x22),
    (0x10007, 0x11), (0x10008, 0xFF), (0x10009, 0x80)]

theorem test_lb : after 0x00828383 [(5, 0x10000)] loadMem 7 = some (0xFFFFFFFFFFFFFFFF, 0x104, .running) := by decide
theorem test_lbu : after 0x0082C383 [(5, 0x10000)] loadMem 7 = some (0xFF, 0x104, .running) := by decide
theorem test_lh : after 0x00829383 [(5, 0x10000)] loadMem 7 = some (0xFFFFFFFFFFFF80FF, 0x104, .running) := by decide
theorem test_lh_misaligned : after 0x00129383 [(5, 0x10000)] loadMem 7 = some (0x6677, 0x104, .running) := by decide
theorem test_lhu : after 0x0082D383 [(5, 0x10000)] loadMem 7 = some (0x80FF, 0x104, .running) := by decide
theorem test_lw : after 0x0062A383 [(5, 0x10000)] loadMem 7 = some (0xFFFFFFFF80FF1122, 0x104, .running) := by decide
theorem test_lwu : after 0x0062E383 [(5, 0x10000)] loadMem 7 = some (0x80FF1122, 0x104, .running) := by decide
theorem test_ld : after 0x0012B383 [(5, 0x10000)] loadMem 7 = some (0xFF11223344556677, 0x104, .running) := by decide
theorem test_ld_below : after 0xFF82B383 [(5, 0x10000)] loadMem 7 = some (0x0, 0x104, .running) := by decide
theorem test_lw_out_of_range : after 0x0052A383 [(5, 0x1FFF8), (7, 0x99)] [] 7 = some (0x99, 0x100, .faulted) := by decide
theorem test_lb_wraps :
    after 0x00128383 [(5, 0xFFFFFFFFFFFFFFFF), (7, 0x99)] [] 7 = some (0, 0x104, .running) := by decide

/-- The memory of V4: sixteen bytes AA. -/
def storeMem : Memory := (List.range 16).map fun j => (0xFFFC + j, 0xAA)

/-- The sixteen bytes of V4 after one step. -/
def stored (w : InstrWord) : Option (List Byte) :=
  (stepOn w (start 0x100 [(5, 0x10000), (6, 0x1122334455667788)] storeMem)).map fun t => t.mem.readBytes 0xFFFC 16

theorem test_sb : stored 0x006283A3 =
    some [0xAA, 0xAA, 0xAA, 0xAA, 0xAA, 0xAA, 0xAA, 0xAA, 0xAA, 0xAA, 0xAA, 0x88, 0xAA, 0xAA, 0xAA, 0xAA] := by decide
theorem test_sh : stored 0x006291A3 =
    some [0xAA, 0xAA, 0xAA, 0xAA, 0xAA, 0xAA, 0xAA, 0x88, 0x77, 0xAA, 0xAA, 0xAA, 0xAA, 0xAA, 0xAA, 0xAA] := by decide
theorem test_sw : stored 0xFE62AE23 =
    some [0x88, 0x77, 0x66, 0x55, 0xAA, 0xAA, 0xAA, 0xAA, 0xAA, 0xAA, 0xAA, 0xAA, 0xAA, 0xAA, 0xAA, 0xAA] := by decide
theorem test_sd : stored 0x0062B0A3 =
    some [0xAA, 0xAA, 0xAA, 0xAA, 0xAA, 0x88, 0x77, 0x66, 0x55, 0x44, 0x33, 0x22, 0x11, 0xAA, 0xAA, 0xAA] := by decide
theorem test_sd_out_of_range :
    (stepOn 0x0062B223 (start 0x100 [(5, 0x1FFF8), (6, 0x1122334455667788)] [])).map
      (fun t => (t.fault, t.mem.readBytes 0x1FFF8 8)) =
    some (some { cause := .memoryFault, pc := 0x100, info := .address 0x1FFFC }, List.replicate 8 0) := by decide

theorem test_beq : after 0x00208863 [(1, 0x5), (2, 0x5)] [] 0 = some (0, 0x110, .running) := by decide
theorem test_beq_not :
    after 0x00208863 [(1, 0xFFFFFFFFFFFFFFFF), (2, 0xFFFFFFFF)] [] 0 = some (0, 0x104, .running) := by decide
theorem test_bne : after 0x00209863 [(1, 0x5), (2, 0x6)] [] 0 = some (0, 0x110, .running) := by decide
theorem test_bne_not : after 0x00209863 [(1, 0x5), (2, 0x5)] [] 0 = some (0, 0x104, .running) := by decide
theorem test_blt :
    after 0x0020C863 [(1, 0x8000000000000000), (2, 0x7FFFFFFFFFFFFFFF)] [] 0 = some (0, 0x110, .running) := by decide
theorem test_blt_not : after 0x0020C863 [(1, 0x3), (2, 0x3)] [] 0 = some (0, 0x104, .running) := by decide
theorem test_bge : after 0x0020D863 [(1, 0x3), (2, 0x3)] [] 0 = some (0, 0x110, .running) := by decide
theorem test_bge_not : after 0x0020D863 [(1, 0xFFFFFFFFFFFFFFFF), (2, 0x0)] [] 0 = some (0, 0x104, .running) := by decide
theorem test_bltu : after 0x0020E863 [(1, 0x0), (2, 0xFFFFFFFFFFFFFFFF)] [] 0 = some (0, 0x110, .running) := by decide
theorem test_bltu_not : after 0x0020E863 [(1, 0xFFFFFFFFFFFFFFFF), (2, 0x0)] [] 0 = some (0, 0x104, .running) := by decide
theorem test_bgeu : after 0x0020F863 [(1, 0x3), (2, 0x3)] [] 0 = some (0, 0x110, .running) := by decide
theorem test_bgeu_not : after 0x0020F863 [(1, 0x0), (2, 0xFFFFFFFFFFFFFFFF)] [] 0 = some (0, 0x104, .running) := by decide
theorem test_beq_backward : (stepOn 0x80000063 (start 0x2000 [] [])).map (·.pc) = some 0x1000 := by decide

theorem test_jal :
    (stepOn 0x800000EF (start 0x100 [] [])).map (fun t => (t.readReg 1, t.pc, t.events)) =
      some (0x104, 0xFFFFFFFFFFF00100, [.call 0xFFFFFFFFFFF00100]) := by decide
theorem test_jal_x0 :
    (stepOn 0xFFDFF06F (start 0x100 [] [])).map (fun t => (t.readReg 0, t.pc, t.events)) =
      some (0, 0xFC, [.call 0xFC]) := by decide
theorem test_jalr_same_register :
    (stepOn 0x000080E7 (start 0x18 [(1, 0x40)] [])).map (fun t => (t.readReg 1, t.pc, t.events)) =
      some (0x1C, 0x40, [.ret]) := by decide
theorem test_jalr_keeps_bit_0 :
    (stepOn 0x001280E7 (start 0x20 [(5, 0x100)] [])).map (fun t => (t.readReg 1, t.pc)) = some (0x24, 0x101) := by decide

/-! ## The step (95_test_vectors V8, V9) -/

/-- A table word decodes, and runs as the first instruction after reset. -/
theorem test_table_word :
    decodeTableWord 32 0x7FF10093 = some (.addi 1 2 0x7FF) ∧
      ∃ t, step (State.reset.withFetchWord 32 0x7FF10093) = .next t ∧ t.readReg 1 = 0x7FF ∧ t.pc = 4 :=
  ⟨by decide, _, rfl, by decide, by decide⟩

theorem test_zero_word_halts :
    (stepOn 0 (start 0x100 [] [])).map (fun t => (t.runState, t.pc, t.fault, t.events)) =
      some (.halted, 0x100, none, [.halted 0x100]) := by decide
theorem test_ecall_is_illegal :
    (stepOn 0x00000073 (start 0x100 [] [])).map (·.fault) =
      some (some { cause := .illegalInstruction, pc := 0x100, info := .word 0x73 }) := by decide
theorem test_misaligned_pc_before_range :
    (stepOn 0 (start 0xFFFFFFFFFFFFFFFF [] [])).map (·.fault) =
      some (some { cause := .misalignedPC, pc := 0xFFFFFFFFFFFFFFFF, info := .address 0xFFFFFFFFFFFFFFFF }) := by decide
theorem test_fetch_out_of_range :
    (stepOn 0 (start 0x20000 [] [])).map (·.fault) =
      some (some { cause := .memoryFault, pc := 0x20000, info := .address 0x20000 }) := by decide

/-! ## The cache (95_test_vectors S5 to S10), on a memory of 64 bytes and blocks of 8 -/

/-- Two blocks in one set. -/
def pairCfg (r : Replacement) (w : WritePolicy) : CacheCfg :=
  { size := 16, blockSize := 8, associativity := 2, replacement := r, write := w }

/-- A valid entry of eight equal bytes. -/
def held (tag stamp : Word) (b : Byte) (dirty : Bool) : CacheEntry :=
  { valid := true, dirty := dirty, tag := tag, timestamp := stamp, block := List.replicate 8 b }

/-- An invalid entry. -/
def vacant : CacheEntry := { valid := false, dirty := false, tag := 7, timestamp := 7, block := List.replicate 8 7 }

/-- A cache of one set that holds these two entries, its clock at 5. -/
def pair (r : Replacement) (w : WritePolicy) (e f : CacheEntry) : Cache :=
  { cfg := pairCfg r w, numLines := 1, ways := 2, lines := [[e, f]], hits := 0, misses := 0, writebacks := 0,
    logicalClock := 5 }

/-- A Running state with 64 bytes of memory; x5 is a base address and x6 the data of S8. -/
def small (o : Option Cache) (mem : Memory) (base : Word) : State :=
  ({ State.reset with memCapacity := 64, cache := o, mem := mem } : State).writeReg 5 base |>.writeReg 6 0x1122334455667788

/-- The state an instruction leaves. -/
def ran (i : Instr) (s : State) : State :=
  match exec i s with
  | .next t => t
  | .fault _ => s
  | .refused _ => s

/-- The counters of a state's cache: hits, misses, write-backs. -/
def counts (s : State) : Option (Word × Word × Word) := s.cache.map fun c => (c.hits, c.misses, c.writebacks)

/-- The dump, as set, tag, dirty. -/
def dumped (s : State) : List (Nat × Word × Bool) := s.cacheDump.map fun l => (l.index, l.tag, l.dirty)

/-- S5: the first read of a block misses and fills slot 0. -/
theorem test_read_miss :
    let t := ran (.ld 7 5 0) ((small none [] 16).cacheEnable (pairCfg .lru .writeBack))
    counts t = some (0, 1, 0) ∧ dumped t = [(0, 2, false)] := by decide

/-- S5: a read of a held block hits. -/
theorem test_read_hit :
    let t := ran (.lw 7 5 4) (small (some (pair .lru .writeBack (held 2 1 0xAB false) vacant)) [] 16)
    counts t = some (1, 0, 0) ∧ t.readReg 7 = 0xFFFFFFFFABABABAB := by decide

/-- S6: under LRU the block with the older stamp goes, whatever its slot. -/
theorem test_lru_evicts :
    dumped (ran (.ld 7 5 0) (small (some (pair .lru .writeBack (held 2 3 1 false) (held 4 2 1 false))) [] 0)) =
      [(0, 2, false), (0, 0, false)] := by decide

/-- S7: under FIFO a hit stamps nothing. -/
theorem test_fifo_hit_does_not_stamp :
    (ran (.ld 7 5 0) (small (some (pair .fifo .writeBack (held 2 1 1 false) (held 4 2 1 false))) [] 16)).cache.map
      (fun c => ((c.entry 0 0).timestamp, c.logicalClock)) = some (1, 5) := by decide

/-- S8, WRITE_THROUGH, block not held: MemoryImage at once, no allocation. -/
theorem test_write_through_miss :
    let t := ran (.sd 5 6 0) (small (some (pair .lru .writeThrough vacant vacant)) [] 16)
    counts t = some (0, 1, 0) ∧ dumped t = [] ∧
      t.mem.readBytes 16 8 = [0x88, 0x77, 0x66, 0x55, 0x44, 0x33, 0x22, 0x11] := by decide

/-- S8, WRITE_THROUGH, block held: both copies, not dirty. -/
theorem test_write_through_hit :
    let t := ran (.sd 5 6 0) (small (some (pair .lru .writeThrough (held 2 1 0 false) vacant)) [] 16)
    counts t = some (1, 0, 0) ∧ dumped t = [(0, 2, false)] ∧
      (t.mem.read 16, t.dataView 16, t.mem.read 23, t.dataView 23) = (0x88, 0x88, 0x11, 0x11) := by decide

/-- S8, WRITE_BACK, block not held: allocated and dirty, MemoryImage unchanged. -/
theorem test_write_back_miss :
    let t := ran (.sd 5 6 0) (small (some (pair .lru .writeBack vacant vacant)) [] 16)
    counts t = some (0, 1, 0) ∧ dumped t = [(0, 2, true)] ∧ t.mem = [] ∧ t.dataView 16 = 0x88 := by decide

/-- S10: invalidation writes the dirty block back, counts it and leaves nothing valid. -/
theorem test_invalidate :
    let t := (small (some (pair .lru .writeBack (held 2 1 0x7B true) (held 4 2 1 false))) [] 16).cacheInvalidate
    counts t = some (0, 0, 1) ∧ dumped t = [] ∧ t.mem.readBytes 16 8 = List.replicate 8 0x7B ∧ t.mem.read 32 = 0 := by
  decide

/-- 20_memory R79: a dirty victim is written back to its reconstructed address and counted. -/
theorem test_dirty_victim_written_back :
    let t := ran (.ld 7 5 0) (small (some (pair .fifo .writeBack (held 2 1 0x7B true) (held 4 2 1 false))) [] 8)
    counts t = some (0, 1, 1) ∧ dumped t = [(0, 1, false), (0, 4, false)] ∧
      t.mem.readBytes 15 10 = [0] ++ List.replicate 8 0x7B ++ [0] := by decide

/-- 20_memory R103: a spanning store goes to MemoryImage alone, with the warning, uncounted. -/
theorem test_spanning_store :
    let t := ran (.sw 5 6 6) (small (some (pair .lru .writeBack (held 2 1 0 false) vacant)) [] 16)
    counts t = some (0, 0, 0) ∧ t.events = [.spanWarning 22 4] ∧ t.mem.read 22 = 0x88 ∧ t.dataView 22 = 0 ∧
      t.dataView 24 = 0x66 := by decide

/-- 95_test_vectors S11: associativity 0 is one set of size / block_size ways. -/
theorem test_fully_associative :
    (fun g => (cfgNumLines g, cfgWays g))
      { size := 32, blockSize := 8, associativity := 0, replacement := .lru, write := .writeBack } = (1, 4) := by decide

/-- 20_memory R94: the text of a dump line. -/
theorem test_dump_text :
    ({ index := 0, tag := 0x1A2, dirty := true } : DumpLine).text = "Set: 0x0, Tag: 0x1a2, Dirty" := by
  simp [DumpLine.text, hexDigits, Nat.toDigits, Nat.toDigitsCore, Nat.digitChar]

/-- 10_state R38, 60_exceptions R248: the statistics give all three counters. -/
theorem test_stats_give_writebacks :
    (ran (.ld 7 5 0) (small (some (pair .fifo .writeBack (held 2 1 0x7B true) (held 4 2 1 false))) [] 8)).cacheStats =
      some { accesses := 1, hits := 0, misses := 1, writebacks := 1 } := by decide

/-! ## The observer (60_exceptions R246, R247; 95_test_vectors S9) -/

/-- A controller at program start with a symbol at 0x10. -/
def observer : DebugController := DebugController.start [(0x10, "f")] [(0x100, 3)]

/-- `jal` pushes a frame labeled with its target's symbol, `jalr` pops it. -/
theorem test_call_pushes_and_ret_pops :
    (observer.observe (.call 0x10)).callStack.map (·.label) = ["f", ""] ∧
      (observer.observe (.call 0x10)).pop.callStack = observer.callStack := by decide

/-- `halted` pops the root frame from under others, and no frame once a `jalr` has popped the root. -/
theorem test_halted_pops_the_root_only :
    ((observer.observe (.call 0x10)).observe (.halted 0)).callStack.map (·.label) = ["f"] ∧
      (((observer.observe .ret).observe (.call 0x10)).observe (.halted 0)).callStack.map (·.label) = ["f"] := by decide

/-- `show_stack` lists the frames top to bottom, with the recorded line, or says that execution is complete. -/
theorem test_show_stack :
    ((observer.observe (.call 0x10)).recordLine (some 3)).showStack =
        .frames [{ label := "f", line := some 3 }, { label := "", line := none }] ∧
      (observer.observe (.halted 0)).showStack = .executionComplete := by decide

/-- 60_exceptions R245: `run()` reports a breakpoint at the current line, and the end of the run. -/
theorem test_run_report :
    (observer.addBreakpoint 3).runReport (start 0x100 [] []) = some (.breakpoint 3) ∧
      observer.runReport (start 0x100 [] []) = none ∧
      (observer.addBreakpoint 3).runReport (start 0x100 [] []).halt = some (.ended .halted) := by decide

/-! ## Witnesses: states and operands that meet the hypotheses of the statements -/

theorem witness_DecodeOfEncode :
    (Instr.beq 31 31 0x1000).wellFormed = true ∧ (Instr.bgeu 0 0 0x0FFE).wellFormed = true ∧
      (Instr.jal 31 0x1FFFFE).wellFormed = true ∧ (Instr.sd 31 31 0x800).wellFormed = true := by decide

theorem witness_EncodeOfDecode : decode 0xFE0F8FE3 = .ok (.beq 31 0 0x1FFE) ∧ decode 0xFFFFF0B7 = .ok (.lui 1 0xFFFFF) := by
  decide

/-- One word of each class of 30_encoding R124, at the edge of its range. -/
theorem witness_IllegalWordsExactly :
    ∀ w ∈ [0x0000007F#32, 0x02000033#32, 0x40001033#32, 0x04001013#32, 0x44005013#32, 0x80005013#32, 0x00007003#32,
      0x00004023#32, 0x00007023#32, 0x00002063#32, 0x00003063#32, 0x00001067#32, 0x00000001#32], illegalWord w := by
  intro w hw
  fin_cases hw <;> decide

theorem witness_ImmediateOfIType :
    (∃ i, decode 0x7FF10093 = .ok i ∧ i.format = .i ∧ i.immediate = some 2047) ∧
      (∃ i, decode 0x80012083 = .ok i ∧ i.format = .i ∧ i.immediate = some (-2048)) ∧
      ∃ i, decode 0xFFF000E7 = .ok i ∧ i.format = .i ∧ i.immediate = some (-1) :=
  ⟨⟨_, rfl, rfl, rfl⟩, ⟨_, rfl, rfl, rfl⟩, ⟨_, rfl, rfl, rfl⟩⟩

theorem witness_ImmediateOfSType :
    (∃ i, decode 0x7E62AFA3 = .ok i ∧ i.format = .s ∧ i.immediate = some 2047) ∧
      ∃ i, decode 0x8062A023 = .ok i ∧ i.format = .s ∧ i.immediate = some (-2048) :=
  ⟨⟨_, rfl, rfl, rfl⟩, ⟨_, rfl, rfl, rfl⟩⟩

theorem witness_ImmediateOfBType :
    (∃ i, decode 0x7E000FE3 = .ok i ∧ i.format = .b ∧ i.immediate = some 4094) ∧
      ∃ i, decode 0x80000063 = .ok i ∧ i.format = .b ∧ i.immediate = some (-4096) :=
  ⟨⟨_, rfl, rfl, rfl⟩, ⟨_, rfl, rfl, rfl⟩⟩

theorem witness_ImmediateOfUType :
    (∃ i, decode 0x7FFFF2B7 = .ok i ∧ i.format = .u ∧ i.immediate = some 0x7FFFF000) ∧
      ∃ i, decode 0x80000297 = .ok i ∧ i.format = .u ∧ i.immediate = some 0xFFFFFFFF80000000 :=
  ⟨⟨_, rfl, rfl, rfl⟩, ⟨_, rfl, rfl, rfl⟩⟩

theorem witness_ImmediateOfJType :
    (∃ i, decode 0x7FFFF0EF = .ok i ∧ i.format = .j ∧ i.immediate = some 1048574) ∧
      ∃ i, decode 0x800000EF = .ok i ∧ i.format = .j ∧ i.immediate = some (-1048576) :=
  ⟨⟨_, rfl, rfl, rfl⟩, ⟨_, rfl, rfl, rfl⟩⟩

theorem witness_ShiftAmountOfShiftForm :
    decode 0x03F11093 = .ok (.slli 1 2 63) ∧ decode 0x00015093 = .ok (.srli 1 2 0) ∧
      decode 0x03F15093 = .ok (.srli 1 2 63) ∧ decode 0x43F15093 = .ok (.srai 1 2 63) := by decide

/-- `addi x1, x0, -1` in the last four bytes of memory. -/
def lastWord : State := ({ small none [] 0 with pc := 60 } : State).placeWord 0xFFF00093

theorem witness_StepRunsDecoded :
    lastWord.runState = .running ∧ lastWord.pc.toNat % 4 = 0 ∧ lastWord.pc.toNat + 4 = lastWord.memCapacity ∧
      decodeBytes (lastWord.mem.readBytes lastWord.pc.toNat 4) = .ok (.addi 1 0 0xFFF, []) := by decide

theorem witness_ZeroWordHalts :
    let s : State := { small none [] 0 with pc := 60 }
    s.runState = .running ∧ s.pc.toNat % 4 = 0 ∧ s.pc.toNat + 4 = s.memCapacity ∧
      ∀ j < 4, s.mem.read (s.pc.toNat + j) = 0 := by decide

theorem witness_HaltedAndFaultedAbsorb :
    (small none [] 0).halt.runState ≠ .running ∧
      ((small none [] 0).raise .misalignedPC (.address 0)).runState ≠ .running ∧ lastWord.runState = .running ∧
      ∃ t, step lastWord = .next t ∧ t.runState = .running := ⟨by decide, by decide, by decide, _, rfl, rfl⟩

theorem witness_BadPcFaults :
    let s : State := small none [] 0
    let odd : State := { s with pc := 0xFFFFFFFFFFFFFFFF }
    let out : State := { s with pc := 64 }
    odd.runState = .running ∧ odd.pc.toNat % 4 ≠ 0 ∧ out.runState = .running ∧ capacityLegal out.memCapacity ∧
      out.pc.toNat % 4 = 0 ∧ out.memCapacity = out.pc.toNat := by decide

theorem witness_IllegalWordFaults :
    let s : State := ({ small none [] 0 with pc := 60 } : State).placeWord 0x00000073
    s.runState = .running ∧ s.pc.toNat % 4 = 0 ∧ s.pc.toNat + 4 = s.memCapacity ∧ illegalWord s.fetchWord ∧
      s.fault = none ∧ ∃ t r, step s = .next t ∧ t.fault = some r ∧ r.cause = .illegalInstruction :=
  ⟨by decide, by decide, by decide, by decide, by decide, _, _, rfl, rfl, rfl⟩

theorem witness_OnePcUpdatePerStep :
    (∃ t, step lastWord = .next t ∧ t.runState = .running) ∧
      (∃ t, step (small none [] 0) = .next t ∧ t.runState ≠ .running) ∧
      ∃ t, step (lastWord.setPc 61) = .next t ∧ t.runState ≠ .running :=
  ⟨⟨_, rfl, rfl⟩, ⟨_, rfl, by decide⟩, ⟨_, rfl, by decide⟩⟩

theorem witness_FaultsArePrecise :
    (lastWord.setPc 61).runState = .running ∧ ∃ t, step (lastWord.setPc 61) = .next t ∧ t.runState = .faulted :=
  ⟨by decide, _, rfl, rfl⟩

/-- With and without a destination, x0 among the destinations, with and without a data access. -/
theorem witness_OnlyDestinationChanges (s : State) :
    (∃ t, exec (.add 0 1 2) s = .next t) ∧ (∃ t, exec (.beq 1 2 8) s = .next t) ∧
      (Instr.add 0 1 2).dataAccess = none ∧ (Instr.add 0 1 2).dest = some 0 ∧ (Instr.beq 1 2 8).dest = none :=
  ⟨⟨_, rfl⟩, ⟨_, branchOp_next _ _ _ _ _⟩, rfl, rfl, rfl⟩

theorem witness_LuiResult : (0xFFFFFFB7#32 : InstrWord) &&& 0x0000007F = 0x00000037 := by decide
theorem witness_AuipcResult : (0x80000017#32 : InstrWord) &&& 0x0000007F = 0x00000017 := by decide

/-- The last address in range and the first out of range, for a load and a store; and one beyond every wrap. -/
theorem witness_DataFaultExactlyOutOfRange :
    (Instr.ld 7 5 0).dataAccess = some (5, 0, 8) ∧ (Instr.sb 5 6 0).dataAccess = some (5, 0, 1) ∧
      ((small none [] 56).baseDisp 5 0).toNat + 8 = 64 ∧ ((small none [] 57).baseDisp 5 0).toNat + 8 = 65 ∧
      ((small none [] 63).baseDisp 5 0).toNat + 1 = 64 ∧
      64 < ((small none [] 0xFFFFFFFFFFFFFFFF).baseDisp 5 0).toNat + 1 := by decide

theorem witness_LoadResultsUncached :
    (small none [(63, 0x80)] 56).cache = none ∧
      ∀ f ∈ loadForms 7 5 0, ((small none [(63, 0x80)] 56).baseDisp 5 0).toNat + f.2.1 ≤ 64 := by decide

/-! States with a cache that meet the invariant. -/

/-- Write-back and coherent: one dirty block, one clean one that agrees with memory. -/
def backState (r : Replacement) (base : Word) : State :=
  small (some (pair r .writeBack (held 2 1 0x7B true) (held 4 2 0 false))) [(48, 5)] base

/-- Write-through and coherent: one block that agrees with memory, one vacant slot. -/
def throughState (base : Word) : State := small (some (pair .fifo .writeThrough (held 6 1 0 false) vacant)) [(8, 5)] base

theorem small_inv {o : Option Cache} {mem : Memory} (hm : memoryLegal 64 mem) (hc : cacheLegal 64 o) (base : Word) :
    (small o mem base).Inv :=
  ⟨by show capacityLegal 64; decide, hm, hc,
    by show (none : Option FaultRecord).isSome = true ↔ RunState.running = .faulted; decide, by intro r hr; cases hr⟩

theorem backState_inv (r : Replacement) (base : Word) : (backState r base).Inv :=
  small_inv (by decide) (by cases r <;> decide) base

theorem backState_coherent (r : Replacement) (base : Word) : (backState r base).coherent := by
  show ∀ c ∈ some (pair r .writeBack (held 2 1 0x7B true) (held 4 2 0 false)), c.coherent [(48, 5)]
  cases r <;> decide

theorem throughState_inv (base : Word) : (throughState base).Inv := small_inv (by decide) (by decide) base

theorem throughState_coherent (base : Word) : (throughState base).coherent := by
  show ∀ c ∈ some (pair .fifo .writeThrough (held 6 1 0 false) vacant), c.coherent [(8, 5)]
  decide

/-- Held and not held, and spanning, up to the end of memory. -/
theorem witness_LoadResultsCached :
    (backState .lru 56).Inv ∧ (backState .lru 56).cache.isSome = true ∧
      (∀ f ∈ loadForms 7 5 0, ((backState .lru 56).baseDisp 5 0).toNat + f.2.1 ≤ 64) ∧
      (backState .lru 20).bypasses 20 8 = true ∧ (backState .lru 16).bypasses 16 8 = false :=
  ⟨backState_inv _ _, by decide, by decide, by decide, by decide⟩

/-- A load that evicts the dirty block. -/
theorem witness_CachedLoadKeepsDataView :
    (backState .fifo 48).Inv ∧ (backState .fifo 48).coherent ∧ (Instr.ld 7 5 0, 8, true) ∈ loadForms 7 5 0 ∧
      (backState .fifo 48).bypasses ((backState .fifo 48).baseDisp 5 0) 8 = false ∧
      ((backState .fifo 48).baseDisp 5 0).toNat + 8 ≤ (backState .fifo 48).memCapacity ∧
      ∃ t, exec (.ld 7 5 0) (backState .fifo 48) = .next t :=
  ⟨backState_inv _ _, backState_coherent _ _, by decide, by decide, by decide, _, rfl⟩

theorem witness_StoreResultsUncached :
    (small none [(63, 0x80)] 56).cache = none ∧ (small none [(63, 0x80)] 56).mem.wf = true ∧
      ∀ f ∈ storeForms 5 6 0, ((small none [(63, 0x80)] 56).baseDisp 5 0).toNat + f.2 ≤ 64 := by decide

/-- Every width, under both write policies, on a block that is held and on one that is not. -/
theorem witness_StoreResultsCached :
    (∀ s ∈ [backState .lru 16, backState .lru 56, throughState 48, throughState 56],
      s.Inv ∧ s.cache.isSome = true ∧ s.coherent) ∧
      ∀ s ∈ [backState .lru 16, backState .lru 56, throughState 48, throughState 56], ∀ f ∈ storeForms 5 6 0,
        s.bypasses (s.baseDisp 5 0) f.2 = false ∧ (s.baseDisp 5 0).toNat + f.2 ≤ s.memCapacity := by
  refine ⟨fun s hs => ?_, by decide⟩
  fin_cases hs
  · exact ⟨backState_inv _ _, by decide, backState_coherent _ _⟩
  · exact ⟨backState_inv _ _, by decide, backState_coherent _ _⟩
  · exact ⟨throughState_inv _, by decide, throughState_coherent _⟩
  · exact ⟨throughState_inv _, by decide, throughState_coherent _⟩

/-- WRITE_THROUGH, and WRITE_BACK on a block that is held and on one that is not. -/
theorem witness_CachedStoreAndMemoryImage :
    (∃ c t, (throughState 48).cache = some c ∧ c.cfg.write = .writeThrough ∧
      exec (.sd 5 6 0) (throughState 48) = .next t) ∧
      (∃ c t, (backState .lru 16).cache = some c ∧ c.cfg.write = .writeBack ∧ (c.holding 16).isSome = true ∧
        exec (.sd 5 6 0) (backState .lru 16) = .next t) ∧
      ∃ c t, (backState .lru 56).cache = some c ∧ (c.holding 56).isSome = false ∧
        exec (.sd 5 6 0) (backState .lru 56) = .next t :=
  ⟨⟨_, _, rfl, rfl, rfl⟩, ⟨_, _, rfl, rfl, by decide, rfl⟩, ⟨_, _, rfl, by decide, rfl⟩⟩

/-- The smallest and the largest overlap; a byte a valid entry holds. -/
theorem witness_SpanningAccessBypassesCache :
    let s := backState .lru 23
    s.mem.wf = true ∧ s.cache.isSome = true ∧ s.bypasses (s.baseDisp 5 0) 2 = true ∧
      s.bypasses (s.baseDisp 5 0) 8 = true ∧ s.bypasses (s.baseDisp 5 0) 1 = false ∧
      (s.baseDisp 5 0).toNat + 8 ≤ s.memCapacity ∧ ∀ c ∈ s.cache, (c.holding 23).isSome = true := by decide

/-- For each width; with the cache disabled, enabled, and bypassed. -/
theorem witness_LoadAfterStore :
    (∀ s ∈ [small none [] 56, backState .lru 56, backState .lru 23], s.Inv ∧ s.coherent) ∧
      ∀ s ∈ [small none [] 56, backState .lru 56, backState .lru 23],
        (∃ t u, exec (.sb 5 6 0) s = .next t ∧ exec (.lbu 7 5 0) t = .next u) ∧
        (∃ t u, exec (.sh 5 6 0) s = .next t ∧ exec (.lhu 7 5 0) t = .next u) ∧
        (∃ t u, exec (.sw 5 6 0) s = .next t ∧ exec (.lwu 7 5 0) t = .next u) ∧
        (∃ t u, exec (.sd 5 6 0) s = .next t ∧ exec (.ld 7 5 0) t = .next u) ∧
        (s.baseDisp 5 0).toNat + 8 ≤ s.memCapacity := by
  refine ⟨fun s hs => ?_, fun s hs => ⟨?_, ?_, ?_, ?_, ?_⟩⟩
  · fin_cases hs
    · exact ⟨small_inv (by decide) (by decide) _, by intro c hc; cases hc⟩
    · exact ⟨backState_inv _ _, backState_coherent _ _⟩
    · exact ⟨backState_inv _ _, backState_coherent _ _⟩
  · obtain ⟨t, ht, _⟩ := exec_shape (.sb 5 6 0) s
    obtain ⟨u, hu, _⟩ := exec_shape (.lbu 7 5 0) t
    exact ⟨t, u, ht, hu⟩
  · obtain ⟨t, ht, _⟩ := exec_shape (.sh 5 6 0) s
    obtain ⟨u, hu, _⟩ := exec_shape (.lhu 7 5 0) t
    exact ⟨t, u, ht, hu⟩
  · obtain ⟨t, ht, _⟩ := exec_shape (.sw 5 6 0) s
    obtain ⟨u, hu, _⟩ := exec_shape (.lwu 7 5 0) t
    exact ⟨t, u, ht, hu⟩
  · obtain ⟨t, ht, _⟩ := exec_shape (.sd 5 6 0) s
    obtain ⟨u, hu, _⟩ := exec_shape (.ld 7 5 0) t
    exact ⟨t, u, ht, hu⟩
  · fin_cases hs <;> decide

/-- Two sets of two ways, and the first and last byte of a block. -/
def quadCfg : CacheCfg := { size := 32, blockSize := 8, associativity := 2, replacement := .lru, write := .writeBack }

theorem witness_AddressSplitRoundTrip :
    (pair .lru .writeBack (held 2 1 0 true) vacant).legal 64 ∧ (Cache.construct quadCfg 0).legal 64 ∧
      1 < (Cache.construct quadCfg 0).numLines ∧ 7 < (Cache.construct quadCfg 0).cfg.blockSize :=
  ⟨by decide, legal_iff_slots.2 (construct_slots (by decide) 0), by decide, by decide⟩

theorem witness_LookupFindsTheOneMatch :
    let c := pair .lru .writeBack vacant (held 2 1 0 true)
    c.legal 64 ∧ 0 < c.numLines ∧ c.lookup 0 2 = some 1 ∧ c.lookup 0 7 = none := by decide

/-- An invalid slot behind a valid one; every slot valid, under each policy. -/
theorem witness_VictimRule :
    (pair .random .writeBack (held 2 1 0 true) vacant).legal 64 ∧
      ((pair .random .writeBack (held 2 1 0 true) vacant).entry 0 1).valid = false ∧
      (∀ l < 1, ((pair .random .writeBack (held 2 1 0 true) vacant).entry 0 l).valid = true) ∧
      (∀ r ∈ [Replacement.fifo, .lru, .random], (pair r .writeBack (held 2 3 0 true) (held 4 2 0 false)).legal 64 ∧
        ∀ k < 2, ((pair r .writeBack (held 2 3 0 true) (held 4 2 0 false)).entry 0 k).valid = true) := by decide

/-- A dirty victim, a clean victim, and an invalid one; the last address of memory. -/
theorem witness_FillEffect :
    ∀ y ∈ [(backState .fifo 0).hierarchy (pair .fifo .writeBack (held 2 1 0x7B true) (held 4 2 0 false)),
        (backState .lru 0).hierarchy (pair .lru .writeBack (held 2 3 0x7B true) (held 4 2 0 false)),
        (throughState 0).hierarchy (pair .fifo .writeThrough (held 6 1 0 false) vacant)],
      capacityLegal 64 ∧ memoryLegal 64 y.mem ∧ y.cache.legal 64 ∧ 63 < 64 ∧
        y.cache.lookup (y.cache.index 63) (y.cache.tag 63) = none := by decide

/-- A hit, a miss and a spanning access, for a load and a store. -/
theorem witness_CountersCountAccesses :
    (∀ base ∈ [16, 56, 20], (backState .lru base).Inv) ∧ (Instr.ld 7 5 0).dataAccess = some (5, 0, 8) ∧
      (Instr.sd 5 6 0).dataAccess = some (5, 0, 8) ∧ (backState .lru 20).bypasses 20 8 = true ∧
      (∀ c ∈ (backState .lru 16).cache, (c.holding 16).isSome = true ∧ (c.holding 56).isSome = false) ∧
      (∀ base, ∃ t, exec (.ld 7 5 0) (backState .lru base) = .next t) ∧
      ∀ base, ∃ t, exec (.sd 5 6 0) (backState .lru base) = .next t := by
  refine ⟨fun b _ => backState_inv _ _, rfl, rfl, by decide, by decide, fun b => ?_, fun b => ?_⟩
  · obtain ⟨t, ht, _⟩ := exec_shape (.ld 7 5 0) (backState .lru b)
    exact ⟨t, ht⟩
  · obtain ⟨t, ht, _⟩ := exec_shape (.sd 5 6 0) (backState .lru b)
    exact ⟨t, ht⟩

theorem witness_HitStampsUnderLruOnly :
    ∀ r ∈ [Replacement.fifo, .lru, .random], (pair r .writeBack (held 2 3 0 true) (held 4 2 0 false)).legal 64 ∧
      0 < (pair r .writeBack (held 2 3 0 true) (held 4 2 0 false)).numLines ∧
      1 < (pair r .writeBack (held 2 3 0 true) (held 4 2 0 false)).ways := by decide

theorem witness_InvalidateWritesBackEverything :
    (small none [] 0).cache = none ∧ (backState .lru 0).Inv ∧ (backState .lru 0).cache.isSome = true ∧
      (backState .lru 0).coherent := ⟨rfl, backState_inv _ _, rfl, backState_coherent _ _⟩

theorem witness_DumpListsValidEntries :
    (small none [] 0).cache = none ∧ (throughState 0).Inv ∧ (throughState 0).cache.isSome = true :=
  ⟨rfl, throughState_inv _, rfl⟩

/-- A legal configuration, the fully associative shorthand, and illegal ones: no size, and a size the set does not
divide. -/
theorem witness_EnableAndDisable :
    cfgLegal 64 quadCfg = true ∧ cfgLegal 64 { quadCfg with associativity := 0 } = true ∧
      cfgLegal 64 { quadCfg with size := 0 } = false ∧ cfgLegal 64 { quadCfg with size := 24 } = false ∧
      cfgLegal 64 { quadCfg with blockSize := 0 } = false := by decide

/-- A store to a held block and one to a block that is not held, under WRITE_THROUGH. -/
theorem witness_WriteThroughMemoryIsCurrent :
    (throughState 48).Inv ∧ (throughState 48).coherent ∧
      (∀ c ∈ (throughState 48).cache, c.cfg.write = .writeThrough) ∧
      (Instr.sd 5 6 0).dataAccess = some (5, 0, 8) ∧
      (throughState 48).bypasses ((throughState 48).baseDisp 5 0) 8 = false ∧
      (∃ t, exec (.sd 5 6 0) (throughState 48) = .next t) ∧
      (throughState 56).bypasses ((throughState 56).baseDisp 5 0) 8 = false :=
  ⟨throughState_inv _, throughState_coherent _, by decide, rfl, by decide, ⟨_, rfl⟩, by decide⟩

/-- The block of `backState` with its dirty data in memory and the cache disabled. -/
def backUncached (base : Word) : State :=
  small none ((List.range 8).map (fun j => (16 + j, 0x7B)) ++ [(48, 5)]) base

theorem witness_CacheIsTransparent :
    (backState .lru 56).Inv ∧ (backUncached 56).Inv ∧ (backState .lru 56).coherent ∧
      Uncached (backState .lru 56) (backUncached 56) ∧
      (backState .lru 56).bypasses ((backState .lru 56).baseDisp 5 0) 8 = false :=
  ⟨backState_inv _ _, small_inv (by decide) (by decide) _, backState_coherent _ _,
    ⟨fun _ => rfl, rfl, rfl, rfl, rfl, rfl, rfl, by decide⟩, by decide⟩

theorem witness_ResetRestoresResetValues :
    (small none [] 0).cache = none ∧ (backState .lru 0).Inv ∧ (backState .lru 0).cache.isSome = true :=
  ⟨rfl, backState_inv _ _, rfl⟩

/-- The last address of memory, and the first beyond it. -/
theorem witness_LoadWritesExactlyTheImage :
    ([(63, 0x80), (0, 1)] : List Host.Cell).map (fun cell => cell.1) = [63, 0] ∧ ([63, 0] : List Nat).Nodup ∧
      (∀ cell ∈ ([(63, 0x80), (0, 1)] : List Host.Cell), cell.1 < (small none [] 0).memCapacity) ∧
      ∃ cell ∈ ([(64, 0x80)] : List Host.Cell), (small none [] 0).memCapacity ≤ cell.1 := by decide

/-- One instruction, and a text segment that fills memory. -/
theorem witness_FirstStepFetchesAtZero :
    4 + 4 * ([] : List InstrWord).length ≤ (small none [] 0).memCapacity ∧
      4 + 4 * (List.replicate 15 (0x00000013 : InstrWord)).length = (small none [] 0).memCapacity ∧
      decode 0x00000013 = .ok (.addi 0 0 0) := by decide

/-- The run of one instruction and of the zero word. -/
theorem witness_RunRepeatsStep :
    (∃ t, runFuel 1 lastWord = .next t) ∧ lastWord.runState = .running ∧
      ∃ t, runFuel 1 (small none [] 0) = .next t ∧ t.runState ≠ .running :=
  ⟨⟨_, rfl⟩, by decide, _, rfl, by decide⟩

/-- A step with a call, one with a return, one that halts and one without an event. -/
theorem witness_ObserverFollowsStep :
    (∃ t, step (small none [] 0) = .next t ∧ t.events = [.halted 0]) ∧
      (∃ t, step ((small none [] 0).placeWord 0x00C000EF) = .next t ∧ t.events = [.call 12]) ∧
      (∃ t, step ((small none [] 0).placeWord 0x00008067) = .next t ∧ t.events = [.ret]) ∧
      ∃ t, step lastWord = .next t ∧ t.events = lastWord.events :=
  ⟨⟨_, rfl, rfl⟩, ⟨_, rfl, rfl⟩, ⟨_, rfl, rfl⟩, ⟨_, rfl, rfl⟩⟩

theorem witness_ResetMeetsInvariant : capacityLegal 8 ∧ capacityLegal (2 ^ 63 - 8) ∧ capacityLegal Config.resetCapacity := by
  decide

/-- A load that evicts a dirty block, placed at the pc and stepped. -/
theorem witness_StepKeepsInvariant :
    ((backState .fifo 56).placeWord 0x0002B383).Inv ∧
      ∃ t, step ((backState .fifo 56).placeWord 0x0002B383) = .next t :=
  ⟨⟨by decide, by decide, by decide, by decide⟩, _, rfl⟩

theorem witness_TransactionsKeepInvariant :
    (backState .lru 56).Inv ∧ ∀ x, ∃ t, transact x (backState .lru 56) = .next t := by
  refine ⟨backState_inv _ _, fun x => ?_⟩
  cases x
  case step =>
    obtain ⟨t, ht, _⟩ := step_shape (backState .lru 56)
    exact ⟨t, ht⟩
  case run fuel =>
    show ∃ t, runFuel fuel (backState .lru 56) = .next t
    generalize backState .lru 56 = s
    induction fuel generalizing s with
    | zero => exact ⟨s, rfl⟩
    | succ n ih =>
      unfold runFuel
      split
      · obtain ⟨t, ht, _⟩ := step_shape s
        rw [ht]
        exact ih t
      · exact ⟨s, rfl⟩
  all_goals exact ⟨_, rfl⟩

end Sys2Proof.Tests
end

section
/-! The statements of 20_memory.md about the cache controller's lookup. -/
namespace Sys2Proof.Machine

/-- In a legal cache a slot is found exactly when it matches: what is found matches whatever the cache holds, and a
matching slot is the one found because the tags of a set's valid entries are distinct (10_state R37, 20_memory R71). -/
theorem lookup_eq_some_iff {c : Cache} {capacity : Nat} (h : c.Slots capacity) {i k : Nat} {t : Word}
    (hi : i < c.numLines) :
    c.lookup i t = some k ↔ k < c.ways ∧ (c.entry i k).valid = true ∧ (c.entry i k).tag = t := by
  constructor
  · intro hl
    obtain ⟨hk, hv, ht⟩ := lookup_some hl
    exact ⟨h.slots i hi ▸ hk, hv, ht⟩
  · rintro ⟨hk, hv, ht⟩
    exact lookup_eq_some h hi hk hv ht

/-- Settles O42: legality is legality slot by slot, and there a slot is found exactly when it matches. -/
theorem lookupFindsTheOneMatch : Obligations.LookupFindsTheOneMatch := by
  unfold Obligations.LookupFindsTheOneMatch
  intro c capacity i k t hlegal hi
  exact lookup_eq_some_iff (legal_iff_slots.1 hlegal) hi

end Sys2Proof.Machine
end

section
/-! The statements of 30_encoding.md about immediates and shift amounts: which field of its word a decoded instruction
takes its immediate from, and the bits and the range of each field's extension. -/
namespace Sys2Proof
open Machine

/-! ## What a word that decodes fixes -/

/-- A word that selects a row has the pattern's bits in every field the mask covers. -/
theorem extract_eq_of_selects {w m p : InstrWord} {lo n : Nat} (h : w &&& m = p)
    (hm : m.extractLsb' lo n = BitVec.allOnes n) : w.extractLsb' lo n = p.extractLsb' lo n := by
  rw [← h, BitVec.extractLsb'_and, hm, BitVec.and_allOnes]

/-- Every row fixes the opcode, and those of opcode 0010011 fix funct3 too (30_encoding R121). -/
theorem rows_fix_opcode_and_funct3 : ∀ r ∈ rows, r.mask.extractLsb' 0 7 = BitVec.allOnes 7 ∧
    (r.pattern.extractLsb' 0 7 = 0x13#7 → r.mask.extractLsb' 12 3 = BitVec.allOnes 3) := by decide

/-- A row builds instructions of one format, whatever the word: the format can be read off at the zero word. -/
theorem rows_format_const : ∀ r ∈ rows, ∀ w, (r.build w).format = (r.build 0).format := by
  intro r hr w
  fin_cases hr <;> rfl

/-- The opcode and funct3 of the I format: arithmetic on an immediate that does not shift, the loads, `jalr`
(30_encoding R111, R121). -/
abbrev HasIFormatSelectors (w : InstrWord) : Prop :=
  (w.extractLsb' 0 7 = 0x13#7 ∧ w.extractLsb' 12 3 ≠ 1#3 ∧ w.extractLsb' 12 3 ≠ 5#3) ∨
    w.extractLsb' 0 7 = 0x03#7 ∨ w.extractLsb' 0 7 = 0x67#7

theorem rows_format_i_iff : ∀ r ∈ rows, ((r.build 0).format = .i ↔ HasIFormatSelectors r.pattern) := by decide

/-- A decoded instruction is of the I format exactly when the opcode and funct3 of its word say so: they are those of
the pattern it selects. -/
theorem format_i_iff_of_decode {w : InstrWord} {i : Instr} (h : decode w = .ok i) :
    i.format = .i ↔ HasIFormatSelectors w := by
  obtain ⟨r, hr, hs, rfl⟩ := decode_ok_iff.1 h
  obtain ⟨hopcode, hfunct3⟩ := rows_fix_opcode_and_funct3 r hr
  rw [rows_format_const r hr, rows_format_i_iff r hr]
  unfold HasIFormatSelectors
  rw [extract_eq_of_selects hs hopcode]
  refine or_congr_left (and_congr_right fun hop => ?_)
  rw [extract_eq_of_selects hs (hfunct3 hop)]

/-- The instructions of the U format (30_encoding R116). -/
theorem format_u_iff (i : Instr) :
    i.format = .u ↔ (∃ rd imm20, i = .lui rd imm20) ∨ ∃ rd imm20, i = .auipc rd imm20 := by
  cases i <;> simp [Instr.format]

/-- The immediate a format takes from a word: its field, extended (30_encoding R113 to R118). -/
def Format.immediateIn (w : InstrWord) : Format → Option Word
  | .i => some (extImm12 (fieldImmI w))
  | .s => some (extImm12 (fieldImmS w))
  | .b => some (extImm13 (fieldImmB w))
  | .u => some (extImmU (fieldImmU w))
  | .j => some (extImm21 (fieldImmJ w))
  | .r | .shift => none

/-- A decoded instruction has the immediate its format takes from the word: so it is for each row. -/
theorem immediate_of_decode {w : InstrWord} {i : Instr} {f : Format} (h : decode w = .ok i) (hf : i.format = f) :
    i.immediate = f.immediateIn w := by
  obtain ⟨r, hr, -, rfl⟩ := decode_ok_iff.1 h
  subst hf
  fin_cases hr <;> rfl

/-- The rows of the shift form (30_encoding R119, R121). -/
theorem shift_rows : (rows.filter fun r => (r.build 0).format = .shift) =
    [⟨maskShift, 0x00001013, buildShift .slli⟩, ⟨maskShift, 0x00005013, buildShift .srli⟩,
      ⟨maskShift, 0x40005013, buildShift .srai⟩] := rfl

/-- What a word is that decodes to a shift form, and its operands (30_encoding R119). -/
theorem decode_shift_cases {w : InstrWord} {i : Instr} (h : decode w = .ok i) (hf : i.format = .shift) :
    (w &&& maskShift = 0x00001013 ∧ i = .slli (fieldRd w) (fieldRs1 w) (fieldShamt w)) ∨
      (w &&& maskShift = 0x00005013 ∧ i = .srli (fieldRd w) (fieldRs1 w) (fieldShamt w)) ∨
      (w &&& maskShift = 0x40005013 ∧ i = .srai (fieldRd w) (fieldRs1 w) (fieldShamt w)) := by
  obtain ⟨r, hr, hs, rfl⟩ := decode_ok_iff.1 h
  rw [rows_format_const r hr] at hf
  have hmem : r ∈ rows.filter fun r => (r.build 0).format = .shift := List.mem_filter.2 ⟨hr, decide_eq_true hf⟩
  rw [shift_rows] at hmem
  simp only [List.mem_cons, List.not_mem_nil, or_false] at hmem
  obtain rfl | rfl | rfl := hmem
  · exact .inl ⟨hs, rfl⟩
  · exact .inr (.inl ⟨hs, rfl⟩)
  · exact .inr (.inr ⟨hs, rfl⟩)

/-! ## The bits of an immediate -/

/-- A bit of a sign extension is the bit of the field in this place, or its top bit. -/
theorem getLsbD_signExtend_eq_min {n m b : Nat} (x : BitVec n) (hb : b < m) :
    (x.signExtend m).getLsbD b = x.getLsbD (min b (n - 1)) := by
  rw [BitVec.getLsbD_signExtend, BitVec.msb_eq_getLsbD_last, decide_eq_true hb, Bool.true_and]
  split
  · rw [min_eq_left (by omega)]
  · rw [min_eq_right (by omega)]

theorem getLsbD_extImm12_fieldImmI (w : InstrWord) {b : Nat} (hb : b < 64) : (extImm12 (fieldImmI w)).getLsbD b =
    if b < 12 then w.getLsbD (20 + b) else w.getLsbD 31 := by
  rw [extImm12, getLsbD_signExtend_eq_min _ hb, fieldImmI, BitVec.getLsbD_extractLsb']
  split
  · simp [show min b 11 = b by omega, show b < 12 by assumption]
  · simp [show min b 11 = 11 by omega]

theorem getLsbD_extImm12_fieldImmS (w : InstrWord) {b : Nat} (hb : b < 64) : (extImm12 (fieldImmS w)).getLsbD b =
    if b < 5 then w.getLsbD (7 + b) else if b < 12 then w.getLsbD (25 + (b - 5)) else w.getLsbD 31 := by
  rw [extImm12, getLsbD_signExtend_eq_min _ hb, fieldImmS]
  simp only [BitVec.getLsbD_append, BitVec.getLsbD_extractLsb']
  rcases Nat.lt_or_ge b 12 with h | h
  · interval_cases b <;> simp
  · simp [show min b 11 = 11 by omega, show ¬ b < 5 by omega, show ¬ b < 12 by omega]

theorem getLsbD_extImm13_fieldImmB (w : InstrWord) {b : Nat} (hb : b < 64) : (extImm13 (fieldImmB w)).getLsbD b =
    if b = 0 then false else if b < 5 then w.getLsbD (8 + (b - 1)) else if b < 11 then w.getLsbD (25 + (b - 5))
      else if b = 11 then w.getLsbD 7 else w.getLsbD 31 := by
  rw [extImm13, getLsbD_signExtend_eq_min _ hb, fieldImmB]
  simp only [BitVec.getLsbD_append, BitVec.getLsbD_extractLsb']
  rcases Nat.lt_or_ge b 12 with h | h
  · interval_cases b <;> simp
  · simp [min_eq_right h, show b ≠ 0 by omega, show ¬ b < 5 by omega, show ¬ b < 11 by omega, show b ≠ 11 by omega]

theorem getLsbD_extImmU_fieldImmU (w : InstrWord) {b : Nat} (hb : b < 64) : (extImmU (fieldImmU w)).getLsbD b =
    if b < 12 then false else if b < 32 then w.getLsbD b else w.getLsbD 31 := by
  rw [extImmU, getLsbD_signExtend_eq_min _ hb, fieldImmU]
  simp only [BitVec.getLsbD_append, BitVec.getLsbD_extractLsb']
  rcases Nat.lt_or_ge b 32 with h | h
  · interval_cases b <;> simp
  · simp [show min b 31 = 31 by omega, show ¬ b < 12 by omega, show ¬ b < 32 by omega]

theorem getLsbD_extImm21_fieldImmJ (w : InstrWord) {b : Nat} (hb : b < 64) : (extImm21 (fieldImmJ w)).getLsbD b =
    if b = 0 then false else if b < 11 then w.getLsbD (21 + (b - 1)) else if b = 11 then w.getLsbD 20
      else if b < 20 then w.getLsbD b else w.getLsbD 31 := by
  rw [extImm21, getLsbD_signExtend_eq_min _ hb, fieldImmJ]
  simp only [BitVec.getLsbD_append, BitVec.getLsbD_extractLsb']
  rcases Nat.lt_or_ge b 20 with h | h
  · interval_cases b <;> simp
  · simp [min_eq_right h, show b ≠ 0 by omega, show ¬ b < 11 by omega, show ¬ b < 20 by omega, show b ≠ 11 by omega]

/-! ## The range of an immediate -/

theorem extImm12_range (x : BitVec 12) : -2048 ≤ (extImm12 x).toInt ∧ (extImm12 x).toInt ≤ 2047 := by
  have hlo := x.le_toInt
  have hhi := x.toInt_lt
  rw [extImm12, BitVec.toInt_signExtend_of_le (by omega)]
  omega

/-- The extension of a field over `k` zeros is the field's signed value times `2^k`. -/
theorem toInt_signExtend_append_zero {n k m : Nat} (x : BitVec n) (h : n + k ≤ m) :
    ((x ++ 0#k).signExtend m).toInt = 2 ^ k * x.toInt := by
  rw [BitVec.toInt_signExtend_of_le h, BitVec.toInt_append_zero]

theorem extImm13_fieldImmB_range (w : InstrWord) : -4096 ≤ (extImm13 (fieldImmB w)).toInt ∧
    (extImm13 (fieldImmB w)).toInt ≤ 4094 ∧ (extImm13 (fieldImmB w)).toInt % 2 = 0 := by
  obtain ⟨y, hy⟩ : ∃ y : BitVec 12, fieldImmB w = y ++ 0#1 := ⟨_, rfl⟩
  have hlo := y.le_toInt
  have hhi := y.toInt_lt
  rw [hy, extImm13, toInt_signExtend_append_zero y (by omega)]
  omega

theorem extImmU_range (x : BitVec 20) : -2 ^ 31 ≤ (extImmU x).toInt ∧ (extImmU x).toInt ≤ 2 ^ 31 - 4096 ∧
    (extImmU x).toInt % 4096 = 0 := by
  have hlo := x.le_toInt
  have hhi := x.toInt_lt
  rw [extImmU, toInt_signExtend_append_zero x (by omega)]
  omega

theorem extImm21_fieldImmJ_range (w : InstrWord) : -2 ^ 20 ≤ (extImm21 (fieldImmJ w)).toInt ∧
    (extImm21 (fieldImmJ w)).toInt ≤ 2 ^ 20 - 2 ∧ (extImm21 (fieldImmJ w)).toInt % 2 = 0 := by
  obtain ⟨y, hy⟩ : ∃ y : BitVec 20, fieldImmJ w = y ++ 0#1 := ⟨_, rfl⟩
  have hlo := y.le_toInt
  have hhi := y.toInt_lt
  rw [hy, extImm21, toInt_signExtend_append_zero y (by omega)]
  omega

/-! ## The fields of the shift form -/

theorem getLsbD_fieldShamt (w : InstrWord) {b : Nat} (hb : b < 6) : (fieldShamt w).getLsbD b = w.getLsbD (20 + b) := by
  simp [fieldShamt, hb]

/-- Bits 31:26 of a word that selects a row of the shift form are the pattern's (30_encoding R119). -/
theorem selector_bits_of_maskShift {w p : InstrWord} (h : w &&& maskShift = p) {b : Nat} (hlo : 26 ≤ b) (hb : b < 32) :
    w.getLsbD b = p.getLsbD b := by
  have hm : ∀ c < 32, 26 ≤ c → maskShift.getLsbD c = true := by decide
  rw [← h, BitVec.getLsbD_and, hm b hb hlo, Bool.and_true]

/-! ## The statements -/

/-- Settles O5: the selectors of the I format are the pattern's, and the immediate is the extended I field. -/
theorem immediateOfIType : Obligations.ImmediateOfIType := by
  unfold Obligations.ImmediateOfIType
  intro w i h
  exact ⟨format_i_iff_of_decode h, fun hf => ⟨_, immediate_of_decode h hf,
    fun _ hb => getLsbD_extImm12_fieldImmI w hb, extImm12_range _⟩⟩

/-- Settles O6: the immediate is the extended S field. -/
theorem immediateOfSType : Obligations.ImmediateOfSType := by
  unfold Obligations.ImmediateOfSType
  intro w i h hf
  exact ⟨_, immediate_of_decode h hf, fun _ hb => getLsbD_extImm12_fieldImmS w hb, extImm12_range _⟩

/-- Settles O7: the immediate is the extended B field; the example is the word of a branch to 8 bytes ahead. -/
theorem immediateOfBType : Obligations.ImmediateOfBType := by
  unfold Obligations.ImmediateOfBType
  constructor
  · intro w i h hf
    exact ⟨_, immediate_of_decode h hf, fun _ hb => getLsbD_extImm13_fieldImmB w hb, extImm13_fieldImmB_range w⟩
  · exact ⟨.beq 1 2 8, rfl, rfl, rfl⟩

/-- Settles O8: `lui` and `auipc` are the U format, and the immediate is the extended U field over twelve zeros. -/
theorem immediateOfUType : Obligations.ImmediateOfUType := by
  unfold Obligations.ImmediateOfUType
  intro w i h
  exact ⟨format_u_iff i, fun hf => ⟨_, immediate_of_decode h hf,
    fun _ hb => getLsbD_extImmU_fieldImmU w hb, extImmU_range _⟩⟩

/-- Settles O9: the immediate is the extended J field. -/
theorem immediateOfJType : Obligations.ImmediateOfJType := by
  unfold Obligations.ImmediateOfJType
  intro w i h hf
  exact ⟨_, immediate_of_decode h hf, fun _ hb => getLsbD_extImm21_fieldImmJ w hb, extImm21_fieldImmJ_range w⟩

/-- Settles O10: the three rows of the shift form take the shift amount from bits 25:20 and fix bits 31:26. -/
theorem shiftAmountOfShiftForm : Obligations.ShiftAmountOfShiftForm := by
  unfold Obligations.ShiftAmountOfShiftForm
  have hsrli : ∀ b < 32, 26 ≤ b → (0x00005013 : InstrWord).getLsbD b = false := by decide
  have hsrai : ∀ b < 32, 26 ≤ b → (0x40005013 : InstrWord).getLsbD b = decide (b = 30) := by decide
  intro w rd rs1 shamt
  refine ⟨fun h => ?_, fun h => ?_, fun h => ?_⟩
  · obtain ⟨-, ⟨⟩⟩ | ⟨-, ⟨⟩⟩ | ⟨-, ⟨⟩⟩ := decode_shift_cases h rfl
    exact fun _ hb => getLsbD_fieldShamt w hb
  · obtain ⟨-, ⟨⟩⟩ | ⟨hs, ⟨⟩⟩ | ⟨-, ⟨⟩⟩ := decode_shift_cases h rfl
    exact ⟨fun _ hb => getLsbD_fieldShamt w hb,
      fun b hlo hb => (selector_bits_of_maskShift hs hlo hb).trans (hsrli b hb hlo)⟩
  · obtain ⟨-, ⟨⟩⟩ | ⟨-, ⟨⟩⟩ | ⟨hs, ⟨⟩⟩ := decode_shift_cases h rfl
    exact ⟨fun _ hb => getLsbD_fieldShamt w hb,
      fun b hlo hb => (selector_bits_of_maskShift hs hlo hb).trans (hsrai b hb hlo)⟩

end Sys2Proof
end

section
/-! The statement of 45_upper_immediate.md about `lui`. -/
namespace Sys2Proof
open Machine

/-- Every word with opcode 0110111 is a `lui` of its rd and U fields (30_encoding R116, R121). -/
theorem decode_lui {w : InstrWord} (h : w &&& maskOpcode = 0x00000037) :
    decode w = .ok (.lui (fieldRd w) (fieldImmU w)) := by
  have hr : (⟨maskOpcode, 0x00000037, buildU .lui⟩ : Row) ∈ rows :=
    List.mem_append_right _ (List.mem_cons_self ..)
  exact decode_of_selects hr h

/-- `lui` completes in every state: it retires with the extended immediate (45_upper_immediate R210). -/
theorem exec_lui (rd : Reg) (imm20 : BitVec 20) (s : State) :
    exec (.lui rd imm20) s = .next (s.retire rd (extImmU imm20)) := rfl

/-- Settles O27: the word selects the row of `lui`, which retires with the extended U field and only computes. -/
theorem luiResult : Obligations.LuiResult := by
  unfold Obligations.LuiResult
  intro s w hw
  exact ⟨fieldRd w, fieldImmU w, _, _, decode_lui hw, rfl, exec_lui _ _ s, retire_computes s _ _,
    fun _ hb => getLsbD_extImmU_fieldImmU w hb⟩

end Sys2Proof
end

section
/-! The statements of 30_encoding.md about the decoder and the encoder: each undoes the other, row by row of the opcode
table, and the words no row selects are the illegal ones. -/
namespace Sys2Proof

/-! ## Decoding an encoded instruction

Each encoder's word selects the row whose pattern is the same encoding with every operand zero; `k` is that row's place
in the table. -/

theorem decode_of_row {r : Row} {w : InstrWord} {i : Instr} (k : Nat) (h : rows[k]? = some r)
    (hs : w &&& r.mask = r.pattern) (hb : r.build w = i) : decode w = .ok i :=
  hb ▸ decode_of_selects (List.mem_of_getElem? h) hs

theorem decode_encodeR {op : Reg → Reg → Reg → Instr} {f7 : BitVec 7} {f3 : BitVec 3} {rd rs1 rs2 : Reg} (k : Nat)
    (h : rows[k]? = some ⟨maskR, encodeR f7 f3 0#5 0#5 0#5, buildR op⟩) :
    decode (encodeR f7 f3 rd rs1 rs2) = .ok (op rd rs1 rs2) :=
  decode_of_row k h (encodeR_masked ..) (buildR_encodeR ..)

theorem decode_encodeI {op : Reg → Reg → BitVec 12 → Instr} {opc : BitVec 7} {f3 : BitVec 3} {rd rs1 : Reg}
    {imm : BitVec 12} (k : Nat) (h : rows[k]? = some ⟨maskFunct3, encodeI opc f3 0#5 0#5 0#12, buildI op⟩) :
    decode (encodeI opc f3 rd rs1 imm) = .ok (op rd rs1 imm) :=
  decode_of_row k h (encodeI_masked ..) (buildI_encodeI ..)

theorem decode_encodeShift {op : Reg → Reg → BitVec 6 → Instr} {sel : BitVec 6} {f3 : BitVec 3} {rd rs1 : Reg}
    {shamt : BitVec 6} (k : Nat) (h : rows[k]? = some ⟨maskShift, encodeShift sel f3 0#5 0#5 0#6, buildShift op⟩) :
    decode (encodeShift sel f3 rd rs1 shamt) = .ok (op rd rs1 shamt) :=
  decode_of_row k h (encodeShift_masked ..) (buildShift_encodeShift ..)

theorem decode_encodeS {op : Reg → Reg → BitVec 12 → Instr} {f3 : BitVec 3} {rs1 rs2 : Reg} {imm : BitVec 12}
    (k : Nat) (h : rows[k]? = some ⟨maskFunct3, encodeS f3 0#5 0#5 0#12, buildS op⟩) :
    decode (encodeS f3 rs1 rs2 imm) = .ok (op rs1 rs2 imm) :=
  decode_of_row k h (encodeS_masked f3 rs1 rs2 imm) (buildS_encodeS op f3 rs1 rs2 imm)

theorem decode_encodeB {op : Reg → Reg → BitVec 13 → Instr} {f3 : BitVec 3} {rs1 rs2 : Reg} {imm : BitVec 13}
    (k : Nat) (h : rows[k]? = some ⟨maskFunct3, encodeB f3 0#5 0#5 0#13, buildB op⟩) (heven : evenOffset13 imm = true) :
    decode (encodeB f3 rs1 rs2 imm) = .ok (op rs1 rs2 imm) :=
  decode_of_row k h (encodeB_masked ..) (buildB_encodeB op f3 rs1 rs2 imm heven)

theorem decode_encodeU {op : Reg → BitVec 20 → Instr} {opc : BitVec 7} {rd : Reg} {imm : BitVec 20} (k : Nat)
    (h : rows[k]? = some ⟨maskOpcode, encodeU opc 0#5 0#20, buildU op⟩) :
    decode (encodeU opc rd imm) = .ok (op rd imm) :=
  decode_of_row k h (encodeU_masked ..) (buildU_encodeU ..)

theorem decode_encodeJ {op : Reg → BitVec 21 → Instr} {rd : Reg} {imm : BitVec 21} (k : Nat)
    (h : rows[k]? = some ⟨maskOpcode, 0x6F, buildJ op⟩) (heven : evenOffset21 imm = true) :
    decode (encodeJ rd imm) = .ok (op rd imm) :=
  decode_of_row k h (encodeJ_masked ..) (buildJ_encodeJ op rd imm heven)

/-- Settles O2: the word of each instruction selects that instruction's row, and the row's fields give its operands
back; an offset of a branch or `jal` comes back because it is even. -/
theorem decodeOfEncode : Obligations.DecodeOfEncode := by
  unfold Obligations.DecodeOfEncode
  intro i hwf
  cases i with
  | add => exact decode_encodeR 0 rfl
  | sub => exact decode_encodeR 1 rfl
  | sll => exact decode_encodeR 2 rfl
  | slt => exact decode_encodeR 3 rfl
  | sltu => exact decode_encodeR 4 rfl
  | xor => exact decode_encodeR 5 rfl
  | srl => exact decode_encodeR 6 rfl
  | sra => exact decode_encodeR 7 rfl
  | or => exact decode_encodeR 8 rfl
  | and => exact decode_encodeR 9 rfl
  | addi => exact decode_encodeI 10 rfl
  | slli => exact decode_encodeShift 11 rfl
  | slti => exact decode_encodeI 12 rfl
  | sltiu => exact decode_encodeI 13 rfl
  | xori => exact decode_encodeI 14 rfl
  | srli => exact decode_encodeShift 15 rfl
  | srai => exact decode_encodeShift 16 rfl
  | ori => exact decode_encodeI 17 rfl
  | andi => exact decode_encodeI 18 rfl
  | lb => exact decode_encodeI 19 rfl
  | lh => exact decode_encodeI 20 rfl
  | lw => exact decode_encodeI 21 rfl
  | ld => exact decode_encodeI 22 rfl
  | lbu => exact decode_encodeI 23 rfl
  | lhu => exact decode_encodeI 24 rfl
  | lwu => exact decode_encodeI 25 rfl
  | sb => exact decode_encodeS 26 rfl
  | sh => exact decode_encodeS 27 rfl
  | sw => exact decode_encodeS 28 rfl
  | sd => exact decode_encodeS 29 rfl
  | beq => exact decode_encodeB 30 rfl hwf
  | bne => exact decode_encodeB 31 rfl hwf
  | blt => exact decode_encodeB 32 rfl hwf
  | bge => exact decode_encodeB 33 rfl hwf
  | bltu => exact decode_encodeB 34 rfl hwf
  | bgeu => exact decode_encodeB 35 rfl hwf
  | lui => exact decode_encodeU 36 rfl
  | auipc => exact decode_encodeU 37 rfl
  | jal => exact decode_encodeJ 38 rfl hwf
  | jalr => exact decode_encodeI 39 rfl

/-- Settles O1: the decoder evaluated on each word. -/
theorem decodesExampleWords : Obligations.DecodesExampleWords := by
  unfold Obligations.DecodesExampleWords
  decide

end Sys2Proof
end

section
/-! The statements of 30_encoding.md about the words that decode and those that do not. -/
namespace Sys2Proof

/-! ## Encoding a decoded word -/

/-- A word that selects the row stands for a well-formed instruction and is its encoding. -/
abbrev Row.Encodes (r : Row) : Prop :=
  ∀ w, w &&& r.mask = r.pattern → (r.build w).wellFormed = true ∧ encode (r.build w) = w

section
variable {p : InstrWord}

theorem encodes_R {op : Reg → Reg → Reg → Instr} (hp : p &&& maskR = p) (hopc : p.extractLsb' 0 7 = 0x33#7)
    (hwf : ∀ rd rs1 rs2, (op rd rs1 rs2).wellFormed = true)
    (henc : ∀ rd rs1 rs2, encode (op rd rs1 rs2) = encodeR (p.extractLsb' 25 7) (p.extractLsb' 12 3) rd rs1 rs2) :
    (⟨maskR, p, buildR op⟩ : Row).Encodes := by
  intro w hw
  obtain ⟨h0, h3, h7⟩ := (selects_funct7 hp).1 hw
  refine ⟨hwf .., ?_⟩
  show encode (op _ _ _) = w
  rw [henc, ← h3, ← h7, encodeR_fields (h0.trans hopc)]

theorem encodes_I {op : Reg → Reg → BitVec 12 → Instr} (hp : p &&& maskFunct3 = p)
    (hwf : ∀ rd rs1 imm, (op rd rs1 imm).wellFormed = true)
    (henc : ∀ rd rs1 imm, encode (op rd rs1 imm) = encodeI (p.extractLsb' 0 7) (p.extractLsb' 12 3) rd rs1 imm) :
    (⟨maskFunct3, p, buildI op⟩ : Row).Encodes := by
  intro w hw
  obtain ⟨h0, h3⟩ := (selects_funct3 hp).1 hw
  refine ⟨hwf .., ?_⟩
  show encode (op _ _ _) = w
  rw [henc, ← h0, ← h3, encodeI_fields]

theorem encodes_shift {op : Reg → Reg → BitVec 6 → Instr} (hp : p &&& maskShift = p) (hopc : p.extractLsb' 0 7 = 0x13#7)
    (hwf : ∀ rd rs1 shamt, (op rd rs1 shamt).wellFormed = true)
    (henc : ∀ rd rs1 shamt,
      encode (op rd rs1 shamt) = encodeShift (p.extractLsb' 26 6) (p.extractLsb' 12 3) rd rs1 shamt) :
    (⟨maskShift, p, buildShift op⟩ : Row).Encodes := by
  intro w hw
  obtain ⟨h0, h3, h6⟩ := (selects_shift hp).1 hw
  refine ⟨hwf .., ?_⟩
  show encode (op _ _ _) = w
  rw [henc, ← h3, ← h6, encodeShift_fields (h0.trans hopc)]

theorem encodes_S {op : Reg → Reg → BitVec 12 → Instr} (hp : p &&& maskFunct3 = p) (hopc : p.extractLsb' 0 7 = 0x23#7)
    (hwf : ∀ rs1 rs2 imm, (op rs1 rs2 imm).wellFormed = true)
    (henc : ∀ rs1 rs2 imm, encode (op rs1 rs2 imm) = encodeS (p.extractLsb' 12 3) rs1 rs2 imm) :
    (⟨maskFunct3, p, buildS op⟩ : Row).Encodes := by
  intro w hw
  obtain ⟨h0, h3⟩ := (selects_funct3 hp).1 hw
  refine ⟨hwf .., ?_⟩
  show encode (op _ _ _) = w
  rw [henc, ← h3, encodeS_fields (h0.trans hopc)]

theorem encodes_B {op : Reg → Reg → BitVec 13 → Instr} (hp : p &&& maskFunct3 = p) (hopc : p.extractLsb' 0 7 = 0x63#7)
    (hwf : ∀ rs1 rs2 imm, (op rs1 rs2 imm).wellFormed = evenOffset13 imm)
    (henc : ∀ rs1 rs2 imm, encode (op rs1 rs2 imm) = encodeB (p.extractLsb' 12 3) rs1 rs2 imm) :
    (⟨maskFunct3, p, buildB op⟩ : Row).Encodes := by
  intro w hw
  obtain ⟨h0, h3⟩ := (selects_funct3 hp).1 hw
  refine ⟨(hwf ..).trans (fieldImmB_even w), ?_⟩
  show encode (op _ _ _) = w
  rw [henc, ← h3, encodeB_fields (h0.trans hopc)]

theorem encodes_U {op : Reg → BitVec 20 → Instr} (hp : p &&& maskOpcode = p)
    (hwf : ∀ rd imm, (op rd imm).wellFormed = true)
    (henc : ∀ rd imm, encode (op rd imm) = encodeU (p.extractLsb' 0 7) rd imm) :
    (⟨maskOpcode, p, buildU op⟩ : Row).Encodes := by
  intro w hw
  have h0 := (selects_opcode hp).1 hw
  refine ⟨hwf .., ?_⟩
  show encode (op _ _) = w
  rw [henc, ← h0, encodeU_fields]

end

theorem encodes_jal : (⟨maskOpcode, 0x0000006F, buildJ .jal⟩ : Row).Encodes := by
  intro w hw
  have h0 : w.extractLsb' 0 7 = 0x6F#7 := (selects_opcode (by decide)).1 hw
  exact ⟨fieldImmJ_even w, encodeJ_fields h0⟩

theorem rows_encode : ∀ r ∈ rows, r.Encodes := by
  intro r hr
  simp only [rows, List.mem_append] at hr
  obtain ((((hr | hr) | hr) | hr) | hr) | hr := hr
  · fin_cases hr <;> exact encodes_R rfl rfl (fun _ _ _ => rfl) (fun _ _ _ => rfl)
  · fin_cases hr
    · exact encodes_I rfl (fun _ _ _ => rfl) (fun _ _ _ => rfl)
    · exact encodes_shift rfl rfl (fun _ _ _ => rfl) (fun _ _ _ => rfl)
    · exact encodes_I rfl (fun _ _ _ => rfl) (fun _ _ _ => rfl)
    · exact encodes_I rfl (fun _ _ _ => rfl) (fun _ _ _ => rfl)
    · exact encodes_I rfl (fun _ _ _ => rfl) (fun _ _ _ => rfl)
    · exact encodes_shift rfl rfl (fun _ _ _ => rfl) (fun _ _ _ => rfl)
    · exact encodes_shift rfl rfl (fun _ _ _ => rfl) (fun _ _ _ => rfl)
    · exact encodes_I rfl (fun _ _ _ => rfl) (fun _ _ _ => rfl)
    · exact encodes_I rfl (fun _ _ _ => rfl) (fun _ _ _ => rfl)
  · fin_cases hr <;> exact encodes_I rfl (fun _ _ _ => rfl) (fun _ _ _ => rfl)
  · fin_cases hr <;> exact encodes_S rfl rfl (fun _ _ _ => rfl) (fun _ _ _ => rfl)
  · fin_cases hr <;> exact encodes_B rfl rfl (fun _ _ _ => rfl) (fun _ _ _ => rfl)
  · fin_cases hr
    · exact encodes_U rfl (fun _ _ => rfl) (fun _ _ => rfl)
    · exact encodes_U rfl (fun _ _ => rfl) (fun _ _ => rfl)
    · exact encodes_jal
    · exact encodes_I rfl (fun _ _ _ => rfl) (fun _ _ _ => rfl)

/-- Settles O3: the word selects a row, and each row builds from its words the instruction they encode. -/
theorem encodeOfDecode : Obligations.EncodeOfDecode := by
  unfold Obligations.EncodeOfDecode
  intro w i h
  obtain ⟨r, hr, hs, rfl⟩ := decode_ok_iff.1 h
  exact rows_encode r hr w hs

/-! ## The words no row selects

Block by block of the table, what a word is that selects a row of the block, read off the fields its masks cover. -/

/-- The word selects one of these rows. -/
def SelectsOneOf (l : List Row) (w : InstrWord) : Prop := ∃ r ∈ l, w &&& r.mask = r.pattern

theorem selectsOneOf_append {l l' : List Row} {w : InstrWord} :
    SelectsOneOf (l ++ l') w ↔ SelectsOneOf l w ∨ SelectsOneOf l' w := by
  simp only [SelectsOneOf, List.mem_append, or_and_right, exists_or]

theorem selectsOneOf_cons {r : Row} {l : List Row} {w : InstrWord} :
    SelectsOneOf (r :: l) w ↔ w &&& r.mask = r.pattern ∨ SelectsOneOf l w := by
  simp only [SelectsOneOf, List.mem_cons, or_and_right, exists_or, exists_eq_left]

theorem selectsOneOf_nil {w : InstrWord} : SelectsOneOf [] w ↔ False := by simp [SelectsOneOf]

theorem funct3_cases : ∀ x : BitVec 3,
    x = 0#3 ∨ x = 1#3 ∨ x = 2#3 ∨ x = 3#3 ∨ x = 4#3 ∨ x = 5#3 ∨ x = 6#3 ∨ x = 7#3 := by decide

theorem selects_rowsRegReg {w : InstrWord} : SelectsOneOf rowsRegReg w ↔
    w.extractLsb' 0 7 = 0x33#7 ∧ (w.extractLsb' 25 7 = 0x00#7 ∨
      w.extractLsb' 25 7 = 0x20#7 ∧ (w.extractLsb' 12 3 = 0#3 ∨ w.extractLsb' 12 3 = 5#3)) := by
  simp (disch := decide) only [rowsRegReg, selectsOneOf_cons, selectsOneOf_nil, selects_funct7]
  generalize w.extractLsb' 12 3 = f3
  obtain rfl | rfl | rfl | rfl | rfl | rfl | rfl | rfl := funct3_cases f3 <;> simp [and_or_left]

theorem selects_rowsRegImm {w : InstrWord} : SelectsOneOf rowsRegImm w ↔
    w.extractLsb' 0 7 = 0x13#7 ∧ ¬(w.extractLsb' 12 3 = 1#3 ∧ w.extractLsb' 26 6 ≠ 0b000000#6 ∨
      w.extractLsb' 12 3 = 5#3 ∧ w.extractLsb' 26 6 ≠ 0b000000#6 ∧ w.extractLsb' 26 6 ≠ 0b010000#6) := by
  simp (disch := decide) only [rowsRegImm, selectsOneOf_cons, selectsOneOf_nil, selects_funct3, selects_shift]
  generalize w.extractLsb' 12 3 = f3
  obtain rfl | rfl | rfl | rfl | rfl | rfl | rfl | rfl := funct3_cases f3 <;>
    simp [and_or_left, ← or_iff_not_imp_left]

theorem selects_rowsLoad {w : InstrWord} : SelectsOneOf rowsLoad w ↔
    w.extractLsb' 0 7 = 0x03#7 ∧ w.extractLsb' 12 3 ≠ 7#3 := by
  simp (disch := decide) only [rowsLoad, selectsOneOf_cons, selectsOneOf_nil, selects_funct3]
  generalize w.extractLsb' 12 3 = f3
  obtain rfl | rfl | rfl | rfl | rfl | rfl | rfl | rfl := funct3_cases f3 <;> simp

theorem selects_rowsStore {w : InstrWord} : SelectsOneOf rowsStore w ↔
    w.extractLsb' 0 7 = 0x23#7 ∧ (w.extractLsb' 12 3).toNat < 4 := by
  simp (disch := decide) only [rowsStore, selectsOneOf_cons, selectsOneOf_nil, selects_funct3]
  generalize w.extractLsb' 12 3 = f3
  obtain rfl | rfl | rfl | rfl | rfl | rfl | rfl | rfl := funct3_cases f3 <;> simp

theorem selects_rowsBranch {w : InstrWord} : SelectsOneOf rowsBranch w ↔
    w.extractLsb' 0 7 = 0x63#7 ∧ ¬(w.extractLsb' 12 3 = 2#3 ∨ w.extractLsb' 12 3 = 3#3) := by
  simp (disch := decide) only [rowsBranch, selectsOneOf_cons, selectsOneOf_nil, selects_funct3]
  generalize w.extractLsb' 12 3 = f3
  obtain rfl | rfl | rfl | rfl | rfl | rfl | rfl | rfl := funct3_cases f3 <;> simp

theorem selects_rowsUpperJump {w : InstrWord} : SelectsOneOf rowsUpperJump w ↔
    w.extractLsb' 0 7 = 0x37#7 ∨ w.extractLsb' 0 7 = 0x17#7 ∨ w.extractLsb' 0 7 = 0x6F#7 ∨
      w.extractLsb' 0 7 = 0x67#7 ∧ w.extractLsb' 12 3 = 0#3 := by
  simp (disch := decide) only [rowsUpperJump, selectsOneOf_cons, selectsOneOf_nil, selects_opcode, selects_funct3]
  simp

/-- A word fails to decode exactly when it selects a row of no block. -/
theorem decode_error_iff_not_selects {w : InstrWord} : (∃ e, decode w = .error e) ↔ ¬SelectsOneOf rows w := by
  rw [decode_error_iff, SelectsOneOf]
  push Not
  rfl

/-- Settles O4: by the opcode, a word is illegal exactly when the block of its opcode has no row for its selectors, or
no block has its opcode. -/
theorem illegalWordsExactly : Obligations.IllegalWordsExactly := by
  unfold Obligations.IllegalWordsExactly
  intro w
  rw [decode_error_iff_not_selects]
  refine and_congr_right fun _ => ?_
  simp only [rows, selectsOneOf_append, selects_rowsRegReg, selects_rowsRegImm, selects_rowsLoad, selects_rowsStore,
    selects_rowsBranch, selects_rowsUpperJump]
  generalize w.extractLsb' 0 7 = opcode
  have hcases : opcode = 0x33#7 ∨ opcode = 0x13#7 ∨ opcode = 0x03#7 ∨ opcode = 0x23#7 ∨ opcode = 0x63#7 ∨
      opcode = 0x37#7 ∨ opcode = 0x17#7 ∨ opcode = 0x6F#7 ∨ opcode = 0x67#7 ∨
      (opcode ≠ 0x33#7 ∧ opcode ≠ 0x13#7 ∧ opcode ≠ 0x03#7 ∧ opcode ≠ 0x23#7 ∧ opcode ≠ 0x63#7 ∧ opcode ≠ 0x37#7 ∧
        opcode ≠ 0x17#7 ∧ opcode ≠ 0x6F#7 ∧ opcode ≠ 0x67#7) := by tauto
  obtain rfl | rfl | rfl | rfl | rfl | rfl | rfl | rfl | rfl | hne := hcases
  case inr.inr.inr.inr.inr.inr.inr.inr.inr => simp [hne]
  all_goals simp [or_iff_not_imp_left]

end Sys2Proof
end

section
/-! The statements of 60_exceptions.md about one step: fetch, halting, faulting, and the pc. -/
namespace Sys2Proof.Machine

/-- The next state of a step has one of the shapes a step can have. -/
theorem stepShape_of_step {s t : State} (h : step s = .next t) : StepShape s t := by
  obtain ⟨t', ht', hs⟩ := step_shape s
  cases h.symm.trans ht'
  exact hs

/-! ## The fetch -/

/-- Decoding the bytes at the pc is decoding the fetched word (20_memory R50, R60). -/
theorem decodeBytes_readBytes (s : State) :
    decodeBytes (s.mem.readBytes s.pc.toNat 4) = (decode s.fetchWord).map fun i => (i, []) := by
  rw [fetchWord_eq]
  show decodeBytes [s.mem.read s.pc.toNat, _, _, _] = _
  simp only [decodeBytes]
  cases decode _ <;> rfl

/-- Settles O11: the four bytes at the pc are those of the fetched word. -/
theorem stepRunsDecoded : Obligations.StepRunsDecoded := by
  unfold Obligations.StepRunsDecoded
  intro s i rest hrun halign hrange hd
  refine step_runs hrun halign hrange ?_
  rw [decodeBytes_readBytes] at hd
  cases hw : decode s.fetchWord with
  | error e => simp [hw, Except.map] at hd
  | ok j =>
    simp only [hw, Except.map, Except.ok.injEq, Prod.mk.injEq] at hd
    rw [hd.1]

/-- Settles O12: bit `b` of the word is bit `b mod 8` of its byte `b / 8`, and the fetch does not read the cache. -/
theorem fetchReadsMemoryImage : Obligations.FetchReadsMemoryImage := by
  unfold Obligations.FetchReadsMemoryImage
  intro s o b hb
  show ((s.mem.rawRead s.pc.toNat 4).setWidth 32).getLsbD b = _
  rw [BitVec.getLsbD_setWidth, Memory.rawRead, leWord_getLsbD _ (by simp), readBytes_getD _ _ _ _ (by omega)]
  simp [hb]

/-- Settles O13: four zero bytes are the word 0, and the step that fetches it is `halt`. -/
theorem zeroWordHalts : Obligations.ZeroWordHalts := by
  unfold Obligations.ZeroWordHalts
  intro s hrun halign hrange hzero
  have hw : s.fetchWord = 0 := by
    have hzero' : s.mem.read s.pc.toNat = 0 := hzero 0 (by decide)
    rw [fetchWord_eq, hzero', hzero 1 (by decide), hzero 2 (by decide), hzero 3 (by decide)]
    rfl
  obtain ⟨t, ht, hs⟩ := step_shape s
  cases hs with
  | halts => exact ⟨_, ht, rfl, rfl, rfl, rfl, fun _ => rfl, ⟨fun _ => rfl, rfl, rfl⟩, rfl⟩
  | stays h => exact absurd hrun h
  | misaligned _ h => exact absurd halign h
  | outside _ _ h => omega
  | illegal _ _ _ h => exact absurd hw h
  | runs _ _ _ h => exact absurd hw h

/-- Settles O14: by the shapes of a step, of which only `runs` starts and ends Running. -/
theorem haltedAndFaultedAbsorb : Obligations.HaltedAndFaultedAbsorb := by
  unfold Obligations.HaltedAndFaultedAbsorb
  refine ⟨fun s h => ?_, fun s t hrun hst hrun' => ?_⟩
  · obtain ⟨t, ht, hs⟩ := step_shape s
    cases hs with
    | stays => exact ht
    | misaligned h' | outside h' | halts h' | illegal h' | runs h' => exact absurd h' h
  · cases stepShape_of_step hst with
    | runs _ _ _ _ i hd _ he => exact ⟨i, hd, he⟩
    | stays h => exact absurd hrun h
    | misaligned | outside | halts | illegal => cases hrun'

/-! ## Faults -/

/-- Settles O15: the misaligned pc faults before its range is checked; where the capacity is legal an aligned pc at or
above it has none of its bytes in memory. -/
theorem badPcFaults : Obligations.BadPcFaults := by
  unfold Obligations.BadPcFaults
  intro s hrun
  obtain ⟨t, ht, hs⟩ := step_shape s
  refine ⟨fun hmis => ?_, fun _ halign hout => ?_⟩
  · cases hs with
    | misaligned => exact ⟨_, ht, raise_raised s _ _⟩
    | stays h => exact absurd hrun h
    | outside _ h | halts _ h | illegal _ h | runs _ h => exact absurd h hmis
  · cases hs with
    | outside => exact ⟨_, ht, raise_raised s _ _⟩
    | stays h => exact absurd hrun h
    | misaligned _ h => exact absurd halign h
    | halts _ _ h | illegal _ _ h | runs _ _ h => omega

/-- An instruction that leaves a new fault record has taken a memory fault (60_exceptions R237). -/
theorem exec_fault_cause {s t : State} {r : FaultRecord} (h : ExecShape s t) (hs : s.fault = none)
    (ht : t.fault = some r) : r.cause = .memoryFault := by
  cases h with
  | faults => cases ht; rfl
  | computes | branches => simp [hs] at ht
  | jumps => simp [linkAndJump, hs] at ht
  | loads _ _ _ _ _ _ _ hread => simp [(memRead_core hread).fault, hs] at ht
  | stores _ _ _ _ _ hwrite => simp [(memWrite_core hwrite).fault, hs] at ht


/-- Settles O16: an illegal word is not the sentinel and is rejected, so its step is `raise`; and of the shapes a
step can have only `illegal` leaves a record with this cause. -/
theorem illegalWordFaults : Obligations.IllegalWordFaults := by
  unfold Obligations.IllegalWordFaults
  intro s hrun halign hrange
  have hillegal := illegalWordsExactly s.fetchWord
  refine ⟨fun hw => ?_, fun t r hst hr hs hcause => ?_⟩
  · obtain ⟨hne, e, hd⟩ := hillegal.1 hw
    obtain ⟨t, ht, hs⟩ := step_shape s
    cases hs with
    | illegal => exact ⟨_, ht, raise_raised s _ _⟩
    | stays h => exact absurd hrun h
    | misaligned _ h => exact absurd halign h
    | outside _ _ h => omega
    | halts _ _ _ h => exact absurd h hne
    | runs _ _ _ _ i hd' => cases hd.symm.trans hd'
  · cases stepShape_of_step hst with
    | illegal _ _ _ hne e hd => exact hillegal.2 ⟨hne, e, hd⟩
    | stays h => exact absurd hrun h
    | misaligned _ h => exact absurd halign h
    | outside _ _ h => omega
    | halts => cases hs.symm.trans hr
    | runs _ _ _ _ _ _ _ _ hexec => cases (exec_fault_cause hexec hs hr).symm.trans hcause

/-- An instruction that starts Running and ends otherwise has raised a memory fault (60_exceptions R237). -/
theorem exec_raised {s t : State} (h : ExecShape s t) (hs : s.runState = .running) (ht : t.runState ≠ .running) :
    ∃ a, t = s.raise .memoryFault (.address a) := by
  cases h with
  | faults a => exact ⟨a, rfl⟩
  | computes | branches => simp [hs] at ht
  | jumps => simp [linkAndJump, hs] at ht
  | loads _ _ _ _ _ _ _ hread => simp [(memRead_core hread).runState, hs] at ht
  | stores _ _ _ _ _ hwrite => simp [(memWrite_core hwrite).runState, hs] at ht

/-- Settles O19: each shape a step can have that ends Faulted is `raise`. -/
theorem faultsArePrecise : Obligations.FaultsArePrecise := by
  unfold Obligations.FaultsArePrecise
  intro s t hrun hst hfaulted
  cases stepShape_of_step hst with
  | misaligned | outside | illegal => exact ⟨_, _, raise_raised s _ _⟩
  | stays h => exact absurd hrun h
  | halts => cases hfaulted
  | runs _ _ _ _ _ _ _ _ hexec =>
    obtain ⟨a, rfl⟩ := exec_raised hexec hrun (by simp [hfaulted])
    exact ⟨_, _, raise_raised s _ _⟩

/-! ## One event, one pc update -/

/-- The trace grew by at most one event. -/
abbrev ReportsOnce (before after : List Event) : Prop := after = before ∨ ∃ e, after = e :: before

theorem writeBackVictim_events (y : Hierarchy) (i k : Nat) : (y.writeBackVictim i k).events = y.events := by
  unfold Hierarchy.writeBackVictim
  dsimp only
  split <;> rfl

theorem countDraw_events (y : Hierarchy) (i : Nat) : (y.countDraw i).events = y.events := by
  unfold Hierarchy.countDraw
  split <;> rfl

theorem fill_events (y : Hierarchy) (a : Nat) : (y.fill a).2.events = y.events :=
  (writeBackVictim_events _ _ _).trans (countDraw_events _ _)

/-- Bringing a block in reports nothing (20_memory R79, R81). -/
theorem obtain_events (y : Hierarchy) (a : Nat) : (y.obtain a).2.events = y.events := by
  unfold Hierarchy.obtain
  split
  · rfl
  · exact fill_events y.miss a

/-- A cached read warns when it spans and is silent otherwise (20_memory R80, R81). -/
theorem cacheRead_events (y : Hierarchy) (a : Word) (n : Nat) : (y.cacheRead a n).2.events =
    if y.cache.spans a.toNat n then .spanWarning a n :: y.events else y.events := by
  unfold Hierarchy.cacheRead
  split
  · rfl
  · exact obtain_events y _

/-- A cached write warns when it spans and is silent otherwise (20_memory R80, R84). -/
theorem cacheWrite_events (y : Hierarchy) (a : Word) (n : Nat) (v : Word) : (y.cacheWrite a n v).events =
    if y.cache.spans a.toNat n then .spanWarning a n :: y.events else y.events := by
  unfold Hierarchy.cacheWrite
  split
  · rfl
  · split
    · unfold Hierarchy.writeThrough
      dsimp only
      split <;> rfl
    · exact obtain_events y _

/-- A read warns when it goes around the cache and is silent otherwise (20_memory R57, R80). -/
theorem memRead_events {s t : State} {a v : Word} {n : Nat} (h : s.memRead a n = some (v, t)) :
    t.events = if s.bypasses a n then .spanWarning a n :: s.events else s.events := by
  unfold State.memRead at h
  unfold State.bypasses
  split at h
  · cases hc : s.cache with
    | some c =>
      rw [hc] at h
      cases h
      exact cacheRead_events (s.hierarchy c) a n
    | none =>
      rw [hc] at h
      cases h
      rfl
  · cases h

/-- A write warns when it goes around the cache and is silent otherwise (20_memory R58, R80). -/
theorem memWrite_events {s t : State} {a v : Word} {n : Nat} (h : s.memWrite a n v = some t) :
    t.events = if s.bypasses a n then .spanWarning a n :: s.events else s.events := by
  unfold State.memWrite at h
  unfold State.bypasses
  split at h
  · cases hc : s.cache with
    | some c =>
      rw [hc] at h
      cases h
      exact cacheWrite_events (s.hierarchy c) a n v
    | none =>
      rw [hc] at h
      cases h
      rfl
  · cases h

theorem reportsOnce_ite (p : Bool) (e : Event) (es : List Event) : ReportsOnce es (if p then e :: es else es) := by
  cases p with
  | true => exact .inr ⟨e, rfl⟩
  | false => exact .inl rfl

theorem exec_reports {s t : State} (h : ExecShape s t) : ReportsOnce s.events t.events := by
  cases h with
  | computes => exact .inl (by simp)
  | branches => exact .inl rfl
  | jumps => exact .inr ⟨_, by simp [linkAndJump]; rfl⟩
  | loads _ _ _ _ _ _ _ hread =>
    rw [retire_events, memRead_events hread]
    exact reportsOnce_ite ..
  | stores _ _ _ _ _ hwrite =>
    rw [advance_events, memWrite_events hwrite]
    exact reportsOnce_ite ..
  | faults => exact .inr ⟨_, rfl⟩

/-- Settles O17: of each shape a step can have; a memory access reports only that it spans. -/
theorem stepAnswersAndReportsOnce : Obligations.StepAnswersAndReportsOnce := by
  unfold Obligations.StepAnswersAndReportsOnce
  intro s
  obtain ⟨t, ht, hs⟩ := step_shape s
  refine ⟨t, ht, ?_⟩
  cases hs with
  | stays => exact .inl rfl
  | misaligned | outside | halts | illegal => exact .inr ⟨_, rfl⟩
  | runs _ _ _ _ _ _ _ _ hexec => exact exec_reports hexec

/-! The branch conditions as comparisons of numbers (44_branches R201). -/

theorem condEq_iff {a b : Word} : condEq a b = true ↔ a = b := by simp [condEq]
theorem condNe_iff {a b : Word} : condNe a b = true ↔ a ≠ b := by simp [condNe]
theorem condLt_iff {a b : Word} : condLt a b = true ↔ a.toInt < b.toInt := by simp [condLt, ltSigned]
theorem condGe_iff {a b : Word} : condGe a b = true ↔ b.toInt ≤ a.toInt := by simp [condGe, ltSigned]
theorem condLtu_iff {a b : Word} : condLtu a b = true ↔ a.toNat < b.toNat := by simp [condLtu, ltUnsigned]
theorem condGeu_iff {a b : Word} : condGeu a b = true ↔ b.toNat ≤ a.toNat := by simp [condGeu, ltUnsigned]

/-- A branch whose condition says `p` goes to its target where `p` holds and falls through elsewhere. -/
theorem branchOp_pc {cond : Word → Word → Bool} {p : Prop} [Decidable p] {rs1 rs2 : Reg} {imm : BitVec 13} {s t : State}
    (hcond : cond (s.readReg rs1) (s.readReg rs2) = true ↔ p) (h : branchOp cond rs1 rs2 imm s = .next t) :
    t.pc = if p then s.pc + extImm13 imm else s.pc + 4 := by
  cases (branchOp_next ..).symm.trans h
  simp only [setPc_pc, hcond, State.branchTarget]

theorem loadOp_pc {n : Nat} {ext : Word → Word} {rd rs1 : Reg} {imm : BitVec 12} {s t : State}
    (h : loadOp n ext rd rs1 imm s = .next t) (ht : t.runState = .running) : t.pc = s.pc + 4 := by
  unfold loadOp at h
  split at h
  · rename_i hread
    cases h
    rw [retire_pc, (memRead_core hread).pc]
  · cases h
    cases ht

theorem storeOp_pc {n : Nat} {rs1 rs2 : Reg} {imm : BitVec 12} {s t : State} (h : storeOp n rs1 rs2 imm s = .next t)
    (ht : t.runState = .running) : t.pc = s.pc + 4 := by
  unfold storeOp at h
  split at h
  · rename_i hwrite
    cases h
    rw [advance_pc, (memWrite_core hwrite).pc]
  · cases h
    cases ht

/-- An instruction that ends Running has set the pc once, to `nextPc` (10_state R25). -/
theorem exec_pc {i : Instr} {s t : State} (he : exec i s = .next t) (ht : t.runState = .running) :
    t.pc = nextPc i s := by
  cases i with
  | beq => exact branchOp_pc condEq_iff he
  | bne => exact branchOp_pc condNe_iff he
  | blt => exact branchOp_pc condLt_iff he
  | bge => exact branchOp_pc condGe_iff he
  | bltu => exact branchOp_pc condLtu_iff he
  | bgeu => exact branchOp_pc condGeu_iff he
  | lb | lh | lw | ld | lbu | lhu | lwu => exact loadOp_pc he ht
  | sb | sh | sw | sd => exact storeOp_pc he ht
  | _ => cases he; rfl

/-- Settles O18: a step that ends Running has run an instruction, and of the others each leaves the pc. -/
theorem onePcUpdatePerStep : Obligations.OnePcUpdatePerStep := by
  unfold Obligations.OnePcUpdatePerStep
  intro s t hrun hst
  cases stepShape_of_step hst with
  | stays h => exact absurd hrun h
  | misaligned | outside | halts | illegal => exact ⟨nofun, fun _ => rfl⟩
  | runs _ _ _ _ i hd _ he hexec =>
    refine ⟨fun hrun' => ⟨i, hd, exec_pc he hrun'⟩, fun hend => ?_⟩
    obtain ⟨a, rfl⟩ := exec_raised hexec hrun hend
    rfl

end Sys2Proof.Machine
end

section
/-! The statements of 10_state.md, 40_integer_register.md, 41_integer_immediate.md, 44_branches.md,
45_upper_immediate.md and 46_jumps.md: the frame of an instruction, sums of addresses, and the result of each
instruction that makes no data access. -/
namespace Sys2Proof.Machine

/-! ## The frame of an instruction -/

/-- Every register but the destination, if there is one, and the capacity are as before (10_state R22). -/
structure KeepsOthers (s t : State) (dest : Option Reg) : Prop where
  others      : ∀ r, dest ≠ some r → t.readReg r = s.readReg r
  memCapacity : t.memCapacity = s.memCapacity

theorem keepsOthers_retire {s u : State} (h : SameCore s u) (rd : Reg) (v : Word) :
    KeepsOthers s (u.retire rd v) (some rd) :=
  have hw := retire_writesOnly h rd v
  ⟨fun r hr => hw.others r fun e => hr (e ▸ rfl), hw.memCapacity⟩

theorem keepsOthers_raise (s : State) (cause : FaultCause) (info : FaultInfo) (dest : Option Reg) :
    KeepsOthers s (s.raise cause info) dest := ⟨fun _ _ => rfl, rfl⟩

theorem linkAndJump_writesOnly (s : State) (rd : Reg) (t : Word) (e : Event) :
    WritesOnly s (linkAndJump rd t e s) rd (s.pc + 4) := by
  obtain ⟨dest, others, -, -, -⟩ := retire_writesOnly (sameCore_refl s) rd (s.pc + 4)
  exact ⟨dest, others, by simp [linkAndJump], by simp [linkAndJump], by simp [linkAndJump]⟩

theorem loadOp_keepsOthers {n : Nat} {ext : Word → Word} {rd rs1 : Reg} {imm : BitVec 12} {s t : State}
    (h : loadOp n ext rd rs1 imm s = .next t) : KeepsOthers s t (some rd) := by
  unfold loadOp at h
  split at h <;> cases h
  · exact keepsOthers_retire (memRead_core ‹_›) rd _
  · exact keepsOthers_raise ..

theorem storeOp_keepsOthers {n : Nat} {rs1 rs2 : Reg} {imm : BitVec 12} {s t : State}
    (h : storeOp n rs1 rs2 imm s = .next t) : KeepsOthers s t none := by
  unfold storeOp at h
  split at h <;> cases h
  · have hw := advance_writesNone (memWrite_core ‹_›)
    exact ⟨fun r _ => hw.regs r, hw.memCapacity⟩
  · exact keepsOthers_raise ..

/-- An instruction changes no register but its destination, and never the capacity (10_state R22, R30). -/
theorem exec_keepsOthers {i : Instr} {s t : State} (he : exec i s = .next t) : KeepsOthers s t i.dest := by
  cases i with
  | lb | lh | lw | ld | lbu | lhu | lwu => exact loadOp_keepsOthers he
  | sb | sh | sw | sd => exact storeOp_keepsOthers he
  | beq | bne | blt | bge | bltu | bgeu =>
    cases (branchOp_next ..).symm.trans he
    exact ⟨fun _ _ => rfl, rfl⟩
  | jal rd | jalr rd =>
    cases he
    have hw := linkAndJump_writesOnly s rd
    exact ⟨fun r hr => (hw _ _).others r fun e => hr (e ▸ rfl), (hw _ _).memCapacity⟩
  | _ =>
    cases he
    exact keepsOthers_retire (sameCore_refl s) _ _

/-- An instruction without a data access leaves the run state and the fault record. -/
theorem exec_no_access_runState {i : Instr} {s t : State} (h : i.dataAccess = none) (he : exec i s = .next t) :
    t.runState = s.runState ∧ t.fault = s.fault := by
  cases i with
  | lb | lh | lw | ld | lbu | lhu | lwu | sb | sh | sw | sd => cases h
  | beq | bne | blt | bge | bltu | bgeu =>
    cases (branchOp_next ..).symm.trans he
    exact ⟨rfl, rfl⟩
  | jal rd | jalr rd =>
    cases he
    exact ⟨(linkAndJump_writesOnly s rd _ _).runState, (linkAndJump_writesOnly s rd _ _).fault⟩
  | _ =>
    cases he
    exact ⟨retire_runState .., retire_fault ..⟩

/-- Settles O20: a load, a store, and each instruction without a data access change their destination at most. -/
theorem onlyDestinationChanges : Obligations.OnlyDestinationChanges := by
  unfold Obligations.OnlyDestinationChanges
  intro i s t he
  obtain ⟨hothers, hcap⟩ := exec_keepsOthers he
  refine ⟨hothers, readReg_zero t, fun hacc => ?_, hcap⟩
  obtain ⟨hmem, hcache, -, hdraws⟩ := exec_no_access hacc he
  obtain ⟨hrun, hfault⟩ := exec_no_access_runState hacc he
  exact ⟨⟨fun a => by rw [hmem], hcache, hdraws⟩, hrun, hfault⟩

/-! ## Sums modulo 2^64 -/

/-- The sum of a word and a sign-extended displacement, as integers (10_state R29). -/
theorem toNat_add_signExtend {n : Nat} (a : Word) (d : BitVec n) :
    ((a + d.signExtend 64).toNat : Int) = (a.toNat + d.toInt) % 2 ^ 64 := by
  have hd : ((d.signExtend 64).toNat : Int) = d.toInt % 2 ^ 64 := by
    rw [BitVec.signExtend, BitVec.toNat_ofInt]
    omega
  rw [BitVec.toNat_add]
  omega

/-- Settles O21: each address and target is the sum of a word and a sign extension. -/
theorem addressesWrap : Obligations.AddressesWrap := by
  unfold Obligations.AddressesWrap
  exact ⟨fun _ _ imm => toNat_add_signExtend _ imm, fun _ imm => toNat_add_signExtend _ imm,
    fun _ imm => toNat_add_signExtend _ imm⟩

/-! ## Integer instructions

Each is `retire` of a value; `Computes` is `retire_computes`, and what is left is a fact about the value. -/

/-- An instruction that retires a value with this property computes it. -/
theorem computes_of_retire {i : Instr} {s : State} {rd : Reg} (v : Word) {p : Word → Prop}
    (he : exec i s = .next (s.retire rd v)) (hv : p v) : ∃ t v, exec i s = .next t ∧ Computes s t rd v ∧ p v :=
  ⟨_, v, he, retire_computes s rd v, hv⟩

theorem toNat_sub_int (a b : Word) : ((a - b).toNat : Int) = (a.toNat - b.toNat : Int) % 2 ^ 64 := by
  have ha := a.isLt
  have hb := b.isLt
  rw [BitVec.toNat_sub]
  omega

/-- Settles O22: `retire` of the sum or difference. -/
theorem addSubResults : Obligations.AddSubResults := by
  unfold Obligations.AddSubResults
  intro s rd rs1 rs2 imm
  exact ⟨computes_of_retire _ rfl (BitVec.toNat_add ..), computes_of_retire _ rfl (toNat_sub_int ..),
    computes_of_retire _ rfl (toNat_add_signExtend _ imm)⟩

/-- Bit `b` of an extended 12-bit immediate is its bit `b`, or its bit 11 above that (30_encoding R113). -/
theorem getLsbD_extImm12 (imm : BitVec 12) {b : Nat} (hb : b < 64) :
    (extImm12 imm).getLsbD b = imm.getLsbD (min b 11) := getLsbD_signExtend_eq_min imm hb

/-- Settles O23: `retire` of the bitwise result. -/
theorem logicResults : Obligations.LogicResults := by
  unfold Obligations.LogicResults
  intro s rd rs1 rs2 imm
  refine ⟨computes_of_retire _ rfl fun b _ => BitVec.getLsbD_xor, computes_of_retire _ rfl fun b _ => BitVec.getLsbD_or,
    computes_of_retire _ rfl fun b _ => BitVec.getLsbD_and, computes_of_retire _ rfl fun b hb => ?_,
    computes_of_retire _ rfl fun b hb => ?_, computes_of_retire _ rfl fun b hb => ?_⟩
  · rw [BitVec.getLsbD_xor, getLsbD_extImm12 imm hb]
  · rw [BitVec.getLsbD_or, getLsbD_extImm12 imm hb]
  · rw [BitVec.getLsbD_and, getLsbD_extImm12 imm hb]

/-- The low six bits of a word as a number (40_integer_register R146). -/
theorem shiftAmount_toNat (v : Word) : (shiftAmount v).toNat = v.toNat % 64 := by
  simp [shiftAmount, BitVec.extractLsb'_toNat]

theorem toNat_shiftLeft (a : Word) (k : Nat) : (a <<< k).toNat = a.toNat * 2 ^ k % 2 ^ 64 := by
  rw [BitVec.toNat_shiftLeft, Nat.shiftLeft_eq]

theorem toNat_shiftRight (a : Word) (k : Nat) : (a >>> k).toNat = a.toNat / 2 ^ k := by
  rw [BitVec.toNat_ushiftRight, Nat.shiftRight_eq_div_pow]

theorem toInt_sshiftRight (a : Word) (k : Nat) : (a.sshiftRight k).toInt = a.toInt / 2 ^ k := by
  rw [BitVec.toInt_sshiftRight, Int.shiftRight_eq_div_pow]
  norm_cast

/-- Settles O24: `retire` of the shifted value; a shift is a product or a quotient by a power of two. -/
theorem logicalShiftResults : Obligations.LogicalShiftResults := by
  unfold Obligations.LogicalShiftResults
  intro s rd rs1 rs2 shamt
  simp only [← shiftAmount_toNat]
  exact ⟨computes_of_retire _ rfl (toNat_shiftLeft ..), computes_of_retire _ rfl (toNat_shiftRight ..),
    computes_of_retire _ rfl (toNat_shiftLeft ..), computes_of_retire _ rfl (toNat_shiftRight ..)⟩

/-- Settles O25: `retire` of the shifted value; the shift is the floor quotient by a power of two. -/
theorem arithmeticShiftResults : Obligations.ArithmeticShiftResults := by
  unfold Obligations.ArithmeticShiftResults
  intro s rd rs1 rs2 shamt
  simp only [← shiftAmount_toNat]
  exact ⟨computes_of_retire _ rfl (toInt_sshiftRight ..), computes_of_retire _ rfl (toInt_sshiftRight ..)⟩

/-- The number of a comparison's result (40_integer_register R149). -/
theorem boolWord_toNat (p : Prop) [Decidable p] : (boolWord (decide p)).toNat = if p then 1 else 0 := by
  unfold boolWord
  split <;> simp_all

/-- A sign-extended immediate keeps its integer value. -/
theorem extImm12_toInt (imm : BitVec 12) : (extImm12 imm).toInt = imm.toInt :=
  BitVec.toInt_signExtend_of_le (by decide)

/-- Read as unsigned, it is that value modulo 2^64 (41_integer_immediate R169). -/
theorem extImm12_toNat (imm : BitVec 12) : ((extImm12 imm).toNat : Int) = imm.toInt % 2 ^ 64 := by
  have h := toNat_add_signExtend 0#64 imm
  simpa [extImm12] using h

/-- Settles O26: `retire` of 1 or 0. -/
theorem comparisonResults : Obligations.ComparisonResults := by
  unfold Obligations.ComparisonResults
  intro s rd rs1 rs2 imm
  refine ⟨computes_of_retire _ rfl (boolWord_toNat _), computes_of_retire _ rfl (boolWord_toNat _), ?_, ?_⟩
  · rw [← extImm12_toInt]
    exact computes_of_retire _ rfl (boolWord_toNat _)
  · rw [← extImm12_toNat]
    simp only [Nat.cast_lt]
    exact computes_of_retire _ rfl (boolWord_toNat _)

/-! ## `auipc`, branches and jumps -/

/-- Every word with opcode 0010111 is an `auipc` of its rd and U fields (30_encoding R116, R121). -/
theorem decode_auipc {w : InstrWord} (h : w &&& maskOpcode = 0x00000017) :
    decode w = .ok (.auipc (fieldRd w) (fieldImmU w)) := decode_of_row 37 rfl h rfl

/-- Settles O28: the word selects the row of `auipc`, which retires with the sum; its extended immediate is 4096
times the signed field. -/
theorem auipcResult : Obligations.AuipcResult := by
  unfold Obligations.AuipcResult
  intro s w hw
  refine ⟨fieldRd w, fieldImmU w, _, _, decode_auipc hw, rfl, rfl, retire_computes s _ _, ?_⟩
  have h := toNat_add_signExtend s.pc (fieldImmU w ++ 0#12)
  rw [BitVec.toInt_append_zero, Int.mul_comm] at h
  exact h

/-- A branch completes in every state and sets the pc only (44_branches R200). -/
theorem branchOp_result {cond : Word → Word → Bool} {p : Prop} [Decidable p] {rs1 rs2 : Reg} {imm : BitVec 13}
    {s : State} (hcond : cond (s.readReg rs1) (s.readReg rs2) = true ↔ p) :
    ∃ t, branchOp cond rs1 rs2 imm s = .next t ∧ t.pc = (if decide p then s.branchTarget imm else s.pc + 4) ∧
      WritesNone s t ∧ KeepsMemory s t ∧ t.events = s.events := by
  refine ⟨_, branchOp_next .., ?_, ⟨fun _ => rfl, rfl, rfl, rfl⟩, ⟨fun _ => rfl, rfl, rfl⟩, rfl⟩
  simp only [setPc_pc, hcond, decide_eq_true_eq]

/-- Settles O29: each branch by what its condition says. -/
theorem branchResults : Obligations.BranchResults := by
  unfold Obligations.BranchResults
  intro s rs1 rs2 imm f hf
  simp only [List.mem_cons, List.not_mem_nil, or_false] at hf
  obtain rfl | rfl | rfl | rfl | rfl | rfl := hf
  · exact branchOp_result condEq_iff
  · exact branchOp_result condNe_iff
  · exact branchOp_result condLt_iff
  · exact branchOp_result condGe_iff
  · exact branchOp_result condLtu_iff
  · exact branchOp_result condGeu_iff

theorem linkAndJump_keepsMemory (s : State) (rd : Reg) (t : Word) (e : Event) : KeepsMemory s (linkAndJump rd t e s) :=
  ⟨by simp [linkAndJump], by simp [linkAndJump], by simp [linkAndJump]⟩

theorem linkAndJump_events (s : State) (rd : Reg) (t : Word) (e : Event) :
    (linkAndJump rd t e s).events = e :: s.events := by simp [linkAndJump]

/-- Settles O30: `jal` is `linkAndJump` to its target. -/
theorem jalResult : Obligations.JalResult := by
  unfold Obligations.JalResult
  intro s rd imm
  exact ⟨_, rfl, linkAndJump_writesOnly .., rfl, linkAndJump_keepsMemory .., linkAndJump_events ..⟩

/-- Settles O31: `jalr` is `linkAndJump` to the sum with the old base. -/
theorem jalrResult : Obligations.JalrResult := by
  unfold Obligations.JalrResult
  intro s rd rs1 imm
  exact ⟨_, rfl, linkAndJump_writesOnly .., rfl, linkAndJump_keepsMemory .., linkAndJump_events ..⟩

end Sys2Proof.Machine
end

section
/-! The statements of 20_memory.md about the cache controller's parts: the split of an address, the victim, a fill and a
hit. -/
namespace Sys2Proof.Machine

/-! ## The split of an address (20_memory R70, R72) -/

/-- Settles O41: the block of an address starts at its block address, and a block's addresses split alike. -/
theorem addressSplitRoundTrip : Obligations.AddressSplitRoundTrip := by
  unfold Obligations.AddressSplitRoundTrip
  intro c capacity hlegal
  have s := legal_iff_slots.1 hlegal
  refine ⟨fun a ha => ⟨s.offset_lt a, s.index_lt a, ?_⟩, fun t i j hi hj => split_blockAddr s t hi hj⟩
  have h := blockAddr_tag_index c ha
  omega

/-! ## The victim (20_memory R78) -/

/-- The victim is the invalid slot that has none below it. -/
theorem victim_of_least_invalid {c : Cache} {i k : Nat} (hk : k < (c.set i).length) (hv : (c.entry i k).valid = false)
    (hleast : ∀ l < k, (c.entry i l).valid = true) (draw : Nat) : c.victim i draw = k := by
  have hslot : c.invalidSlot i = some k := by
    refine List.findIdx?_eq_some_iff_getElem.2 ⟨hk, ?_, fun l hl => ?_⟩
    · rw [← entry_of_lt hk, hv]
      rfl
    · have h := hleast l hl
      rw [entry_of_lt (by omega)] at h
      simp [h]
  unfold Cache.victim
  rw [hslot]

/-- With every slot valid RANDOM takes the draw modulo the ways. -/
theorem victim_of_random {c : Cache} {i : Nat} (h : c.invalidSlot i = none) (hr : c.cfg.replacement = .random)
    (draw : Nat) : c.victim i draw = draw % c.ways := by
  unfold Cache.victim
  rw [h, hr]

/-- With every slot valid FIFO and LRU take the oldest. -/
theorem victim_of_not_random {c : Cache} {i : Nat} (h : c.invalidSlot i = none) (hr : c.cfg.replacement ≠ .random)
    (draw : Nat) : c.victim i draw = oldestSlot (c.set i) := by
  unfold Cache.victim
  rw [h]
  cases hp : c.cfg.replacement with
  | random => exact absurd hp hr
  | fifo | lru => rfl

/-- No slot of a set is older than the oldest. -/
theorem oldestSlot_le {c : Cache} {i k : Nat} (hk : k < (c.set i).length) :
    (c.entry i (oldestSlot (c.set i))).timestamp.toNat ≤ (c.entry i k).timestamp.toNat := by
  obtain ⟨ho, hle⟩ := oldestSlot_spec (List.ne_nil_of_length_pos (Nat.zero_lt_of_lt hk))
  rw [entry_of_lt ho]
  exact hle _ (mem_set_iff.2 ⟨k, hk, rfl⟩)

/-- Settles O43: the victim is the least invalid slot, and with none invalid the policy's. -/
theorem victimRule : Obligations.VictimRule := by
  unfold Obligations.VictimRule
  intro c capacity i hlegal hi
  have s := legal_iff_slots.1 hlegal
  have hlen := s.slots i hi
  refine ⟨victim_lt s hi, fun k hk hv hleast => victim_of_least_invalid (hlen ▸ hk) hv hleast, fun hvalid => ?_⟩
  have hnone : c.invalidSlot i = none := invalidSlot_none.2 (hlen ▸ hvalid)
  refine ⟨fun hr draw k hk => ?_, fun hr k hk => ⟨k, ?_⟩⟩
  · rw [victim_of_not_random hnone hr]
    exact oldestSlot_le (hlen ▸ hk)
  · rw [victim_of_random hnone hr, Nat.mod_eq_of_lt hk]

/-! ## A fill (20_memory R79) -/

theorem writeBackVictim_writebacks (y : Hierarchy) (i k : Nat) :
    (y.writeBackVictim i k).cache.writebacks =
      if (y.cache.entry i k).valid = true ∧ (y.cache.entry i k).dirty = true then y.cache.writebacks + 1
      else y.cache.writebacks := by
  unfold Hierarchy.writeBackVictim
  simp only [Bool.and_eq_true]
  split <;> rfl

/-- A fill counts the write-back of its victim. -/
theorem fill_writebacks (y : Hierarchy) (a : Nat) :
    (y.fill a).2.cache.writebacks =
      if (y.cache.entry (y.cache.index a) (y.fill a).1).valid = true ∧
          (y.cache.entry (y.cache.index a) (y.fill a).1).dirty = true then y.cache.writebacks + 1
      else y.cache.writebacks := by
  have h := writeBackVictim_writebacks (y.countDraw (y.cache.index a)) (y.cache.index a) (y.fill a).1
  rw [countDraw_cache] at h
  exact h

/-- The entry a fill installs carries the clock's value before the fill (20_memory R77). -/
theorem fill_timestamp {y : Hierarchy} {capacity : Nat} (s : y.cache.Slots capacity) (a : Nat) :
    ((y.fill a).2.cache.entry (y.cache.index a) (y.fill a).1).timestamp = y.cache.logicalClock := by
  have hl := like_victimPhase y (y.cache.index a) (y.fill a).1
  have hclock := (writeBackVictim_counters (y.countDraw (y.cache.index a)) (y.cache.index a) (y.fill a).1).2.2
  rw [countDraw_cache] at hclock
  rw [fill_eq, install_entry (hl.legal s) a (by rw [hl.ways]; exact fill_slot_lt s a), hl.index, if_pos ⟨rfl, rfl⟩]
  exact hclock

/-- Settles O44: the victim's write-back, then `install`. -/
theorem fillEffect : Obligations.FillEffect := by
  unfold Obligations.FillEffect
  intro y capacity a _ hmem hlegal _ _ i k z v
  have s := legal_iff_slots.1 hlegal
  have hi : i < y.cache.numLines := s.index_lt a
  have hk : k < y.cache.ways := fill_slot_lt s a
  have hent := fill_entry s a
  have hvictim := hent i k
  rw [if_pos ⟨rfl, rfl⟩] at hvictim
  obtain ⟨hv, hd, ht, hb⟩ := hvictim
  have hwb : z.cache.writebacks = if v.valid = true ∧ v.dirty = true then _ else _ := fill_writebacks y a
  have hm : z.mem = if v.valid = true ∧ v.dirty = true then y.mem.writeBytes (y.cache.blockAddr v.tag i) v.block
      else y.mem := (fill_mem y a).trans (writeBackVictim_mem y i k)
  refine ⟨fill_slot y a, ?_, hv, hd, ht, fill_timestamp s a, hb, (fill_counters y a).2.2, fun j l hjl => ?_⟩
  · rw [hwb, hm]
    split
    · refine ⟨rfl, fun b => ?_⟩
      rw [read_writeBytes hmem.1, s.blocks i hi k hk]
    · exact ⟨rfl, fun _ => rfl⟩
  · have h := hent j l
    rw [if_neg hjl] at h
    exact h

/-! ## A hit (20_memory R77, R87) -/

theorem hit_of_lru {y : Hierarchy} (h : y.cache.cfg.replacement = .lru) (i k : Nat) :
    (y.hit i k).cache = ({ y.cache with hits := y.cache.hits + 1 } : Cache).stamp i k := if_pos h

theorem hit_of_not_lru {y : Hierarchy} (h : y.cache.cfg.replacement ≠ .lru) (i k : Nat) :
    (y.hit i k).cache = { y.cache with hits := y.cache.hits + 1 } := if_neg h

/-- Settles O46: under LRU a hit is a stamp beside its count, under the others its count alone. -/
theorem hitStampsUnderLruOnly : Obligations.HitStampsUnderLruOnly := by
  unfold Obligations.HitStampsUnderLruOnly
  intro y capacity i k hlegal hi hk d
  have s := legal_iff_slots.1 hlegal
  have hlen : k < (y.cache.set i).length := s.slots i hi ▸ hk
  obtain ⟨-, hhits, hmisses⟩ := hit_counters y i k
  have hstamp := entry_stamp { y.cache with hits := y.cache.hits + 1 } i k
  by_cases hr : y.cache.cfg.replacement = .lru
  · have hd : d = _ := hit_of_lru hr i k
    refine ⟨hhits, hmisses, by rw [hd]; rfl, fun j l hjl => ?_, fun _ => ⟨?_, by rw [hd]; rfl⟩, fun h => absurd hr h⟩
    · rw [hd, hstamp, if_neg fun h => hjl ⟨h.1, h.2.1⟩]
      rfl
    · rw [hd, hstamp, if_pos ⟨rfl, rfl, hlen⟩]
      rfl
  · have hd : d = _ := hit_of_not_lru hr i k
    exact ⟨hhits, hmisses, by rw [hd], fun j l _ => by rw [hd]; rfl, fun h => absurd h hr,
      fun _ => ⟨by rw [hd]; rfl, by rw [hd]⟩⟩

end Sys2Proof.Machine
end

section
/-! The statements about the transactions of the host port, and about the DebugController (20_memory.md R75, R76, R92,
R94; 60_exceptions.md R244 to R247; 70_reset_and_hazards.md). -/
namespace Sys2Proof.Machine

/-- Every address of memory is a 64-bit number (00_scope R7). -/
theorem lt_of_capacityLegal {capacity a : Nat} (h : capacityLegal capacity) (ha : a < capacity) : a < 2 ^ 64 := by
  have := h.2.1
  omega

/-! ## Invalidate and dump -/

/-- `CacheInvalidate` with the cache enabled (20_memory R92). -/
theorem cacheInvalidate_cached {s : State} {c : Cache} (hc : s.cache = some c) :
    s.cacheInvalidate = s.withHierarchy (s.hierarchy c).invalidate := by
  unfold State.cacheInvalidate
  rw [hc]

theorem cacheInvalidate_uncached {s : State} (hc : s.cache = none) : s.cacheInvalidate = s := by
  unfold State.cacheInvalidate
  rw [hc]

/-- After `Invalidate` no entry is dirty. -/
theorem invalidate_dirty (y : Hierarchy) (i k : Nat) : (y.invalidate.cache.entry i k).dirty = false := by
  have h : y.invalidate.cache.entry i k = clearEntry (y.cache.entry i k) := entry_cleared ..
  rw [h]
  rfl

/-- Settles O47: the flush writes every dirty byte, so MemoryImage becomes the data view, and clears every entry. -/
theorem invalidateWritesBackEverything : Obligations.InvalidateWritesBackEverything := by
  unfold Obligations.InvalidateWritesBackEverything
  refine ⟨fun s hc => cacheInvalidate_uncached hc, fun s c hinv hc hco => ?_⟩
  have hm := memLegal_of_inv hinv
  have hlegal := hm.hierarchy hc
  obtain ⟨-, hvalid, hread, hview⟩ := invalidate_spec hlegal
  have hbyte : ∀ a < s.memCapacity, (s.hierarchy c).invalidate.mem.read a = s.dataView a := fun a ha => by
    have ha' := lt_of_capacityLegal hinv.capacity ha
    rw [hread a ha', dataView_cached hc]
    exact flushedByte_eq_view hlegal.slots (hco c hc) ha'
  rw [cacheInvalidate_cached hc]
  refine ⟨_, rfl, rfl, rfl, rfl, rfl, flushSets_count .., hvalid, fun i _ k _ => invalidate_dirty _ i k,
    fun a ha => ⟨hbyte a ha, ?_⟩, fun _ => rfl, rfl⟩
  rw [withHierarchy_dataView, hview]
  exact hbyte a ha

/-- Settles O48: the dump goes through the sets in order and lists the valid entries of each. -/
theorem dumpListsValidEntries : Obligations.DumpListsValidEntries := by
  unfold Obligations.DumpListsValidEntries
  refine ⟨fun s hc => by rw [State.cacheDump, hc], fun s c hinv hc => ?_⟩
  have hdump : s.cacheDump = dumpSets 0 c.lines := by rw [State.cacheDump, hc]
  have hs := legal_iff_slots.1 (hinv.cached c hc)
  rw [hdump]
  refine ⟨fun l => ?_, dumpSets_sorted _ _⟩
  rw [dumpSets_mem]
  constructor
  · rintro ⟨p, hp, e, he, hv, rfl⟩
    have hset : c.lines[p] = c.set p := by simp [Cache.set, hp]
    have hp' : p < c.numLines := hs.sets ▸ hp
    obtain ⟨k, hk, rfl⟩ := mem_set_iff.1 (hset ▸ he)
    exact ⟨p, hp', k, hs.slots p hp' ▸ hk, hv, by simp⟩
  · rintro ⟨i, hi, k, hk, hv, rfl⟩
    have hi' : i < c.lines.length := hs.sets ▸ hi
    have hset : c.lines[i] = c.set i := by simp [Cache.set, hi']
    exact ⟨i, hi', c.entry i k, hset ▸ mem_set_iff.2 ⟨k, hs.slots i hi ▸ hk, rfl⟩, hv, by simp⟩

/-! ## Enable, disable and reset -/

theorem cacheEnable_legal {s : State} {g : CacheCfg} (h : cfgLegal s.memCapacity g = true) :
    s.cacheEnable g = { s with cache := some (Cache.construct g s.draws), draws := s.draws + 1 } := if_pos h

theorem cacheEnable_illegal {s : State} {g : CacheCfg} (h : cfgLegal s.memCapacity g = false) :
    s.cacheEnable g = { s with cache := none } := if_neg (by simp [h])

/-- The product of 10_state R36, for a legal configuration. -/
theorem cfg_product {capacity : Nat} {g : CacheCfg} (h : cfgLegal capacity g = true) :
    cfgNumLines g * cfgWays g * g.blockSize = g.size := by
  obtain ⟨-, -, -, hfull, hsets⟩ := cfgLegal_iff.1 h
  unfold cfgNumLines cfgWays
  split
  · rw [Nat.one_mul, Nat.div_mul_cancel (hfull ‹_›)]
  · rw [Nat.mul_assoc, Nat.mul_comm g.associativity, Nat.div_mul_cancel (hsets ‹_›)]

/-- Every entry of a newly constructed cache is invalid and clean (20_memory R75). -/
theorem construct_vacant {g : CacheCfg} {draw i k : Nat} (hi : i < cfgNumLines g) (hk : k < cfgWays g) :
    ((Cache.construct g draw).entry i k).valid = false ∧ ((Cache.construct g draw).entry i k).dirty = false := by
  rw [construct_entry hi hk]
  exact ⟨rfl, rfl⟩

/-- Settles O49: a legal configuration constructs a legal cache that holds nothing. -/
theorem enableAndDisable : Obligations.EnableAndDisable := by
  unfold Obligations.EnableAndDisable
  refine ⟨fun s g h => ?_, fun s g h => ?_, fun s => ⟨rfl, rfl, fun _ => rfl⟩⟩
  · rw [cacheEnable_legal h]
    exact ⟨_, rfl, rfl, cfg_product h, rfl, rfl, rfl, rfl, legal_iff_slots.2 (construct_slots h _),
      fun i hi k hk => construct_vacant hi hk, rfl, fun a => construct_view h s.mem a⟩
  · rw [cacheEnable_illegal h]
    exact ⟨rfl, rfl⟩

theorem reset_uncached {s : State} (hc : s.cache = none) : s.resetTransaction = s.clearedCore := by
  unfold State.resetTransaction
  rw [hc]

theorem reset_cached {s : State} {c : Cache} (hc : s.cache = some c) :
    s.resetTransaction = s.clearedCore.cacheEnable c.cfg := by
  unfold State.resetTransaction
  rw [hc]

/-- Settles O52: the fields of `Reset`; an enabled cache is reconstructed from its own, legal configuration. -/
theorem resetRestoresResetValues : Obligations.ResetRestoresResetValues := by
  unfold Obligations.ResetRestoresResetValues
  intro s
  obtain ⟨-, hpc, hrun, hfault, hmem, hcap⟩ := reset_fields s
  refine ⟨reset_reg s, hpc, hrun, hfault, fun a => by rw [hmem]; rfl, hcap, fun hc => by rw [reset_uncached hc]; rfl,
    fun hinv c hc => ?_⟩
  have hlegal : cfgLegal s.clearedCore.memCapacity c.cfg = true := (legal_iff_slots.1 (hinv.cached c hc)).legal
  rw [reset_cached hc, cacheEnable_legal hlegal]
  exact ⟨_, rfl, rfl, rfl, rfl, rfl, rfl, fun i hi k hk => construct_vacant hi hk⟩

/-! ## Load (70 R262) -/

theorem load_fits {s : State} {image : List Host.Cell} (h : ∀ cell ∈ image, cell.1 < s.memCapacity) :
    s.load image = { s.resetTransaction with mem := writeImage [] image } :=
  (load_eq s image).trans (if_pos (imageFits_iff.2 h))

theorem load_misfits {s : State} {image : List Host.Cell} (h : ∃ cell ∈ image, s.memCapacity ≤ cell.1) :
    s.load image = s.resetTransaction := by
  refine (load_eq s image).trans (if_neg fun hfits => ?_)
  obtain ⟨cell, hcell, hle⟩ := h
  have := imageFits_iff.1 hfits cell hcell
  omega

/-- `Load` leaves the Reset state in everything but MemoryImage (70 R262). -/
theorem load_fields (s : State) (image : List Host.Cell) :
    (s.load image).pc = 0 ∧ (s.load image).runState = .running ∧ (s.load image).fault = none ∧
      (∀ r, (s.load image).readReg r = 0) ∧ (s.load image).cache = s.resetTransaction.cache ∧
      (s.load image).memCapacity = s.memCapacity := by
  obtain ⟨-, hpc, hrun, hfault, -, hcap⟩ := reset_fields s
  rw [load_eq]
  split <;> exact ⟨hpc, hrun, hfault, reset_reg s, rfl, hcap⟩

/-- Settles O53: where the image fits, its bytes are written over a memory of zeros. -/
theorem loadWritesExactlyTheImage : Obligations.LoadWritesExactlyTheImage := by
  unfold Obligations.LoadWritesExactlyTheImage
  intro s image hnodup
  obtain ⟨hpc, hrun, hfault, hreg, hcache, -⟩ := load_fields s image
  obtain ⟨hwritten, hother, -⟩ := read_writeImage image [] rfl hnodup
  refine ⟨fun hfits => ?_, load_misfits, hpc, hrun, hfault, hreg, hcache⟩
  rw [load_fits hfits]
  exact ⟨hwritten, hother⟩

/-- After `Load` of a text segment that fits the word at the pc is its first (70 R264, R266). -/
theorem load_textImage_fetchWord {s : State} {w : InstrWord} {ws : List InstrWord}
    (hfits : 4 + 4 * ws.length ≤ s.memCapacity) : (s.load (textImage 0 (w :: ws))).fetchWord = w := by
  obtain ⟨haddr, hnodup⟩ := textImage_addr (w :: ws) 0
  have hin : ∀ cell ∈ textImage 0 (w :: ws), cell.1 < s.memCapacity := fun cell hcell => by
    have := (haddr cell hcell).2
    simp only [List.length_cons] at this
    omega
  obtain ⟨hbytes, -, -⟩ := loadWritesExactlyTheImage s (textImage 0 (w :: ws)) hnodup
  have hbyte : ∀ k < 4, (s.load (textImage 0 (w :: ws))).mem.read k = w.extractLsb' (8 * k) 8 := fun k hk => by
    refine (hbytes hin).1 (k, w.extractLsb' (8 * k) 8) ?_
    unfold textImage
    interval_cases k <;> simp
  have hpc : (s.load (textImage 0 (w :: ws))).pc.toNat = 0 := congrArg BitVec.toNat (load_fields s _).1
  rw [fetchWord_eq, hpc, hbyte 0 (by decide), hbyte 1 (by decide), hbyte 2 (by decide), hbyte 3 (by decide)]
  exact wordOfBytes_bytesOfWord w

/-- Settles O54: the pc is 0 and Running, and the word there is the first of the text, or the sentinel. -/
theorem firstStepFetchesAtZero : Obligations.FirstStepFetchesAtZero := by
  unfold Obligations.FirstStepFetchesAtZero
  constructor
  · intro s w ws i hfits hd
    obtain ⟨hpc, hrun, -, -, -, hcap⟩ := load_fields s (textImage 0 (w :: ws))
    have hpc0 : (s.load (textImage 0 (w :: ws))).pc.toNat = 0 := congrArg BitVec.toNat hpc
    exact step_runs hrun (by omega) (by omega) ((load_textImage_fetchWord hfits).symm ▸ hd)
  · intro s hcap4
    obtain ⟨hpc, hrun, -, -, -, hcap⟩ := load_fields s []
    have hzero : ∀ a, (s.load []).mem.read a = 0 := fun a => by
      rw [load_fits (by simp)]
      rfl
    obtain ⟨t, ht, hrun', -, -, hpc', -⟩ := zeroWordHalts (s.load []) hrun (by simp [hpc]) (by simpa [hpc, hcap])
      (fun _ _ => hzero _)
    exact ⟨t, ht, hrun', hpc'.trans hpc⟩

/-! ## Run (60_exceptions R244) -/

/-- One unit of fuel is one step of a Running state. -/
theorem runFuel_succ {s t : State} (hrun : s.runState = .running) (hst : step s = .next t) (n : Nat) :
    runFuel (n + 1) s = runFuel n t := by
  rw [runFuel, if_pos hrun, hst]

/-- Fuel adds up. -/
theorem runFuel_add {m n : Nat} {s t : State} (h : runFuel m s = .next t) : runFuel (m + n) s = runFuel n t := by
  induction m generalizing s with
  | zero =>
    cases h
    rw [Nat.zero_add]
  | succ m ih =>
    by_cases hrun : s.runState = .running
    · obtain ⟨u, hu, -⟩ := step_shape s
      rw [runFuel_succ hrun hu] at h
      rw [Nat.succ_add, runFuel_succ hrun hu, ih h]
    · rw [runFuel_stop hrun] at h
      cases h
      rw [runFuel_stop hrun, runFuel_stop hrun]

/-- Settles O55: by induction on the fuel; a state that is not Running stays. -/
theorem runRepeatsStep : Obligations.RunRepeatsStep := by
  unfold Obligations.RunRepeatsStep
  refine ⟨fun m n s t h => runFuel_add h, fun n s hrun => ?_, fun m n s t h hend => ?_⟩
  · obtain ⟨t, ht, -⟩ := step_shape s
    exact ⟨t, ht, runFuel_succ hrun ht n⟩
  · rw [runFuel_add h, runFuel_stop hend]

/-! ## The DebugController (60_exceptions R246, R247) -/

/-- The controller after a step to `t`: the line recorded, the new events observed. -/
def DebugController.after (d : DebugController) (s t : State) : DebugController :=
  (newEvents s t).foldl DebugController.observe (d.recordLine (d.printedLine s))

theorem debugStep_eq (d : DebugController) {s t : State} (h : step s = .next t) :
    d.step s = .next (d.after s t, t) := by
  unfold DebugController.step
  rw [h]
  rfl

theorem after_metadata (d : DebugController) (s t : State) : SameMetadata d (d.after s t) := by
  have hline := recordLine_metadata d (d.printedLine s)
  have hevents := foldl_observe_metadata (newEvents s t) (d.recordLine (d.printedLine s))
  exact ⟨hevents.breakpoints.trans hline.breakpoints, hevents.labels.trans hline.labels,
    hevents.lines.trans hline.lines⟩

theorem after_one (d : DebugController) {s t : State} {e : Event} (h : t.events = e :: s.events) :
    d.after s t = (d.recordLine (d.printedLine s)).observe e := by
  rw [DebugController.after, newEvents_one h]
  rfl

theorem after_none (d : DebugController) {s t : State} (h : t.events = s.events) :
    d.after s t = d.recordLine (d.printedLine s) := by
  rw [DebugController.after, newEvents_none h]
  rfl

/-- Settles O56: what is observed is the one event, if any, after the line is recorded. -/
theorem observerFollowsStep : Obligations.ObserverFollowsStep := by
  unfold Obligations.ObserverFollowsStep
  intro d s t hst
  obtain ⟨hbreak, hlabels, hlines⟩ := after_metadata d s t
  refine ⟨d.after s t, debugStep_eq d hst, ⟨hbreak, hlabels, hlines⟩, fun a he => ?_, fun he => ?_, fun a he => ?_,
    fun he => ?_, showStack_spec _⟩
  · rw [after_one d he]
    simp [DebugController.observe]
  · rw [after_one d he]
    simp [DebugController.observe]
  · rw [after_one d he]
    simp [DebugController.observe]
  · rw [after_none d he]
    simp

end Sys2Proof.Machine
end

section
/-! The statements of 42_loads.md, 43_stores.md and 20_memory.md about loads and stores: when they fault, what they load
and store, with the cache disabled, enabled and bypassed. -/
namespace Sys2Proof.Machine

/-! ## Completing -/

/-- An access out of range raises `MemoryFault` (60_exceptions R237). -/
theorem exec_out_of_range {i : Instr} {rs1 : Reg} {imm : BitVec 12} {n : Nat} {s : State} (hi : IsAccess i rs1 imm n)
    (hr : s.memCapacity < (s.baseDisp rs1 imm).toNat + n) :
    exec i s = .next (s.raise .memoryFault (.address (s.baseDisp rs1 imm))) := by
  cases hi with
  | load _ _ _ _ hexec => exact (hexec s).trans (loadOp_fault hr)
  | store _ _ _ hexec => exact (hexec s).trans (storeOp_fault hr)

/-- An access in range completes (42_loads R180, 43_stores R190). -/
theorem exec_in_range {i : Instr} {rs1 : Reg} {imm : BitVec 12} {n : Nat} {s : State} (hi : IsAccess i rs1 imm n)
    (hr : (s.baseDisp rs1 imm).toNat + n ≤ s.memCapacity) :
    ∃ t, exec i s = .next t ∧ t.runState = s.runState ∧ t.fault = s.fault ∧ t.pc = s.pc + 4 := by
  cases hi with
  | load rd ext _ _ hexec =>
    obtain ⟨v, u, hread, hload⟩ := loadOp_completes (ext := ext) (rd := rd) hr
    have hcore := memRead_core hread
    exact ⟨_, (hexec s).trans hload, by simp [hcore.runState], by simp [hcore.fault], by simp [hcore.pc]⟩
  | store rs2 _ _ hexec =>
    obtain ⟨u, hwrite, hstore⟩ := storeOp_completes (rs2 := rs2) hr
    have hcore := memWrite_core hwrite
    exact ⟨_, (hexec s).trans hstore, hcore.runState, hcore.fault, by simp [hcore.pc]⟩

/-- Settles O32: the range check alone decides, before the cache is consulted. -/
theorem dataFaultExactlyOutOfRange : Obligations.DataFaultExactlyOutOfRange := by
  unfold Obligations.DataFaultExactlyOutOfRange
  intro i s rs1 imm n hacc
  exact ⟨fun hr => ⟨_, exec_out_of_range (isAccess hacc) hr, raise_raised s _ _⟩, exec_in_range (isAccess hacc)⟩

/-- A load form retires the extended number of the bytes it read (42_loads R180, R181). -/
theorem exec_load {i : Instr} {n : Nat} {signed : Bool} {rd rs1 : Reg} {imm : BitVec 12} {s u : State} {bs : List Byte}
    (hl : IsLoad i n signed rd rs1 imm) (hlen : bs.length = n)
    (hread : s.memRead (s.baseDisp rs1 imm) n = some (leWord bs, u)) :
    exec i s = .next (u.retire rd (loadedValue signed bs)) := by
  obtain ⟨-, -, ext, hexec, hext⟩ := hl
  rw [hexec, loadOp, hread, ← hext bs hlen]

/-- A store form completes with what the write leaves (43_stores R190). -/
theorem exec_store {i : Instr} {n : Nat} {rs1 rs2 : Reg} {imm : BitVec 12} {s u : State}
    (hexec : ∀ s, exec i s = storeOp n rs1 rs2 imm s)
    (hwrite : s.memWrite (s.baseDisp rs1 imm) n (s.readReg rs2) = some u) : exec i s = .next u.advance := by
  rw [hexec, storeOp, hwrite]

/-- A read in range answers the bytes of the access (20_memory R57, R80, R81). -/
theorem memRead_bytes {s : State} (h : s.MemLegal) {a : Word} {n : Nat} (hn : 0 < n)
    (hr : a.toNat + n ≤ s.memCapacity) : ∃ u, s.memRead a n = some (leWord (s.accessBytes a n), u) := by
  cases hread : s.memRead a n with
  | none =>
    have := memRead_none.1 hread
    omega
  | some p => exact ⟨p.2, by rw [← memRead_value h hn hread]⟩

/-- A write in range completes (20_memory R58). -/
theorem memWrite_completes {s : State} {a v : Word} {n : Nat} (hr : a.toNat + n ≤ s.memCapacity) :
    ∃ u, s.memWrite a n v = some u := by
  cases hwrite : s.memWrite a n v with
  | none =>
    have := memWrite_none.1 hwrite
    omega
  | some u => exact ⟨u, rfl⟩

/-! ## The cache disabled -/

/-- Settles O33: the read is of MemoryImage and changes nothing. -/
theorem loadResultsUncached : Obligations.LoadResultsUncached := by
  unfold Obligations.LoadResultsUncached
  intro s rd rs1 imm hc f hf hr
  exact ⟨_, exec_load (isLoad hf) (readBytes_length ..) (memRead_uncached hc hr), retire_computes s rd _⟩

theorem storedByte_inside (f : Nat → Byte) {a n j : Nat} (v : Word) (h : j < n) :
    storedByte f a n v (a + j) = v.extractLsb' (8 * j) 8 := by
  unfold storedByte
  rw [if_pos (by omega), Nat.add_sub_cancel_left]

theorem storedByte_outside (f : Nat → Byte) {a n b : Nat} (v : Word) (h : b < a ∨ a + n ≤ b) :
    storedByte f a n v b = f b := by
  unfold storedByte
  rw [if_neg (by omega)]

/-- Settles O36: the write is of MemoryImage and changes nothing else. -/
theorem storeResultsUncached : Obligations.StoreResultsUncached := by
  unfold Obligations.StoreResultsUncached
  intro s rs1 rs2 imm hc hwf f hf hr
  have hwrite := memWrite_uncached (v := s.readReg rs2) hc hr
  have hbyte := read_rawWrite hwf (s.baseDisp rs1 imm).toNat f.2 (s.readReg rs2)
  refine ⟨_, exec_store (isStore hf).2.2 hwrite, rfl, advance_writesNone (memWrite_core hwrite), hc, rfl, rfl,
    fun j hj => ?_, fun a ha => ?_⟩
  · exact (hbyte _).trans (storedByte_inside _ _ hj)
  · exact (hbyte _).trans (storedByte_outside _ _ ha)

/-! ## The cache enabled -/

/-- Settles O34: the read answers the bytes of the access. -/
theorem loadResultsCached : Obligations.LoadResultsCached := by
  unfold Obligations.LoadResultsCached
  intro s rd rs1 imm hinv _ f hf hr
  have hl := isLoad hf
  obtain ⟨u, hread⟩ := memRead_bytes (memLegal_of_inv hinv) hl.1 hr
  have hcore := memRead_core hread
  exact ⟨_, exec_load hl (accessBytes_length ..) hread, by simp [hcore.pc], retire_writesOnly hcore rd _⟩

/-- A byte of MemoryImage a fill changes takes the data view's value: it is the victim's (20_memory R79, R100). -/
theorem fill_read_or_view {y : Hierarchy} {capacity : Nat} (h : y.Legal capacity) (a : Nat) {b : Nat}
    (hb : b < 2 ^ 64) : (y.fill a).2.mem.read b = y.mem.read b ∨ (y.fill a).2.mem.read b = y.view b := by
  have hread := fill_read h a b hb
  dsimp only at hread
  rw [hread]
  split
  · rename_i hv
    obtain ⟨hvalid, -, hindex, htag⟩ := hv
    rw [← hindex] at hvalid htag ⊢
    exact .inr (view_of_slot h.slots y.mem (fill_slot_lt h.slots a) hvalid htag.symm).symm
  · exact .inl rfl

/-- So it is when a block is brought in; nothing is written when it was held (20_memory R81, R86). -/
theorem obtain_read_or_view {y : Hierarchy} {capacity : Nat} (h : y.Legal capacity) (a : Nat) {b : Nat}
    (hb : b < 2 ^ 64) : (y.obtain a).2.mem.read b = y.mem.read b ∨ (y.obtain a).2.mem.read b = y.view b := by
  unfold Hierarchy.obtain
  split
  · exact .inl rfl
  · have hlike := like_miss y
    have hfill := fill_read_or_view (like_legal hlike (miss_mem y) h) a hb
    rwa [like_view hlike (miss_mem y) h.slots, miss_mem] at hfill

theorem obtain_mem_of_held {y : Hierarchy} {a : Nat} (h : (y.cache.holding a).isSome = true) :
    (y.obtain a).2.mem = y.mem := by
  unfold Hierarchy.obtain
  split
  · rfl
  · rename_i hnone
    simp [Cache.holding, hnone] at h

/-- A byte of MemoryImage a read changes takes the data view's value. -/
theorem memRead_read_or_view {s t : State} (h : s.MemLegal) {a v : Word} {n b : Nat}
    (hread : s.memRead a n = some (v, t)) (hb : b < 2 ^ 64) :
    t.mem.read b = s.mem.read b ∨ t.mem.read b = s.dataView b := by
  unfold State.memRead at hread
  split at hread
  · cases hc : s.cache with
    | none =>
      rw [hc] at hread
      cases hread
      exact .inl rfl
    | some c =>
      rw [hc] at hread
      cases hread
      rw [withHierarchy_mem, dataView_cached hc]
      cases hs : c.spans a.toNat n with
      | true =>
        left
        simp [Hierarchy.cacheRead, Hierarchy.warnSpan, hs]
      | false =>
        rw [cacheRead_state hs]
        exact obtain_read_or_view (h.hierarchy hc) _ hb
  · cases hread

/-- The data view depends on the cache and MemoryImage only. -/
theorem dataView_congr {s t : State} (hmem : t.mem = s.mem) (hcache : t.cache = s.cache) (a : Nat) :
    t.dataView a = s.dataView a := by
  unfold State.dataView
  rw [hmem, hcache]

theorem coherent_congr {s t : State} (hmem : t.mem = s.mem) (hcache : t.cache = s.cache) (h : s.coherent) :
    t.coherent := by
  unfold State.coherent
  rw [hmem, hcache]
  exact h

theorem retire_dataView (s : State) (rd : Reg) (v : Word) (a : Nat) : (s.retire rd v).dataView a = s.dataView a :=
  dataView_congr (retire_mem ..) (retire_cache ..) a

theorem retire_coherent {s : State} (h : s.coherent) (rd : Reg) (v : Word) : (s.retire rd v).coherent :=
  coherent_congr (retire_mem ..) (retire_cache ..) h

/-- Settles O35: the read keeps the data view, and MemoryImage changes by the write-back of a victim. -/
theorem cachedLoadKeepsDataView : Obligations.CachedLoadKeepsDataView := by
  unfold Obligations.CachedLoadKeepsDataView
  intro s t rd rs1 imm hinv hco f hf hb hr he
  have hm := memLegal_of_inv hinv
  have hl := isLoad hf
  obtain ⟨u, hread⟩ := memRead_bytes hm hl.1 hr
  cases (exec_load hl (accessBytes_length ..) hread).symm.trans he
  obtain ⟨hview, hco', hevents⟩ := memRead_dataView hm hco hl.1 hb hread
  refine ⟨retire_coherent hco' _ _, by rw [retire_events, hevents], fun a ha => ?_⟩
  have ha' := lt_of_capacityLegal hinv.capacity ha
  rw [retire_dataView, retire_mem]
  exact ⟨hview a ha', memRead_read_or_view hm hread ha'⟩

/-- Settles O37: the write stores its bytes in the data view, whichever the policy. -/
theorem storeResultsCached : Obligations.StoreResultsCached := by
  unfold Obligations.StoreResultsCached
  intro s rs1 rs2 imm hinv hc hco f hf hb hr
  obtain ⟨hn, -, hexec⟩ := isStore hf
  obtain ⟨u, hwrite⟩ := memWrite_completes (v := s.readReg rs2) hr
  have hcore := memWrite_core hwrite
  obtain ⟨hview, hco', hevents⟩ := memWrite_dataView (memLegal_of_inv hinv) hco hn hb hwrite
  refine ⟨_, exec_store hexec hwrite, by rw [advance_pc, hcore.pc], advance_writesNone hcore, hcore.enabled.trans hc,
    hco', hevents, fun a ha => hview a (lt_of_capacityLegal hinv.capacity ha)⟩

/-- A cached write that does not span is the policy's (20_memory R84). -/
theorem cacheWrite_writeThrough {y : Hierarchy} {a v : Word} {n : Nat} (hs : y.cache.spans a.toNat n = false)
    (hw : y.cache.cfg.write = .writeThrough) : y.cacheWrite a n v = y.writeThrough a.toNat n v := by
  unfold Hierarchy.cacheWrite
  rw [if_neg (by simp [hs]), hw]

theorem cacheWrite_writeBack {y : Hierarchy} {a v : Word} {n : Nat} (hs : y.cache.spans a.toNat n = false)
    (hw : y.cache.cfg.write = .writeBack) : y.cacheWrite a n v = y.writeBack a.toNat n v := by
  unfold Hierarchy.cacheWrite
  rw [if_neg (by simp [hs]), hw]

/-- Settles O38: WRITE_THROUGH writes MemoryImage itself; under WRITE_BACK only bringing the block in can change it. -/
theorem cachedStoreAndMemoryImage : Obligations.CachedStoreAndMemoryImage := by
  unfold Obligations.CachedStoreAndMemoryImage
  intro s t c rs1 rs2 imm hinv hc _ f hf hb hr he
  obtain ⟨-, -, hexec⟩ := isStore hf
  cases (exec_store hexec (memWrite_cached hc hr)).symm.trans he
  rw [bypasses_cached hc] at hb
  rw [advance_mem, withHierarchy_mem]
  have hlegal := (memLegal_of_inv hinv).hierarchy hc
  constructor
  · intro hw a
    rw [cacheWrite_writeThrough hb hw, (writeThrough_spec hlegal hinv.capacity.2.1 hr hb _).2.1]
    exact read_rawWrite hinv.memory.1 _ _ _ a
  · intro hw a ha
    have ha' := lt_of_capacityLegal hinv.capacity ha
    rw [cacheWrite_writeBack hb hw, dataView_cached hc]
    exact ⟨obtain_read_or_view hlegal _ ha', fun hheld => congrArg (Memory.read · a) (obtain_mem_of_held hheld)⟩

/-! ## The cache bypassed (20_memory R80, R103, R104) -/

theorem withHierarchy_warnSpan {s : State} {c : Cache} (hc : s.cache = some c) (m : Memory) (a : Word) (n : Nat) :
    s.withHierarchy (({ s.hierarchy c with mem := m } : Hierarchy).warnSpan a n) =
      ({ s with mem := m } : State).emit (.spanWarning a n) := by
  cases s
  cases hc
  rfl

theorem memRead_bypassed {s : State} {c : Cache} (hc : s.cache = some c) {a : Word} {n : Nat}
    (hb : s.bypasses a n = true) (hr : a.toNat + n ≤ s.memCapacity) :
    s.memRead a n = some (s.mem.rawRead a.toNat n, s.emit (.spanWarning a n)) := by
  rw [bypasses_cached hc] at hb
  have hread : (s.hierarchy c).cacheRead a n = (s.mem.rawRead a.toNat n, (s.hierarchy c).warnSpan a n) := if_pos hb
  rw [memRead_cached hc hr, hread]
  exact congrArg (fun u => some (_, u)) (withHierarchy_warnSpan hc s.mem a n)

theorem memWrite_bypassed {s : State} {c : Cache} (hc : s.cache = some c) {a v : Word} {n : Nat}
    (hb : s.bypasses a n = true) (hr : a.toNat + n ≤ s.memCapacity) :
    s.memWrite a n v = some (({ s with mem := s.mem.rawWrite a.toNat n v } : State).emit (.spanWarning a n)) := by
  rw [bypasses_cached hc] at hb
  have hwrite : (s.hierarchy c).cacheWrite a n v =
      ({ s.hierarchy c with mem := s.mem.rawWrite a.toNat n v } : Hierarchy).warnSpan a n := if_pos hb
  rw [memWrite_cached hc hr, hwrite, withHierarchy_warnSpan hc]

/-- A byte a valid entry holds has the entry's value in the data view, whatever MemoryImage holds (20_memory R103). -/
theorem dataView_of_held {s t : State} {c : Cache} (hs : s.cache = some c) (ht : t.cache = some c) {a : Nat}
    (h : (c.holding a).isSome = true) : t.dataView a = s.dataView a := by
  obtain ⟨e, he⟩ := Option.isSome_iff_exists.1 h
  simp only [State.dataView, cachedView, hs, ht, he]

/-- Settles O39: the access is of MemoryImage, and all else it does is the warning. -/
theorem spanningAccessBypassesCache : Obligations.SpanningAccessBypassesCache := by
  unfold Obligations.SpanningAccessBypassesCache
  intro s c rd rs1 rs2 imm hwf hc
  refine ⟨fun f hf hb hr => ?_, fun f hf hb hr => ?_⟩
  · have hread := memRead_bypassed hc hb hr
    refine ⟨_, exec_load (isLoad hf) (readBytes_length ..) hread, rfl, ⟨by simp, by simp, by simp⟩,
      retire_writesOnly (memRead_core hread) rd _, by simp⟩
  · have hwrite := memWrite_bypassed (v := s.readReg rs2) hc hb hr
    refine ⟨_, exec_store (isStore hf).2.2 hwrite, rfl, advance_writesNone (memWrite_core hwrite), hc, rfl, rfl,
      read_rawWrite hwf _ _ _, fun a ha => ?_⟩
    refine dataView_of_held hc ?_ ha
    exact hc

end Sys2Proof.Machine
end

section
/-! The invariant of the block (Safety.lean): it holds at reset, and every step and every transaction keeps it. -/
namespace Sys2Proof.Machine

/-! ## The two parts of the invariant -/

/-- The invariant is its memory part and its fault part. -/
theorem inv_of_parts {s : State} (hm : s.MemLegal) (hf : faultLegal s) : s.Inv :=
  ⟨hm.capacity, hm.memory, hm.cached, hf⟩

/-- The memory part speaks of three fields only. -/
theorem memLegal_congr {s t : State} (h : s.MemLegal) (hmem : t.mem = s.mem) (hcache : t.cache = s.cache)
    (hcap : t.memCapacity = s.memCapacity) : t.MemLegal :=
  ⟨hcap ▸ h.capacity, by rw [hcap, hmem]; exact h.memory, by rw [hcap, hcache]; exact h.cached⟩

/-- The fault part of a state that has no fault record and is not Faulted. -/
theorem faultLegal_of_none {s : State} (hf : s.fault = none) (hr : s.runState ≠ .faulted) : faultLegal s := by
  refine ⟨?_, fun r h => ?_⟩
  · simp [hf, hr]
  · rw [hf] at h
    cases h

/-- Only a Faulted state has a fault record. -/
theorem fault_eq_none {s : State} (h : s.Inv) (hr : s.runState ≠ .faulted) : s.fault = none := by
  have hiff := h.faulted.1
  rw [iff_false_right hr] at hiff
  exact Option.not_isSome_iff_eq_none.1 hiff

theorem raise_inv {s : State} (h : s.Inv) (cause : FaultCause) (info : FaultInfo) : (s.raise cause info).Inv := by
  refine inv_of_parts (memLegal_congr (memLegal_of_inv h) rfl rfl rfl) ⟨by simp, fun r hr => ?_⟩
  cases hr
  rfl

/-- A state that comes from a Running one with its run state and fault record unchanged keeps the fault part. -/
theorem inv_of_running {s t : State} (h : s.Inv) (hr : s.runState = .running) (hm : t.MemLegal)
    (hrun : t.runState = s.runState) (hfault : t.fault = s.fault) : t.Inv :=
  inv_of_parts hm (faultLegal_of_none (hfault.trans (fault_eq_none h (by simp [hr]))) (by simp [hrun, hr]))

/-! ## The step -/

theorem exec_keeps_inv {s t : State} (h : s.Inv) (hr : s.runState = .running) (hs : ExecShape s t) : t.Inv := by
  have hm := memLegal_of_inv h
  cases hs with
  | computes rd v => exact inv_of_running h hr (memLegal_congr hm (by simp) (by simp) (by simp)) (by simp) (by simp)
  | branches => exact inv_of_running h hr (memLegal_congr hm rfl rfl rfl) rfl rfl
  | jumps =>
    refine inv_of_running h hr (memLegal_congr hm ?_ ?_ ?_) ?_ ?_ <;> simp [linkAndJump]
  | loads a v w n rd u hn hread =>
    have hcore := memRead_core hread
    exact inv_of_running h hr (memLegal_congr (memRead_legal hm hn hread) (by simp) (by simp) (by simp))
      (by simp [hcore.runState]) (by simp [hcore.fault])
  | stores a v n u hn hwrite =>
    have hcore := memWrite_core hwrite
    exact inv_of_running h hr (memLegal_congr (memWrite_legal hm hn hwrite) rfl rfl rfl) hcore.runState hcore.fault
  | faults => exact raise_inv h _ _

theorem stepShape_keeps_inv {s t : State} (h : s.Inv) (hs : StepShape s t) : t.Inv := by
  cases hs with
  | stays => exact h
  | misaligned | outside | illegal => exact raise_inv h _ _
  | halts hr =>
    exact inv_of_parts (memLegal_congr (memLegal_of_inv h) rfl rfl rfl)
      (faultLegal_of_none (fault_eq_none (s := s) h (by simp [hr])) (by simp))
  | runs hr _ _ _ i _ t _ hs => exact exec_keeps_inv h hr hs

theorem step_keeps_inv {s t : State} (h : s.Inv) (hst : step s = .next t) : t.Inv :=
  stepShape_keeps_inv h (stepShape_of_step hst)

/-- Settles O58: of each shape a step can have, by the rules of the memory operations and of `raise`. -/
theorem stepKeepsInvariant : Obligations.StepKeepsInvariant := by
  unfold Obligations.StepKeepsInvariant
  intro s t h hst
  exact step_keeps_inv h hst

/-! ## The transactions -/

theorem runFuel_keeps_inv {n : Nat} {s t : State} (h : s.Inv) (hrun : runFuel n s = .next t) : t.Inv := by
  induction n generalizing s with
  | zero =>
    cases hrun
    exact h
  | succ n ih =>
    by_cases hr : s.runState = .running
    · obtain ⟨u, hu, -⟩ := step_shape s
      unfold runFuel at hrun
      rw [if_pos hr, hu] at hrun
      exact ih (step_keeps_inv h hu) hrun
    · rw [runFuel_stop hr] at hrun
      cases hrun
      exact h

/-- A cache of a legal configuration is legal when it is constructed; an illegal one leaves none (20_memory R73,
R75). -/
theorem cacheEnable_keeps_inv {s : State} (h : s.Inv) (g : CacheCfg) : (s.cacheEnable g).Inv := by
  unfold State.cacheEnable
  split
  · refine ⟨h.capacity, h.memory, fun c hc => ?_, h.faulted⟩
    cases hc
    exact legal_iff_slots.2 (construct_slots ‹_› s.draws)
  · exact ⟨h.capacity, h.memory, nofun, h.faulted⟩

theorem cacheInvalidate_keeps_inv {s : State} (h : s.Inv) : s.cacheInvalidate.Inv := by
  unfold State.cacheInvalidate
  split
  · rename_i c hc
    have hm := memLegal_of_inv h
    exact inv_of_parts (memLegal_withHierarchy hm (invalidate_spec (hm.hierarchy hc)).1) h.faulted
  · exact h

theorem clearedCore_inv {s : State} (h : capacityLegal s.memCapacity) : s.clearedCore.Inv :=
  ⟨h, ⟨rfl, nofun⟩, nofun, by simp [State.clearedCore], nofun⟩

theorem reset_keeps_inv {s : State} (h : s.Inv) : s.resetTransaction.Inv := by
  unfold State.resetTransaction
  split
  · exact cacheEnable_keeps_inv (clearedCore_inv h.capacity) _
  · exact clearedCore_inv h.capacity

theorem load_keeps_inv {s : State} (h : s.Inv) (image : List Host.Cell) : (s.load image).Inv := by
  have hreset := reset_keeps_inv h
  have hcap : s.resetTransaction.memCapacity = s.memCapacity := (reset_fields s).2.2.2.2.2
  rw [load_eq]
  split
  · refine ⟨hreset.capacity, ?_, hreset.cached, hreset.faulted⟩
    exact writeImage_legal image [] ⟨rfl, nofun⟩ (hcap ▸ imageFits_iff.1 ‹_›)
  · exact hreset

/-- Settles O59: transaction by transaction; the reports change nothing, and a run keeps what its steps keep. -/
theorem transactionsKeepInvariant : Obligations.TransactionsKeepInvariant := by
  unfold Obligations.TransactionsKeepInvariant
  intro x s t h hx
  cases x with
  | step => exact step_keeps_inv h hx
  | run => exact runFuel_keeps_inv h hx
  | reset => cases hx; exact reset_keeps_inv h
  | load image => cases hx; exact load_keeps_inv h image
  | cacheEnable g => cases hx; exact cacheEnable_keeps_inv h g
  | cacheDisable => cases hx; exact ⟨h.capacity, h.memory, nofun, h.faulted⟩
  | cacheInvalidate => cases hx; exact cacheInvalidate_keeps_inv h
  | readRegs | readMem | cacheStatus | cacheDump | cacheStats => cases hx; exact h

/-- Settles O57: nothing is in memory, no cache is enabled, and there is no fault record. -/
theorem resetMeetsInvariant : Obligations.ResetMeetsInvariant := by
  unfold Obligations.ResetMeetsInvariant
  intro capacity h
  exact ⟨h, ⟨rfl, nofun⟩, nofun, by simp [State.reset], nofun⟩

end Sys2Proof.Machine
end

section
/-! The statements of 20_memory.md about several accesses or the whole cache: a load after a store, the counters,
MemoryImage under WRITE_THROUGH, and the transparency of the cache. -/
namespace Sys2Proof.Machine

/-! ## A load after a store (20_memory R51, R101) -/

theorem spans_congr {c d : Cache} (h : d.cfg = c.cfg) (a n : Nat) : d.spans a n = c.spans a n := by
  unfold Cache.spans Cache.offset
  rw [h]

/-- A write leaves the cache's configuration, so the same access still spans or does not. -/
theorem memWrite_bypasses {s t : State} {a v : Word} {n : Nat} (hwrite : s.memWrite a n v = some t) :
    t.bypasses a n = s.bypasses a n := by
  unfold State.memWrite at hwrite
  unfold State.bypasses
  split at hwrite
  · cases hc : s.cache with
    | none =>
      rw [hc] at hwrite
      cases hwrite
      simp
    | some c =>
      rw [hc] at hwrite
      cases hwrite
      exact spans_congr (cacheWrite_cfg (s.hierarchy c) a n v) _ _
  · cases hwrite

/-- What a write stored is what the same access reads next. -/
theorem accessBytes_memWrite {s t : State} (h : s.MemLegal) (hco : s.coherent) {a v : Word} {n : Nat} (hn : 0 < n)
    (hr : a.toNat + n ≤ s.memCapacity) (hwrite : s.memWrite a n v = some t) : t.accessBytes a n = leBytes n v := by
  unfold State.accessBytes
  rw [memWrite_bypasses hwrite]
  cases hb : s.bypasses a n with
  | true =>
    rw [if_pos rfl]
    cases hc : s.cache with
    | none => simp [State.bypasses, hc] at hb
    | some c =>
      cases hwrite.symm.trans (memWrite_bypassed hc hb hr)
      exact rawRead_rawWrite h.memory.1 ..
  | false =>
    rw [if_neg (by decide)]
    obtain ⟨hview, -, -⟩ := memWrite_dataView h hco hn hb hwrite
    refine List.map_congr_left fun j hj => ?_
    rw [List.mem_range] at hj
    have hcap := h.capacity.2.1
    rw [hview _ (by omega), storedByte_inside _ _ hj]

/-- A load that does not extend a sign, of at most eight bytes, gives their number. -/
theorem loadedValue_toNat {signed : Bool} {bs : List Byte} (hlen : bs.length ≤ 8)
    (h : signed = false ∨ bs.length = 8) : (loadedValue signed bs).toNat = leNat bs := by
  cases signed with
  | true =>
    have h8 : bs.length = 8 := h.resolve_left (by decide)
    rw [← dword_loaded bs h8, leWord_toNat bs hlen]
  | false =>
    have hlt : leNat bs < 2 ^ 64 :=
      lt_of_lt_of_le (leNat_lt bs) (Nat.pow_le_pow_right (by decide) (by omega))
    simpa [loadedValue] using hlt

/-- A store form, then a load form of the same width and place that extends no sign. -/
theorem load_after_store {i j : Instr} {n : Nat} {signed : Bool} {rd rs1 rs2 : Reg} {imm : BitVec 12} {s t u : State}
    (hm : s.MemLegal) (hco : s.coherent) (hrd : rd ≠ 0#5) (hstore : (i, n) ∈ storeForms rs1 rs2 imm)
    (hload : (j, n, signed) ∈ loadForms rd rs1 imm) (hsigned : signed = false ∨ n = 8)
    (hr : (s.baseDisp rs1 imm).toNat + n ≤ s.memCapacity) (hi : exec i s = .next t) (hj : exec j t = .next u) :
    (u.readReg rd).toNat = (s.readReg rs2).toNat % 2 ^ (8 * n) := by
  obtain ⟨hn, hn8, hexec⟩ := isStore hstore
  obtain ⟨w, hwrite⟩ := memWrite_completes (v := s.readReg rs2) hr
  cases (exec_store hexec hwrite).symm.trans hi
  have hcore := memWrite_core hwrite
  have haddr : w.advance.baseDisp rs1 imm = s.baseDisp rs1 imm := by
    rw [State.baseDisp, advance_readReg, hcore.readReg]
    rfl
  have hlegal : w.advance.MemLegal := memLegal_congr (memWrite_legal hm hn hwrite) rfl rfl rfl
  obtain ⟨r, hread⟩ := memRead_bytes hlegal hn (a := w.advance.baseDisp rs1 imm)
    (by rw [haddr, advance_memCapacity, hcore.memCapacity]; exact hr)
  cases (exec_load (isLoad hload) (accessBytes_length ..) hread).symm.trans hj
  have hbytes : w.accessBytes (s.baseDisp rs1 imm) n = leBytes n (s.readReg rs2) :=
    accessBytes_memWrite hm hco hn hr hwrite
  have hsame : w.advance.accessBytes (s.baseDisp rs1 imm) n = w.accessBytes (s.baseDisp rs1 imm) n := rfl
  rw [(retire_writesOnly (memRead_core hread) rd _).dest, if_neg hrd, haddr, hsame, hbytes,
    loadedValue_toNat (by simpa using hn8) (by simpa using hsigned), leNat_leBytes n _ hn8]

/-- Settles O40: width by width. -/
theorem loadAfterStore : Obligations.LoadAfterStore := by
  unfold Obligations.LoadAfterStore
  intro s t u rd rs1 rs2 imm hinv hco hrd n h hr
  have hm := memLegal_of_inv hinv
  obtain ⟨rfl, hi, hj⟩ | ⟨rfl, hi, hj⟩ | ⟨rfl, hi, hj⟩ | ⟨rfl, hi, hj⟩ := h
  · exact load_after_store hm hco hrd (by simp [storeForms]) (signed := false) (by simp [loadForms]) (by simp) hr hi hj
  · exact load_after_store hm hco hrd (by simp [storeForms]) (signed := false) (by simp [loadForms]) (by simp) hr hi hj
  · exact load_after_store hm hco hrd (by simp [storeForms]) (signed := false) (by simp [loadForms]) (by simp) hr hi hj
  · exact load_after_store hm hco hrd (by simp [storeForms]) (signed := true) (by simp [loadForms]) (by simp) hr hi hj

/-! ## The counters (20_memory R80, R85 to R87) -/

/-- What an access of `n` bytes at `a` counts: nothing when it spans, else one hit or one miss. -/
structure CountsAccess (c d : Cache) (a : Word) (n : Nat) : Prop where
  cfg    : d.cfg = c.cfg
  counts : if c.spans a.toNat n = true then d.hits = c.hits ∧ d.misses = c.misses
    else if (c.holding a.toNat).isSome = true then d.hits = c.hits + 1 ∧ d.misses = c.misses
    else d.hits = c.hits ∧ d.misses = c.misses + 1

theorem countsAccess_of_counted {c d : Cache} {a : Word} {n : Nat} (hs : c.spans a.toNat n = false)
    (h : Counted c d a.toNat) : CountsAccess c d a n := ⟨h.cfg, by rw [if_neg (by simp [hs])]; exact h.counts⟩

theorem cacheRead_counts (y : Hierarchy) (a : Word) (n : Nat) : CountsAccess y.cache (y.cacheRead a n).2.cache a n := by
  cases hs : y.cache.spans a.toNat n with
  | true =>
    have hread : (y.cacheRead a n).2.cache = y.cache := by simp [Hierarchy.cacheRead, Hierarchy.warnSpan, hs]
    exact ⟨by rw [hread], by rw [if_pos hs, hread]; exact ⟨rfl, rfl⟩⟩
  | false =>
    rw [cacheRead_state hs]
    exact countsAccess_of_counted hs (obtain_counted y _)

theorem cacheWrite_counts (y : Hierarchy) (a : Word) (n : Nat) (v : Word) :
    CountsAccess y.cache (y.cacheWrite a n v).cache a n := by
  cases hs : y.cache.spans a.toNat n with
  | true =>
    have hwrite : (y.cacheWrite a n v).cache = y.cache := by simp [Hierarchy.cacheWrite, Hierarchy.warnSpan, hs]
    exact ⟨by rw [hwrite], by rw [if_pos hs, hwrite]; exact ⟨rfl, rfl⟩⟩
  | false => exact countsAccess_of_counted hs (cacheWrite_counted y v hs)

/-- A read counts what the cached read counts (20_memory R57). -/
theorem memRead_counts {s t : State} {c : Cache} (hc : s.cache = some c) {a v : Word} {n : Nat}
    (hread : s.memRead a n = some (v, t)) : ∃ d, t.cache = some d ∧ CountsAccess c d a n := by
  unfold State.memRead at hread
  rw [hc] at hread
  split at hread
  · cases hread
    exact ⟨_, rfl, cacheRead_counts (s.hierarchy c) a n⟩
  · cases hread

theorem memWrite_counts {s t : State} {c : Cache} (hc : s.cache = some c) {a v : Word} {n : Nat}
    (hwrite : s.memWrite a n v = some t) : ∃ d, t.cache = some d ∧ CountsAccess c d a n := by
  unfold State.memWrite at hwrite
  rw [hc] at hwrite
  split at hwrite
  · cases hwrite
    exact ⟨_, rfl, cacheWrite_counts (s.hierarchy c) a n v⟩
  · cases hwrite

/-- After a read that does not span, the block of the address is held (20_memory R81). -/
theorem cacheRead_holds {y : Hierarchy} {capacity : Nat} (h : y.Legal capacity) (hc : capacity < 2 ^ 63) {a : Word}
    {n : Nat} (hn : 0 < n) (hr : a.toNat + n ≤ capacity) (hs : y.cache.spans a.toNat n = false) :
    ((y.cacheRead a n).2.cache.holding a.toNat).isSome = true := by
  rw [cacheRead_state hs]
  obtain ⟨hk, hz, hcfg, hlines, hways, hvalid, htag, -, -⟩ := obtain_spec h (a := a.toNat) (by omega) (by omega)
  have hindex : (y.obtain a.toNat).2.cache.index a.toNat = y.cache.index a.toNat := by simp [Cache.index, hcfg, hlines]
  have htags : (y.obtain a.toNat).2.cache.tag a.toNat = y.cache.tag a.toNat := by simp [Cache.tag, hcfg, hlines]
  unfold Cache.holding
  rw [hindex, htags, lookup_eq_some hz.slots (hlines ▸ h.slots.index_lt _) (hways ▸ hk) hvalid htag]
  rfl

/-- Settles O45: a load counts what its read counts, a store what its write counts. -/
theorem countersCountAccesses : Obligations.CountersCountAccesses := by
  unfold Obligations.CountersCountAccesses
  intro i s t c rs1 imm n hinv hacc hc hr he
  rw [bypasses_cached hc]
  cases isAccess hacc with
  | load rd ext hn _ hexec =>
    rw [hexec, loadOp, memRead_cached hc hr] at he
    cases he
    obtain ⟨hcfg, hcounts⟩ := cacheRead_counts (s.hierarchy c) (s.baseDisp rs1 imm) n
    exact ⟨_, by simp, hcfg, hcounts, fun hs _ =>
      cacheRead_holds ((memLegal_of_inv hinv).hierarchy hc) hinv.capacity.2.1 hn hr hs⟩
  | store rs2 _ hdest hexec =>
    rw [hexec, storeOp, memWrite_cached hc hr] at he
    cases he
    obtain ⟨hcfg, hcounts⟩ := cacheWrite_counts (s.hierarchy c) (s.baseDisp rs1 imm) n (s.readReg rs2)
    exact ⟨_, rfl, hcfg, hcounts, fun _ hd => by simp [hdest] at hd⟩

/-! ## MemoryImage under WRITE_THROUGH (20_memory R101) -/

/-- In a legal, coherent state whose cache is WRITE_THROUGH MemoryImage is the data view. -/
theorem read_eq_dataView {s : State} (h : s.MemLegal) (hco : s.coherent) {c : Cache} (hc : s.cache = some c)
    (hw : c.cfg.write = .writeThrough) {a : Nat} (ha : a < 2 ^ 64) : s.mem.read a = s.dataView a := by
  have hs := (h.hierarchy hc).slots
  rw [dataView_cached hc]
  exact (view_eq_read hs (hco c hc) (hs.clean hw) ha).symm

/-- A legal, coherent state with a WRITE_THROUGH cache. -/
structure ThroughCurrent (s : State) : Prop where
  legal    : s.MemLegal
  coherent : s.coherent
  through  : ∃ c, s.cache = some c ∧ c.cfg.write = .writeThrough

theorem throughCurrent_congr {s t : State} (h : ThroughCurrent s) (hmem : t.mem = s.mem) (hcache : t.cache = s.cache)
    (hcap : t.memCapacity = s.memCapacity) : ThroughCurrent t :=
  ⟨memLegal_congr h.legal hmem hcache hcap, coherent_congr hmem hcache h.coherent, hcache ▸ h.through⟩

/-- It is kept by every instruction whose access does not span. -/
theorem exec_keeps_throughCurrent {i : Instr} {s t : State} (h : ThroughCurrent s)
    (hspan : ∀ rs1 imm n, i.dataAccess = some (rs1, imm, n) → s.bypasses (s.baseDisp rs1 imm) n = false)
    (he : exec i s = .next t) : ThroughCurrent t := by
  obtain ⟨c, hc, hw⟩ := h.through
  cases hacc : i.dataAccess with
  | none =>
    obtain ⟨hmem, hcache, hcap, -⟩ := exec_no_access hacc he
    exact throughCurrent_congr h hmem hcache hcap
  | some p =>
    obtain ⟨rs1, imm, n⟩ := p
    have hb := hspan rs1 imm n hacc
    cases isAccess hacc with
    | load rd ext hn _ hexec =>
      rw [hexec, loadOp] at he
      split at he <;> cases he
      · rename_i u hread
        obtain ⟨d, hd, hcounts⟩ := memRead_counts hc hread
        refine throughCurrent_congr (s := u) ⟨memRead_legal h.legal hn hread,
          (memRead_dataView h.legal h.coherent hn hb hread).2.1, d, hd, ?_⟩ (by simp) (by simp) (by simp)
        rw [hcounts.cfg, hw]
      · exact throughCurrent_congr h rfl rfl rfl
    | store rs2 hn _ hexec =>
      rw [hexec, storeOp] at he
      split at he <;> cases he
      · rename_i u hwrite
        obtain ⟨d, hd, hcounts⟩ := memWrite_counts hc hwrite
        refine throughCurrent_congr (s := u) ⟨memWrite_legal h.legal hn hwrite,
          (memWrite_dataView h.legal h.coherent hn hb hwrite).2.1, d, hd, ?_⟩ rfl rfl rfl
        rw [hcounts.cfg, hw]
      · exact throughCurrent_congr h rfl rfl rfl

/-- Settles O50: the state stays legal, coherent and WRITE_THROUGH, and in such a state MemoryImage is the data view. -/
theorem writeThroughMemoryIsCurrent : Obligations.WriteThroughMemoryIsCurrent := by
  unfold Obligations.WriteThroughMemoryIsCurrent
  intro s c hinv hco hc hw
  refine ⟨fun a ha => read_eq_dataView (memLegal_of_inv hinv) hco hc hw (lt_of_capacityLegal hinv.capacity ha),
    fun i t hspan he a ha => ?_⟩
  obtain ⟨hlegal, hco', d, hd, hw'⟩ := exec_keeps_throughCurrent ⟨memLegal_of_inv hinv, hco, c, hc, hw⟩ hspan he
  exact read_eq_dataView hlegal hco' hd hw' (lt_of_capacityLegal hinv.capacity ha)

/-! ## Transparency (20_memory R100, R101) -/

/-- A state with another MemoryImage, cache and draw counter. -/
def State.withMemory (s : State) (m : Memory) (o : Option Cache) (d : Nat) : State :=
  { s with mem := m, cache := o, draws := d }

theorem writeReg_withMemory (s : State) (m : Memory) (o : Option Cache) (d : Nat) (r : Reg) (v : Word) :
    (s.withMemory m o d).writeReg r v = (s.writeReg r v).withMemory m o d := by
  unfold State.writeReg
  split <;> rfl

theorem retire_withMemory (s : State) (m : Memory) (o : Option Cache) (d : Nat) (rd : Reg) (v : Word) :
    (s.withMemory m o d).retire rd v = (s.retire rd v).withMemory m o d := by
  rw [State.retire, writeReg_withMemory]
  rfl

theorem linkAndJump_withMemory (s : State) (m : Memory) (o : Option Cache) (d : Nat) (rd : Reg) (t : Word) (e : Event) :
    linkAndJump rd t e (s.withMemory m o d) = (linkAndJump rd t e s).withMemory m o d := by
  rw [linkAndJump, writeReg_withMemory]
  rfl

/-- An instruction without a data access does the same whatever the memory holds. -/
theorem exec_withMemory {i : Instr} {s t : State} (hacc : i.dataAccess = none) (he : exec i s = .next t) (m : Memory)
    (o : Option Cache) (d : Nat) : exec i (s.withMemory m o d) = .next (t.withMemory m o d) := by
  cases i with
  | lb | lh | lw | ld | lbu | lhu | lwu | sb | sh | sw | sd => cases hacc
  | beq | bne | blt | bge | bltu | bgeu =>
    cases (branchOp_next ..).symm.trans he
    exact branchOp_next ..
  | jal | jalr =>
    cases he
    exact congrArg Host.Outcome.next (linkAndJump_withMemory ..)
  | _ =>
    cases he
    exact congrArg Host.Outcome.next (retire_withMemory ..)

/-- A state and its uncached counterpart differ in MemoryImage, cache and draw counter at most. -/
theorem Uncached.eq_withMemory {s u : State} (h : Uncached s u) : u = s.withMemory u.mem none u.draws := by
  have hx := x_ext h.regs
  obtain ⟨-, hpc, hrun, hfault, hcap, hevents, hdisabled, -⟩ := h
  cases u
  simp only at hx hpc hrun hfault hcap hevents hdisabled
  subst hx hpc hrun hfault hcap hevents hdisabled
  rfl

/-- Completing with the same value keeps the counterparts. -/
theorem Uncached.retire {s u : State} (h : Uncached s u) (rd : Reg) (v : Word) :
    Uncached (s.retire rd v) (u.retire rd v) where
  regs r := by rw [retire_readReg, retire_readReg, h.regs]
  pc := by rw [retire_pc, retire_pc, h.pc]
  runState := by simp [h.runState]
  fault := by simp [h.fault]
  memCapacity := by simp [h.memCapacity]
  events := by simp [h.events]
  disabled := by simp [h.disabled]
  bytes a ha := by
    rw [retire_mem, retire_dataView]
    exact h.bytes a (by simpa using ha)

theorem Uncached.advance {s u : State} (h : Uncached s u) : Uncached s.advance u.advance where
  regs := h.regs
  pc := congrArg (· + 4) h.pc
  runState := h.runState
  fault := h.fault
  memCapacity := h.memCapacity
  events := h.events
  disabled := h.disabled
  bytes := h.bytes

theorem Uncached.raise {s u : State} (h : Uncached s u) (cause : FaultCause) (info : FaultInfo) :
    Uncached (s.raise cause info) (u.raise cause info) where
  regs := h.regs
  pc := h.pc
  runState := rfl
  fault := by simp [h.pc]
  memCapacity := h.memCapacity
  events := by simp [h.pc, h.events]
  disabled := h.disabled
  bytes := h.bytes

theorem Uncached.baseDisp {s u : State} (h : Uncached s u) (rs1 : Reg) (imm : BitVec 12) :
    u.baseDisp rs1 imm = s.baseDisp rs1 imm := by rw [State.baseDisp, State.baseDisp, h.regs]

/-- Accesses that report nothing keep the counterparts when they leave the data view in the uncached memory. -/
theorem Uncached.of_accesses {s u s' u' : State} (h : Uncached s u) (hs : SameCore s s') (hu : SameCore u u')
    (hes : s'.events = s.events) (heu : u'.events = u.events)
    (hbytes : ∀ a < s.memCapacity, u'.mem.read a = s'.dataView a) : Uncached s' u' where
  regs r := by rw [hu.readReg, hs.readReg, h.regs]
  pc := by rw [hu.pc, hs.pc, h.pc]
  runState := by rw [hu.runState, hs.runState, h.runState]
  fault := by rw [hu.fault, hs.fault, h.fault]
  memCapacity := by rw [hu.memCapacity, hs.memCapacity, h.memCapacity]
  events := by rw [heu, hes, h.events]
  disabled := by
    have henabled := hu.enabled
    rw [h.disabled] at henabled
    exact Option.isNone_iff_eq_none.1 (by simpa using henabled)
  bytes a ha := hbytes a (hs.memCapacity ▸ ha)

/-- A read of counterparts in range answers the same value and leaves counterparts. -/
theorem Uncached.memRead {s u : State} (h : Uncached s u) (hs : s.MemLegal) (hco : s.coherent) {a : Word} {n : Nat}
    (hn : 0 < n) (hb : s.bypasses a n = false) (hr : a.toNat + n ≤ s.memCapacity) :
    ∃ v s', s.memRead a n = some (v, s') ∧ u.memRead a n = some (v, u) ∧ s'.coherent ∧ Uncached s' u := by
  obtain ⟨s', hread⟩ := memRead_bytes hs hn hr
  obtain ⟨hview, hco', hevents⟩ := memRead_dataView hs hco hn hb hread
  have hbytes : s.accessBytes a n = u.mem.readBytes a.toNat n := by
    unfold State.accessBytes
    rw [if_neg (by simp [hb])]
    refine List.map_congr_left fun j hj => ?_
    rw [List.mem_range] at hj
    exact (h.bytes _ (by omega)).symm
  refine ⟨_, s', hread, ?_, hco',
    h.of_accesses (memRead_core hread) (sameCore_refl u) hevents rfl fun b hb' => ?_⟩
  · rw [memRead_uncached h.disabled (h.memCapacity ▸ hr), hbytes]
    rfl
  · rw [hview b (lt_of_capacityLegal hs.capacity hb'), h.bytes b hb']

/-- A write to counterparts in range leaves counterparts. -/
theorem Uncached.memWrite {s u : State} (h : Uncached s u) (hs : s.MemLegal) (hu : u.MemLegal) (hco : s.coherent)
    {a v : Word} {n : Nat} (hn : 0 < n) (hb : s.bypasses a n = false) (hr : a.toNat + n ≤ s.memCapacity) :
    ∃ s' u', s.memWrite a n v = some s' ∧ u.memWrite a n v = some u' ∧ s'.coherent ∧ Uncached s' u' := by
  obtain ⟨s', hwrite⟩ := memWrite_completes (v := v) hr
  have hwriteu := memWrite_uncached (v := v) h.disabled (h.memCapacity ▸ hr)
  obtain ⟨hview, hco', hevents⟩ := memWrite_dataView hs hco hn hb hwrite
  refine ⟨s', _, hwrite, hwriteu, hco',
    h.of_accesses (memWrite_core hwrite) (memWrite_core hwriteu) hevents rfl fun b hb' => ?_⟩
  rw [hview b (lt_of_capacityLegal hs.capacity hb')]
  refine (read_rawWrite hu.memory.1 _ _ _ b).trans ?_
  unfold storedByte
  rw [h.bytes b hb']

/-- Settles O51: an instruction without a data access reads neither memory; the accesses of counterparts agree. -/
theorem cacheIsTransparent : Obligations.CacheIsTransparent := by
  unfold Obligations.CacheIsTransparent
  intro i s u hinvs hinvu hco h hspan
  have hs := memLegal_of_inv hinvs
  have hu := memLegal_of_inv hinvu
  cases hacc : i.dataAccess with
  | none =>
    obtain ⟨s', hs', -⟩ := exec_shape i s
    obtain ⟨hmem, hcache, hcap, -⟩ := exec_no_access hacc hs'
    refine ⟨s', _, hs', h.eq_withMemory ▸ exec_withMemory hacc hs' _ _ _, coherent_congr hmem hcache hco, ?_⟩
    refine ⟨fun _ => rfl, rfl, rfl, rfl, rfl, rfl, rfl, fun a ha => ?_⟩
    rw [dataView_congr hmem hcache]
    exact h.bytes a (hcap ▸ ha)
  | some p =>
    obtain ⟨rs1, imm, n⟩ := p
    have hb := hspan rs1 imm n hacc
    by_cases hr : (s.baseDisp rs1 imm).toNat + n ≤ s.memCapacity
    · cases isAccess hacc with
      | load rd ext hn _ hexec =>
        obtain ⟨v, s', hreads, hreadu, hco', h'⟩ := h.memRead hs hco hn hb hr
        refine ⟨s'.retire rd (ext v), u.retire rd (ext v), ?_, ?_, retire_coherent hco' _ _, h'.retire rd (ext v)⟩
        · rw [hexec, loadOp, hreads]
        · rw [hexec, loadOp, h.baseDisp, hreadu]
      | store rs2 hn _ hexec =>
        obtain ⟨s', u', hwrites, hwriteu, hco', h'⟩ := h.memWrite (v := s.readReg rs2) hs hu hco hn hb hr
        refine ⟨s'.advance, u'.advance, exec_store hexec hwrites, exec_store hexec ?_, hco', h'.advance⟩
        rw [h.baseDisp, h.regs]
        exact hwriteu
    · have hexecs := exec_out_of_range (s := s) (isAccess hacc) (by omega)
      have hexecu := exec_out_of_range (s := u) (isAccess hacc) (by rw [h.baseDisp, h.memCapacity]; omega)
      rw [h.baseDisp] at hexecu
      exact ⟨_, _, hexecs, hexecu, hco, h.raise _ _⟩

end Sys2Proof.Machine
end
